-- ==== Sys2Proof/Word.lean ====
section
/-! DEFINITION. The word types of the hardware: the byte exchanged on the SPI wire (R8) and the 6-bit address or strobe
code of a header (R60, R90). -/

namespace Sys2Proof

/-- One byte: an unsigned 8-bit value, bits numbered 7 down to 0 (R8). -/
abbrev Byte := BitVec 8

/-- A 6-bit register address or strobe code: bits 5 to 0 of a header (R60, R90). -/
abbrev Addr := BitVec 6

/-- A 10-bit sample of the Sampler (R43). -/
abbrev Reading := BitVec 10

end Sys2Proof
end

