-- ==== Sys2Proof/Syntax.lean ====
section
/-! DEFINITION. The instruction set: one constructor per row of spec/opcode_table.json. An instruction of this hardware is
an SPI transaction (R1, R90, R91): everything between one `select` and the matching `deselect`. -/

namespace Sys2Proof

/-- The 13 command strobes (R95): eight named by function in the document, five that it only counts (R181). -/
inductive StrobeName where
  | sres | sfstxon | sxoff | scal | srx | stx | sidle | swor | spwd | sfrx | sftx | sworrst | snop
deriving DecidableEq, Repr

/-- The kinds of transaction that carry data bytes (R34, R91): `rs` read single, `rb` burst read, `ws` write single,
`wb` burst write, `sr` the one-byte status-register read of R147. -/
inductive TxnKind where
  | rs | rb | ws | wb | sr
deriving DecidableEq, Repr

/-- One SPI transaction, one constructor per row of the opcode table. `a` is the 6-bit address of the header, `v` a data
byte, `vs` the data bytes of a burst write, `n` the number of data bytes of a burst read, `r` and `b` the bits `R` and `B`
of a header whose row leaves them free (R90). -/
inductive Instr where
  /-- WRITE_SINGLE_CFG (R142). -/
  | writeSingleCfg (a : Addr) (v : Byte)
  /-- WRITE_SINGLE_PATABLE (R142). -/
  | writeSinglePatable (v : Byte)
  /-- WRITE_SINGLE_FIFO (R142). -/
  | writeSingleFifo (v : Byte)
  /-- BURST_WRITE_CFG (R143). -/
  | burstWriteCfg (a : Addr) (vs : List Byte)
  /-- BURST_WRITE_FIFO (R143). -/
  | burstWriteFifo (vs : List Byte)
  /-- READ_SINGLE_CFG (R140). -/
  | readSingleCfg (a : Addr)
  /-- READ_SINGLE_PATABLE (R140). -/
  | readSinglePatable
  /-- READ_SINGLE_FIFO (R140). -/
  | readSingleFifo
  /-- BURST_READ_CFG (R141). -/
  | burstReadCfg (a : Addr) (n : Nat)
  /-- BURST_READ_FIFO (R141). -/
  | burstReadFifo (n : Nat)
  /-- STATUS_READ (R147). -/
  | statusRead (a : Addr)
  /-- SRES (R173). -/
  | sres (r : Bool)
  /-- SCAL (R174). -/
  | scal (r : Bool)
  /-- SRX (R175). -/
  | srx (r : Bool)
  /-- STX (R176). -/
  | stx (r : Bool)
  /-- SIDLE (R177). -/
  | sidle (r : Bool)
  /-- SFRX (R178). -/
  | sfrx (r : Bool)
  /-- SFTX (R179). -/
  | sftx (r : Bool)
  /-- SNOP (R180). -/
  | snop (r : Bool)
  /-- READ_STATUS (R171): the framing of SNOP with bit 7 set. -/
  | readStatus
  /-- WRITE_STATUS (R172): the framing of SNOP with bit 7 clear. -/
  | writeStatus
  /-- SFSTXON (R181). -/
  | sfstxon (r : Bool)
  /-- SXOFF (R181). -/
  | sxoff (r : Bool)
  /-- SWOR (R181). -/
  | swor (r : Bool)
  /-- SPWD (R181). -/
  | spwd (r : Bool)
  /-- SWORRST (R181). -/
  | sworrst (r : Bool)
  /-- RESERVED_2F (R97): headers 2F, 6F, AF, EF. -/
  | reserved2F (r b : Bool)
  /-- RESERVED_STROBE_37 (R97): the code assigned to no strobe; headers 37, B7 under the default codes. -/
  | reservedStrobe37 (r : Bool)
  /-- RESERVED_BURST_WRITE_STATUS (R97): headers 70 to 7D. -/
  | reservedBurstWriteStatus (a : Addr)
  /-- RESERVED_BURST_PATABLE (R97): headers 7E, FE. -/
  | reservedBurstPatable (r : Bool)
deriving DecidableEq, Repr

/-- The instruction the decoder reads from an instruction's own words. The two framings READ_STATUS and WRITE_STATUS are
the SNOP row's words with bit 7 set and clear, and "a decoder uses the `SNOP` row" (R106). -/
def Instr.canon : Instr → Instr
  | .readStatus => .snop true
  | .writeStatus => .snop false
  | i => i

end Sys2Proof
end

