-- ==== Sys2Proof/Config.lean ====
section
/-! DEFINITION. What an implementation fixes (the parameters of R7) and the free values (the draws of R9).

The parameters are `Params`: a record that every state carries and that no step writes (R51), so that a statement about
every state is a statement about every choice of parameters. `Config.params` is one choice, the one `State.reset` carries.

The free values (DESIGN CHOICE, log 4) are constants without a body: nothing can evaluate them or prove a value of them.
Each is applied to the draw counter of the state, so that two draws are independent (R9). -/

namespace Sys2Proof

/-- The role of a node (R7 `ROLE`, R230). -/
inductive Role where
  | base | remote
deriving DecidableEq, Repr

/-- Where control goes after an error in a loop phase (R251, R309). -/
inductive Policy where
  | restart | resync | halt
deriving DecidableEq, Repr

/-- The two layouts of the status byte (R31 `STATE_HI`): `hi7` puts the chip state in bits 7 to 5 and the spare bit in
bit 4; `hi6` puts the chip state in bits 6 to 4 and the spare bit in bit 7. -/
inductive StateHi where
  | hi7 | hi6
deriving DecidableEq, Repr

/-- `ERR_POLICY` (R7): the policy of each error kind, used in the loop phases (R309). -/
structure ErrPolicy where
  hardwareTimeout : Policy
  protocolViolation : Policy
  configurationError : Policy
deriving DecidableEq, Repr

/-- All thirteen command strobes, in the order of R95. -/
def StrobeName.all : List StrobeName :=
  [.sres, .sfstxon, .sxoff, .scal, .srx, .stx, .sidle, .swor, .spwd, .sfrx, .sftx, .sworrst, .snop]

/-- `STROBE_CODE` (R7, R95, D3): the 6-bit code of each strobe. -/
structure StrobeCodes where
  sres : Addr
  sfstxon : Addr
  sxoff : Addr
  scal : Addr
  srx : Addr
  stx : Addr
  sidle : Addr
  swor : Addr
  spwd : Addr
  sfrx : Addr
  sftx : Addr
  sworrst : Addr
  snop : Addr
deriving DecidableEq, Repr

/-- `STROBE_CODE(name)` (R95). -/
def StrobeCodes.of (c : StrobeCodes) : StrobeName → Addr
  | .sres => c.sres
  | .sfstxon => c.sfstxon
  | .sxoff => c.sxoff
  | .scal => c.scal
  | .srx => c.srx
  | .stx => c.stx
  | .sidle => c.sidle
  | .swor => c.swor
  | .spwd => c.spwd
  | .sfrx => c.sfrx
  | .sftx => c.sftx
  | .sworrst => c.sworrst
  | .snop => c.snop

/-- The constraint on every choice of `STROBE_CODE` (R7, R95): its range lies in 0x30 to 0x3D, and it is injective. -/
def StrobeCodes.wf (c : StrobeCodes) : Bool :=
  StrobeName.all.all (fun n => decide (0x30 ≤ (c.of n).toNat) && decide ((c.of n).toNat ≤ 0x3D)) &&
  StrobeName.all.all (fun n => StrobeName.all.all (fun m => decide (n = m) || !decide (c.of n = c.of m)))

/-- The parameters of the model (R7). No step writes them (R51). A bound of a wait is `none` for ∞ (D14). -/
structure Params where
  /-- `ROLE`. -/
  role : Role
  /-- `PROFILE_ID`, an integer that may lie outside the table (R211). -/
  profileId : Int
  /-- `TX_POWER_LEVEL`, a selector that may lie outside the set of levels (R212). -/
  txPowerLevel : Nat
  /-- `PROFILES`; `N_PROFILES` is its length. -/
  profiles : List (List Byte)
  /-- `PA_LEVELS`: each selector with its calibration byte. -/
  paLevels : List (Nat × Byte)
  /-- `PKT_MODE_WRITES`: address and byte of each single-register write, in order. -/
  pktModeWrites : List (Nat × Byte)
  /-- `MAX_PKT_LEN`. -/
  maxPktLen : Nat
  /-- `FIFO_DEPTH`. -/
  fifoDepth : Nat
  /-- `STROBE_CODE`. -/
  strobeCode : StrobeCodes
  /-- `RXBYTES_ADDR`. -/
  rxbytesAddr : Nat
  /-- `STATE_HI`. -/
  stateHi : StateHi
  /-- `T_READY`. -/
  tReady : Option Nat
  /-- `T_BYTE`. -/
  tByte : Option Nat
  /-- `T_WAIT`. -/
  tWait : Option Nat
  /-- `CRC_AUTOFLUSH`. -/
  crcAutoflush : Bool
  /-- `ERR_POLICY`. -/
  errPolicy : ErrPolicy
  /-- `DUMMY`, the byte sent in the data positions of a read (R104, D10). -/
  dummy : Byte
deriving DecidableEq, Repr

namespace Config

/-- `CFG_LEN`, fixed by the document (R7, R101). -/
def cfgLen : Nat := 47

/-- `PKT_LEN`, fixed by the document (R7). -/
def pktLen : Nat := 2

/-- The default of `STROBE_CODE` (R95): the codes of the CC1101 family. PRESUMED: log 5. -/
def strobeCode : StrobeCodes :=
  { sres := 0x30, sfstxon := 0x31, sxoff := 0x32, scal := 0x33, srx := 0x34, stx := 0x35, sidle := 0x36, swor := 0x38,
    spwd := 0x39, sfrx := 0x3A, sftx := 0x3B, sworrst := 0x3C, snop := 0x3D }

/-- The default policy table of R309. -/
def errPolicy : ErrPolicy :=
  { hardwareTimeout := .restart, protocolViolation := .resync, configurationError := .halt }

/-- One profile of 47 bytes: the ten bytes that V40 chose, then zeros. DESIGN CHOICE: log 3. -/
def profile0 : List Byte :=
  [0x29, 0x2E, 0x06, 0x07, 0xD3, 0x91, 0xFF, 0x04, 0x05, 0x00] ++ List.replicate 37 0x00

/-- The parameters that `State.reset` carries: the defaults of R7 where it gives one, else the values of the spec's
program P1. DESIGN CHOICE: log 3; PRESUMED for `STROBE_CODE`: log 5, and for the FIFO depth and `RXBYTES_ADDR`: log 6;
`STATE_HI`: log 7; `DUMMY`: log 22. -/
def params : Params :=
  { role := .base, profileId := 0, txPowerLevel := 0, profiles := [profile0], paLevels := [(0, 0xC0)],
    pktModeWrites := [(0x06, 0x02)], maxPktLen := 2, fifoDepth := 64, strobeCode := strobeCode,
    rxbytesAddr := 0x3B, stateHi := .hi7, tReady := some 1, tByte := some 1, tWait := some 1,
    crcAutoflush := false, errPolicy := errPolicy, dummy := 0x00 }

/-- A drawn byte (R9): an unwritten register, another status register, an `x` position, an empty RX FIFO, a reset value. -/
opaque drawByte : Nat → Byte

/-- A drawn bit (R9): the spare bit of a status byte (R31). -/
opaque drawBit : Nat → BitVec 1

/-- A drawn value 0 to 15 (R9): the FIFO field of a status byte that is no read-status or write-status framing (R32). -/
opaque drawNibble : Nat → BitVec 4

/-- A drawn value 0 to 1023 (R9): the Sampler's answer (R238). -/
opaque drawReading : Nat → Reading

end Config

/-- The conditions R7 and R101 put on the parameters: profiles of exactly 47 bytes and at least one of them, at least one
power level, at least one packet-mode write and all of them to configuration registers, `FIFO_DEPTH` from `PKT_LEN` to
255, `MAX_PKT_LEN` at most `FIFO_DEPTH`, `STROBE_CODE` injective into 0x30 to 0x3D, `RXBYTES_ADDR` a status-register
address. -/
def Params.wf (p : Params) : Bool :=
  !p.profiles.isEmpty && p.profiles.all (fun t => t.length == Config.cfgLen) && !p.paLevels.isEmpty &&
  !p.pktModeWrites.isEmpty && p.pktModeWrites.all (fun w => decide (w.1 ≤ 0x2E)) &&
  decide (Config.pktLen ≤ p.fifoDepth) && decide (p.fifoDepth ≤ 255) && decide (p.maxPktLen ≤ p.fifoDepth) &&
  p.strobeCode.wf &&
  decide (0x30 ≤ p.rxbytesAddr) && decide (p.rxbytesAddr ≤ 0x3D)

end Sys2Proof
end

