-- ==== Sys2Proof/WellFormed.lean ====
section
/-! DEFINITION. What the operands of an instruction must satisfy, from the address ranges of spec/opcode_table.json and
from R65 and R152. The bounds that depend on the FIFO depth and on the present length of the TX FIFO are no property of
the instruction alone: the bridge's admission check tests them (`Machine/Bridge.lean`, R152). -/

namespace Sys2Proof

/-- A configuration-register address: 0x00 to 0x2E (R61). -/
def cfgAddr (a : Addr) : Bool := decide (a.toNat ≤ 0x2E)

/-- A status-register address, or a strobe code: 0x30 to 0x3D (R61). -/
def statusAddr (a : Addr) : Bool := decide (0x30 ≤ a.toNat) && decide (a.toNat ≤ 0x3D)

/-- A burst of `n` data bytes at base `a` that stays inside the configuration registers (R65 (a)). -/
def cfgBurst (a : Addr) (n : Nat) : Bool := decide (1 ≤ n) && decide (a.toNat + n - 1 ≤ 0x2E)

/-- The operands lie where the instruction's row and R65 admit them. -/
def Instr.wellFormed : Instr → Bool
  | .writeSingleCfg a _ => cfgAddr a
  | .writeSinglePatable _ => true
  | .writeSingleFifo _ => true
  | .burstWriteCfg a vs => cfgBurst a vs.length
  | .burstWriteFifo vs => decide (1 ≤ vs.length)
  | .readSingleCfg a => cfgAddr a
  | .readSinglePatable => true
  | .readSingleFifo => true
  | .burstReadCfg a n => cfgBurst a n
  | .burstReadFifo n => decide (1 ≤ n)
  | .statusRead a => statusAddr a
  | .sres _ => true
  | .scal _ => true
  | .srx _ => true
  | .stx _ => true
  | .sidle _ => true
  | .sfrx _ => true
  | .sftx _ => true
  | .snop _ => true
  | .readStatus => true
  | .writeStatus => true
  | .sfstxon _ => true
  | .sxoff _ => true
  | .swor _ => true
  | .spwd _ => true
  | .sworrst _ => true
  | .reserved2F _ _ => true
  | .reservedStrobe37 _ => true
  | .reservedBurstWriteStatus a => statusAddr a
  | .reservedBurstPatable _ => true

/-- The instruction is one of the hardware's. -/
abbrev WellFormed (i : Instr) : Prop := i.wellFormed = true

end Sys2Proof
end

