-- ==== Sys2Proof/Decode.lean ====
section
/-! DEFINITION. Decoding a header at the target (R96, R97), decoding a whole transaction (R91, R98), and after it the
encoder (R91 to R95, R99). A transaction is the list of bytes the master sends between one `select` and the matching
`deselect`; there is no length field, so its end is the end of the list (R98). -/

namespace Sys2Proof

/-- What a header byte selects at the target (R96). -/
inductive HeaderKind where
  /-- A register access of kind `k` at base address `a`. -/
  | access (k : TxnKind) (a : Nat)
  /-- The strobe `name`; `r` is bit 7, kept for the FIFO count of the status byte (R32). -/
  | strobe (name : StrobeName) (r : Bool)
  /-- A one-byte read of the status register `a`. -/
  | statusRead (a : Nat)
  /-- A header the document assigns no meaning (R97). -/
  | reserved
deriving DecidableEq, Repr

/-- Why a list of bytes is no transaction of the hardware (R91, R98, R65). -/
inductive DecodeError where
  /-- No header: an exchange of no byte is refused (R123). -/
  | noHeader
  /-- A single access, a burst or a status read without its data byte (R91: a burst has n ≥ 1). -/
  | missingData
  /-- A byte after a complete strobe, single access or status read (R98). -/
  | extraData
  /-- A burst that leaves 0x00 to 0x2E (R65). -/
  | leavesRange
deriving DecidableEq, Repr

/-- Bit 7 of a header, `R`: 1 for a read (R90). -/
def headerRead (h : Byte) : Bool := h.getLsbD 7

/-- Bit 6 of a header, `B`: 1 for a burst (R90). -/
def headerBurst (h : Byte) : Bool := h.getLsbD 6

/-- Bits 5 to 0 of a header, `A` (R90). -/
def headerAddr (h : Byte) : Addr := h.extractLsb' 0 6

/-- The strobe a 6-bit code stands for (R96): the inverse of `STROBE_CODE`; a code outside its range stands for none. -/
def strobeOfCode (c : StrobeCodes) (a : Addr) : Option StrobeName := StrobeName.all.find? (fun n => c.of n == a)

/-- A code of 0x30 to 0x3D that `STROBE_CODE` assigns to no strobe (R95, R96): thirteen codes leave one of the fourteen,
0x37 under the default codes. -/
def StrobeCodes.unassigned (c : StrobeCodes) : Addr :=
  (((List.range 14).map (fun k => BitVec.ofNat 6 (0x30 + k))).find? (fun a => (strobeOfCode c a).isNone)).getD 0x37

/-- The kind of a register access from the bits `R` and `B` (R92, R96). -/
def accessKind (r b : Bool) : TxnKind :=
  match r, b with
  | false, false => .ws
  | false, true => .wb
  | true, false => .rs
  | true, true => .rb

/-- The target's decoding of a header (R96), for all 256 header values (R97), with the strobe codes `c`. -/
def decodeHeader (c : StrobeCodes) (h : Byte) : HeaderKind :=
  let r := headerRead h
  let b := headerBurst h
  let a := (headerAddr h).toNat
  if a ≤ 0x2E then .access (accessKind r b) a
  else if a = 0x2F then .reserved
  else if a ≤ 0x3D then
    if b then (if r then .statusRead a else .reserved)
    else match strobeOfCode c (headerAddr h) with
      | some n => .strobe n r
      | none => .reserved
  else if a = 0x3E then
    if b then .reserved else .access (accessKind r b) a
  else .access (accessKind r b) a

/-- The row a strobe's words select (R106: the SNOP row for its words). -/
def Instr.ofStrobe : StrobeName → Bool → Instr
  | .sres, r => .sres r
  | .sfstxon, r => .sfstxon r
  | .sxoff, r => .sxoff r
  | .scal, r => .scal r
  | .srx, r => .srx r
  | .stx, r => .stx r
  | .sidle, r => .sidle r
  | .swor, r => .swor r
  | .spwd, r => .spwd r
  | .sfrx, r => .sfrx r
  | .sftx, r => .sftx r
  | .sworrst, r => .sworrst r
  | .snop, r => .snop r

/-- The reserved row a reserved header belongs to (R97). -/
def Instr.ofReserved (h : Byte) : Instr :=
  let a := headerAddr h
  if a.toNat = 0x2F then .reserved2F (headerRead h) (headerBurst h)
  else if a.toNat = 0x3E then .reservedBurstPatable (headerRead h)
  else if headerBurst h then .reservedBurstWriteStatus a
  else .reservedStrobe37 (headerRead h)

/-- A transaction with exactly one data byte (R98). -/
def oneData (f : Byte → Instr) : List Byte → Except DecodeError Instr
  | [] => .error .missingData
  | [v] => .ok (f v)
  | _ :: _ :: _ => .error .extraData

/-- A register access of kind `k` at the address `a` of the header (R96, R98): a single access has one data byte, a
burst as many as the master sends. In a read the target ignores the bytes it receives (R104). -/
def decodeAccess (k : TxnKind) (a : Addr) (data : List Byte) : Except DecodeError Instr :=
  match k with
  | .ws =>
    oneData (fun v => if a.toNat ≤ 0x2E then .writeSingleCfg a v
      else if a.toNat = 0x3E then .writeSinglePatable v else .writeSingleFifo v) data
  | .rs =>
    oneData (fun _ => if a.toNat ≤ 0x2E then .readSingleCfg a
      else if a.toNat = 0x3E then .readSinglePatable else .readSingleFifo) data
  | .wb =>
    if data.isEmpty then .error .missingData
    else if a.toNat ≤ 0x2E then
      (if cfgBurst a data.length then .ok (.burstWriteCfg a data) else .error .leavesRange)
    else .ok (.burstWriteFifo data)
  | .rb =>
    if data.isEmpty then .error .missingData
    else if a.toNat ≤ 0x2E then
      (if cfgBurst a data.length then .ok (.burstReadCfg a data.length) else .error .leavesRange)
    else .ok (.burstReadFifo data.length)
  | .sr => oneData (fun _ => .statusRead a) data

/-- The instruction a transaction is (R91, R96, R98, R106), with the strobe codes `c`. A reserved header is
refused whatever follows it, so its row is read from the header alone (R97). -/
def decode (c : StrobeCodes) : List Byte → Except DecodeError Instr
  | [] => .error .noHeader
  | h :: data =>
    match decodeHeader c h with
    | .reserved => .ok (Instr.ofReserved h)
    | .strobe n r => if data.isEmpty then .ok (Instr.ofStrobe n r) else .error .extraData
    | .statusRead _ => decodeAccess .sr (headerAddr h) data
    | .access k _ => decodeAccess k (headerAddr h) data

/-- A header from its three fields (R90, R99): `addr | K` with `K` the constant of the bits `R` and `B`. -/
def headerOf (r b : Bool) (a : Addr) : Byte := BitVec.ofBool r ++ BitVec.ofBool b ++ a

/-- The header of a strobe with bit 7 as given (R93, R94). -/
def strobeHeader (c : StrobeCodes) (n : StrobeName) (r : Bool) : Byte := headerOf r false (c.of n)

/-- The bytes the master sends for an instruction (R91, R93, R94, R99, R104), with `STROBE_CODE` and `DUMMY` of `p`. -/
def encode (p : Params) : Instr → List Byte
  | .writeSingleCfg a v => [headerOf false false a, v]
  | .writeSinglePatable v => [headerOf false false 0x3E, v]
  | .writeSingleFifo v => [headerOf false false 0x3F, v]
  | .burstWriteCfg a vs => headerOf false true a :: vs
  | .burstWriteFifo vs => headerOf false true 0x3F :: vs
  | .readSingleCfg a => [headerOf true false a, p.dummy]
  | .readSinglePatable => [headerOf true false 0x3E, p.dummy]
  | .readSingleFifo => [headerOf true false 0x3F, p.dummy]
  | .burstReadCfg a n => headerOf true true a :: List.replicate n p.dummy
  | .burstReadFifo n => headerOf true true 0x3F :: List.replicate n p.dummy
  | .statusRead a => [headerOf true true a, p.dummy]
  | .sres r => [strobeHeader p.strobeCode .sres r]
  | .scal r => [strobeHeader p.strobeCode .scal r]
  | .srx r => [strobeHeader p.strobeCode .srx r]
  | .stx r => [strobeHeader p.strobeCode .stx r]
  | .sidle r => [strobeHeader p.strobeCode .sidle r]
  | .sfrx r => [strobeHeader p.strobeCode .sfrx r]
  | .sftx r => [strobeHeader p.strobeCode .sftx r]
  | .snop r => [strobeHeader p.strobeCode .snop r]
  | .readStatus => [strobeHeader p.strobeCode .snop true]
  | .writeStatus => [strobeHeader p.strobeCode .snop false]
  | .sfstxon r => [strobeHeader p.strobeCode .sfstxon r]
  | .sxoff r => [strobeHeader p.strobeCode .sxoff r]
  | .swor r => [strobeHeader p.strobeCode .swor r]
  | .spwd r => [strobeHeader p.strobeCode .spwd r]
  | .sworrst r => [strobeHeader p.strobeCode .sworrst r]
  | .reserved2F r b => [headerOf r b 0x2F]
  | .reservedStrobe37 r => [headerOf r false p.strobeCode.unassigned]
  | .reservedBurstWriteStatus a => [headerOf false true a]
  | .reservedBurstPatable r => [headerOf r true 0x3E]

/-- The number of data bytes the shortest transaction of a header has (R91): one where the header takes data. It is the
same for every `STROBE_CODE`. -/
def minData (h : Byte) : Nat :=
  match decodeHeader Config.strobeCode h with
  | .access _ _ => 1
  | .statusRead _ => 1
  | .strobe _ _ => 0
  | .reserved => 0

/-- The transaction of an instruction whose bits are `w`, numbered as spec/opcode_table.json numbers them: byte `k` is
bits `8k+7` to `8k`. The table gives a row its header only; a header that takes data is followed by one data byte of
zeros, so that a burst is one of a single byte. -/
def tableBytes (nbits w : Nat) : List Byte :=
  let given := (List.range (max 1 (nbits / 8))).map (fun k => BitVec.ofNat 8 (w >>> (8 * k)))
  given ++ List.replicate (minData (BitVec.ofNat 8 w) + 1 - given.length) 0x00

/-- The instruction the decoder reads from the bits `w` of an opcode-table row, with the default strobe codes, which the
table is written in. -/
def decodeTableWord (nbits w : Nat) : Option Instr :=
  match decode Config.strobeCode (tableBytes nbits w) with
  | .ok i => some i
  | .error _ => none

end Sys2Proof
end

