-- ==== Sys2Proof/Machine/State.lean ====
section
/-! DEFINITION. The state of one node (R20), as plain data, with its reset value (R52, R350), and the reasons a step can
stop. Target state, bridge and sequencer state and port state are the spec's; the last group is the model's own: what the
spec leaves to the environment, to a caller or to a draw stands there as data. -/

namespace Sys2Proof.Machine

/-- The register space that holds bytes (R21, R25, R61): configuration registers 0x00 to 0x2E and PATABLE at 0x3E, as
(address, byte) pairs with addresses strictly rising. An address that is not listed is unwritten: it holds no value and a
read of it is a draw (R52, R144, R150). -/
abbrev Memory := List Host.Cell

/-- The chip state (R29). -/
inductive ChipState where
  | idle | rx | tx | fstxon | calibrate | settling | rxOverflow | txUnderflow
deriving DecidableEq, Repr

/-- Where the radio agent is taking the chip (R30). -/
inductive Goal where
  | none | toIdle | toRx | toTx
deriving DecidableEq, Repr

/-- The address counter of an access (R127 `next`, R146): at an address, or past the end of its region. -/
inductive Cursor where
  | at (a : Nat)
  | pastEnd
deriving DecidableEq, Repr

/-- The target's transaction decoder (R34): `data kind a k` has moved `k` data bytes and stands at `a`. -/
inductive Tdec where
  | closed
  | awaitHeader
  | data (kind : TxnKind) (a : Cursor) (k : Nat)
  | done
deriving DecidableEq, Repr

/-- The direction flag (R37). -/
inductive Dir where
  | unwritten | rx | tx
deriving DecidableEq, Repr

/-- The copy of the direction flag that the completion handler leaves (R40). -/
inductive WakeDir where
  | none | rx | tx
deriving DecidableEq, Repr

/-- The sequencer's program counter (R42). -/
inductive Phase where
  | bootInit | bootProfile | bootPktMode | bootTxPower
  | flushRx | armRx | sleepWaitRx | drainFifo | forward
  | sample | encode | flushTx | transmit | sleepWaitTx
  | resync | halt
deriving DecidableEq, Repr

/-- A data register of the sequencer (R43 to R45): its value, and whether anything has written it yet. A read of one that
is not written is refused (R52). -/
structure Datum (α : Type) where
  value : α
  written : Bool
deriving DecidableEq, Repr

/-- A data register that holds `v`. -/
def Datum.of {α : Type} (v : α) : Datum α := { value := v, written := true }

/-- What the wire log records (R49). -/
inductive WireEvent where
  | select
  | deselect
  | byte (sent received : Byte)
deriving DecidableEq, Repr

/-- The causes of a HardwareTimeout (R301, R304). -/
inductive TimeoutCause where
  | ready | byte | wait
deriving DecidableEq, Repr

/-- Which input a ConfigurationError names (R302, R304). -/
inductive ConfigInput where
  | profileId | powerLevel
deriving DecidableEq, Repr

/-- The causes of a ProtocolViolation (R303, R304). -/
inductive ViolationCause where
  | state | count
deriving DecidableEq, Repr

/-- The three error kinds, each with its cause and the value R304 records. -/
inductive OpError where
  | hardwareTimeout (cause : TimeoutCause)
  | configurationError (input : ConfigInput) (value : Int)
  | protocolViolation (cause : ViolationCause) (value : Byte)
deriving DecidableEq, Repr

/-- The last error surfaced (R46, R304). `phase` is absent when the operation was no call of the sequencer (V41). -/
structure ErrRecord where
  error : OpError
  phase : Option Phase
deriving DecidableEq, Repr

/-- The model's own: what a suspended sequencer waits for (R245, R247, R248). -/
inductive WaitOn where
  | none | completion | tick | conversion
deriving DecidableEq, Repr

/-- The model's own: one choice of the environment (R10, R66, R72, R280). An agent's step that is not enabled has no
effect. -/
inductive Event where
  /-- The radio agent settles to the other transitional state (R281). -/
  | settleOther
  /-- The radio agent settles to its goal (R281). -/
  | settleGoal
  /-- The air offers the packet `p` with CRC good or bad (R282, R287). -/
  | rxDone (p : List Byte) (ok : Bool)
  /-- The radio agent ends a transmission (R283). -/
  | txDone
  /-- The radio agent runs out of bytes; `raise` says whether a completion event comes with it (R284). -/
  | txUnderflow (raise : Bool)
  /-- The ready line falls (R288). -/
  | becomeReady
  /-- The periodic timer ticks (R247). -/
  | tick
  /-- The conversion is done (R248). -/
  | conversionDone
  /-- The bound of the wait in progress expires, if it has one (R301). -/
  | expire
  /-- The SPI peripheral never completes the byte in progress (R123, U29). -/
  | stall
  /-- The sequencer takes its next atomic action. -/
  | go
deriving DecidableEq, Repr

/-- The state of one node. -/
structure State where
  /-- `cfg` and `patable` (R21, R25). -/
  mem : Memory
  /-- The receive queue, head first (R26). -/
  rxfifo : List Byte
  /-- The transmit queue, head first (R27). -/
  txfifo : List Byte
  /-- R29. -/
  chipState : ChipState
  /-- R30. -/
  goal : Goal
  /-- True when the target can accept a transaction (R33); the line is low when this is true. -/
  ready : Bool
  /-- R34. -/
  tdec : Tdec
  /-- R35. -/
  spiInited : Bool
  /-- The level of the chip-select line (R36): false is asserted, true is deasserted. -/
  csn : Bool
  /-- R37. -/
  dir : Dir
  /-- R38. -/
  armed : Bool
  /-- R39. -/
  wakeSlot : Bool
  /-- R40. -/
  wakeDir : WakeDir
  /-- R41. -/
  sleeping : Bool
  /-- R42. -/
  phase : Phase
  /-- R43. -/
  reading : Datum Reading
  /-- The pair `(hi, lo)` (R44). -/
  payload : Datum (Byte × Byte)
  /-- R45. -/
  rxcount : Datum Byte
  /-- R45. -/
  lastStatus : Datum Byte
  /-- R46. -/
  err : Option ErrRecord
  /-- R47. -/
  hostOut : List Byte
  /-- R48. -/
  tickSlot : Bool
  /-- R49. -/
  wireLog : List WireEvent
  /-- The model's own: what the sequencer is suspended on (log 12). -/
  waitOn : WaitOn
  /-- The model's own: the radio agent has used the passage to the other transitional state that R281 allows at most once
  per strobe (DEDUCED, log 13). -/
  swapUsed : Bool
  /-- The model's own: the packets this node's radio agent has put on the air (R283; log 20). -/
  airOut : List (List Byte)
  /-- The model's own: the transaction a caller of the register interface has placed, empty for none (log 11). -/
  request : List Byte
  /-- The model's own: the data bytes the caller's last operation returned (R102; log 18). -/
  returned : List Byte
  /-- The model's own: the environment's choices from now on, first one first (log 2). -/
  env : List Event
  /-- The model's own: the number of draws made (log 4). -/
  draws : Nat
  /-- The parameters (R7, R51); no step writes them (log 1). -/
  par : Params
deriving DecidableEq, Repr

/-- Why the machine stops with a fault: the spec's *stuck* (R11), a wait without a bound whose condition never comes. -/
inductive Fault where
  /-- Raised by the ready wait of `select` with `T_READY = ∞` when nothing the environment still does makes the target
  ready (R121, R301, U29). Safe: the hardware waits for ever. -/
  | stuckReadyWait
  /-- Raised by the per-byte wait of `exchange` with `T_BYTE = ∞` when the SPI peripheral never completes the byte (R123,
  R301, U29). Safe: the hardware waits for ever. -/
  | stuckByteWait
deriving DecidableEq, Repr

/-- Why the machine gives no meaning: the spec's *refused* (R11). Every one is safe: the spec gives the form no meaning. -/
inductive Refusal where
  /-- Raised by `exec` alone, for an instruction that has no meaning in the model yet. Safe. -/
  | notModelled (mnemonic : String)
  /-- Raised by the step for a caller's bytes that are no transaction (R65, R91, R98). Safe. -/
  | badTransaction (e : DecodeError)
  /-- Raised by the bridge for arguments outside the admission table (R152). Safe. -/
  | notAdmitted
  /-- Raised by the bridge and by the target for one of the five unnamed strobes (R181). Safe. -/
  | unnamedStrobe (name : StrobeName)
  /-- Raised by the bridge and by the target for a reserved header (R97, D13). Safe. -/
  | reservedHeader
  /-- Raised by the target for an enter-RX or enter-TX strobe while the other operation, or FSTXON, is in progress (R175,
  R176, U14). Safe. -/
  | concurrentStrobe
  /-- Raised by the target for a write to a full TX FIFO (R79, R145). Safe. -/
  | txFifoFull
  /-- Raised by the transport before `init` has run (R35, R121 to R123). Safe. -/
  | notInitialised
  /-- Raised by `select` and by `init` while chip select is asserted (R120, R121). Safe. -/
  | alreadySelected
  /-- Raised by `exchange` and `deselect` while chip select is deasserted (R122, R123). Safe. -/
  | notSelected
  /-- Raised by `exchange` for an empty list of bytes (R123). Safe. -/
  | emptyExchange
  /-- Raised by the target for a byte while its decoder is closed (R127). Safe. -/
  | decoderClosed
  /-- Raised by the target for a byte after a complete strobe or single access (R98, R127). Safe. -/
  | afterComplete
  /-- Raised by the target for a data byte past the end of the region (R65, R127). Safe. -/
  | pastRangeEnd
  /-- Raised by the sequencer for the read of a data register that nothing has written (R52). Safe. -/
  | unwrittenRead
deriving DecidableEq, Repr

/-- The machine right after node power-on (R52, R350) with the parameters `p`. The spec gives `chip_state` a draw: IDLE is
the model's DESIGN CHOICE (log 8). The values of the data registers that nothing has written are zero by DESIGN CHOICE
(log 10); nothing reads them. -/
def State.resetWith (p : Params) : State :=
  { mem := [], rxfifo := [], txfifo := [], chipState := .idle, goal := .none, ready := false, tdec := .closed,
    spiInited := false, csn := true, dir := .unwritten, armed := false, wakeSlot := false, wakeDir := .none,
    sleeping := false, phase := .bootInit, reading := { value := 0, written := false },
    payload := { value := (0, 0), written := false }, rxcount := { value := 0, written := false },
    lastStatus := { value := 0, written := false }, err := none, hostOut := [], tickSlot := false, wireLog := [],
    waitOn := .none, swapUsed := false, airOut := [], request := [], returned := [], env := [], draws := 0, par := p }

/-- The machine right after node power-on. -/
def State.reset : State := State.resetWith Config.params

end Sys2Proof.Machine
end

