-- ==== Sys2Proof/Machine/Memory.lean ====
section
/-! DEFINITION. Memory: the addressed bytes of the register space, in one canonical form (R21, R25, R61). -/

namespace Sys2Proof.Machine

/-- The addresses that hold a byte: configuration registers and PATABLE (R61). -/
def Memory.backed (a : Nat) : Bool := decide (a ≤ 0x2E) || decide (a = 0x3E)

/-- The byte at `a`, or none where nothing has written it (R52, R150). -/
def Memory.read : Memory → Nat → Option Byte
  | [], _ => none
  | (k, v) :: m, a => if k = a then some v else Memory.read m a

/-- Memory with the byte `v` at `a`, addresses still strictly rising. An address that nothing has written holds no value,
so no byte written equals what an unlisted address reads as, and every write lists its address. -/
def Memory.write : Memory → Nat → Byte → Memory
  | [], a, v => [(a, v)]
  | (k, w) :: m, a, v =>
    if a < k then (a, v) :: (k, w) :: m
    else if a = k then (a, v) :: m
    else (k, w) :: Memory.write m a v

/-- Every address of `m` is above `a`. -/
def Memory.above (a : Nat) (m : Memory) : Bool := m.all (fun c => decide (a < c.1))

/-- The addresses are strictly rising. -/
def Memory.rising : Memory → Bool
  | [] => true
  | (k, _) :: m => Memory.above k m && Memory.rising m

/-- The canonical form: addresses strictly rising, and only addresses that hold a byte. -/
def Memory.wf (m : Memory) : Bool := Memory.rising m && m.all (fun c => Memory.backed c.1)

/-- Successive writes of `vs` from `a` on (R63, R65 (a)). -/
def Memory.writeList : Memory → Nat → List Byte → Memory
  | m, _, [] => m
  | m, a, v :: vs => Memory.writeList (Memory.write m a v) (a + 1) vs

/-- Memory after a reset strobe: 48 fresh draws, from draw `n` on (R173, D25). -/
def Memory.drawn (n : Nat) : Memory :=
  (List.range Config.cfgLen).map (fun i => (i, Config.drawByte (n + i))) ++
    [(0x3E, Config.drawByte (n + Config.cfgLen))]

end Sys2Proof.Machine
end

