-- ==== Sys2Proof/Machine/Operands.lean ====
section
/-! DEFINITION. Operand forms: header assembly (R92, R99), the address classes (R61), the advance of the address counter
(R127, R146), the payload (R100) and the table lookups of the profile loader (R211, R212). -/

namespace Sys2Proof.Machine

/-- The constant of `write_single` (R92). -/
def kWriteSingle : Byte := 0x00

/-- The constant of `burst_write` (R92). -/
def kBurstWrite : Byte := 0x40

/-- The constant of `read_single` (R92). -/
def kReadSingle : Byte := 0x80

/-- The constant of `burst_read` (R92). -/
def kBurstRead : Byte := 0xC0

/-- Header assembly: `addr | K` (R99). -/
def header (addr : Nat) (k : Byte) : Byte := BitVec.ofNat 8 addr ||| k

/-- The header of a strobe as the bridge sends it: the code with bit 7 set, or clear for the write-status framing (R93,
R94). -/
def strobeByte (c : StrobeCodes) (n : StrobeName) (r : Bool) : Byte :=
  header (c.of n).toNat (if r then 0x80 else 0x00)

/-- A configuration-register address (R61). -/
def isCfg (addr : Nat) : Bool := decide (addr ≤ 0x2E)

/-- A status-register address (R61). -/
def isStatus (addr : Nat) : Bool := decide (0x30 ≤ addr) && decide (addr ≤ 0x3D)

/-- The address of PATABLE (R25). -/
def patableAddr : Nat := 0x3E

/-- The FIFO alias (R28). -/
def fifoAddr : Nat := 0x3F

/-- The address after a data byte at `a` (R127 `next`, R146). -/
def nextAddr (a : Nat) : Cursor :=
  if a ≤ 0x2D then .at (a + 1) else if a = fifoAddr then .at fifoAddr else .pastEnd

/-- `encode(r)`: the big-endian pair of a sample (R100, R239). -/
def encodePayload (r : Reading) : Byte × Byte := ((r >>> 8).setWidth 8, r.setWidth 8)

/-- `decode(h, l)`: the sample of any two bytes (R100); it belongs to the host. -/
def decodePayload (h l : Byte) : Reading := (h ++ l).setWidth 10

/-- The profile an id selects, none where the id is outside the table bound (R210, R211, D23). -/
def profileOf (p : Params) (id : Int) : Option (List Byte) :=
  match id with
  | .ofNat n => p.profiles[n]?
  | .negSucc _ => none

/-- The calibration byte of a power level, none where it is not in the enumerated set (R212). -/
def paByte (p : Params) (level : Nat) : Option Byte :=
  (p.paLevels.find? (fun e => e.1 == level)).map (·.2)

end Sys2Proof.Machine
end

