-- ==== Sys2Proof/Machine/Flags.lean ====
section
/-! DEFINITION. Every flag and status computation: the codes of the chip states (R29), the FIFO count field (R32), the status
byte in both layouts and its decoding by the master (R31), the level of the ready line (R33), the unexpected states (R252)
and the numeric error codes (R304). -/

namespace Sys2Proof.Machine

/-- The 3-bit code of a chip state (R29). -/
def chipCode : ChipState → BitVec 3
  | .idle => 0
  | .rx => 1
  | .tx => 2
  | .fstxon => 3
  | .calibrate => 4
  | .settling => 5
  | .rxOverflow => 6
  | .txUnderflow => 7

/-- The chip state of a 3-bit code: every code is one of the eight (R29, R31). -/
def chipOfCode (c : BitVec 3) : ChipState :=
  if c = 0 then .idle
  else if c = 1 then .rx
  else if c = 2 then .tx
  else if c = 3 then .fstxon
  else if c = 4 then .calibrate
  else if c = 5 then .settling
  else if c = 6 then .rxOverflow
  else .txUnderflow

/-- A count in a 4-bit field: it saturates at 15 (R32, R105). -/
def saturate4 (n : Nat) : BitVec 4 := BitVec.ofNat 4 (min n 15)

/-- The FIFO count field of the status byte returned with the header `h` (R32). -/
def fifoField (h : Byte) (s : State) : BitVec 4 :=
  if h = strobeByte s.par.strobeCode .snop true then saturate4 s.rxfifo.length
  else if h = strobeByte s.par.strobeCode .snop false then saturate4 (s.par.fifoDepth - s.txfifo.length)
  else Config.drawNibble s.draws

/-- A status byte from its three fields, in the layout of `STATE_HI` (R31). -/
def packStatus (hi : StateHi) (code : BitVec 3) (spare : BitVec 1) (count : BitVec 4) : Byte :=
  match hi with
  | .hi7 => code ++ spare ++ count
  | .hi6 => spare ++ code ++ count

/-- The status byte the target returns with the header `h`, from its state before the header takes effect (R31). -/
def statusByte (h : Byte) (s : State) : Byte :=
  packStatus s.par.stateHi (chipCode s.chipState) (Config.drawBit s.draws) (fifoField h s)

/-- `state_of(s)` (R31). -/
def stateOf (hi : StateHi) (st : Byte) : ChipState :=
  match hi with
  | .hi7 => chipOfCode (st.extractLsb' 5 3)
  | .hi6 => chipOfCode (st.extractLsb' 4 3)

/-- `count_of(s)` (R31). -/
def countOf (st : Byte) : BitVec 4 := st.extractLsb' 0 4

/-- The level of the ready line: 0 when the target is ready, looked at only while chip select is asserted (R33). -/
def readyLineLow (s : State) : Bool := s.ready

/-- The error states (R29), the unexpected ones of `check_status` (R252). -/
def isErrorState : ChipState → Bool
  | .rxOverflow => true
  | .txUnderflow => true
  | .idle => false
  | .rx => false
  | .tx => false
  | .fstxon => false
  | .calibrate => false
  | .settling => false

/-- The transitional states (R281). -/
def isTransitional : ChipState → Bool
  | .calibrate => true
  | .settling => true
  | .idle => false
  | .rx => false
  | .tx => false
  | .fstxon => false
  | .rxOverflow => false
  | .txUnderflow => false

/-- The numeric code of an error's kind, 0 for no error (R304). -/
def kindCode : Option OpError → Nat
  | none => 0
  | some (.hardwareTimeout _) => 1
  | some (.configurationError _ _) => 2
  | some (.protocolViolation _ _) => 3

/-- The numeric code of an error's cause (R304). -/
def causeCode : OpError → Nat
  | .hardwareTimeout .ready => 0
  | .hardwareTimeout .byte => 1
  | .hardwareTimeout .wait => 2
  | .configurationError .profileId _ => 0
  | .configurationError .powerLevel _ => 1
  | .protocolViolation .state _ => 0
  | .protocolViolation .count _ => 1

end Sys2Proof.Machine
end

