-- ==== Sys2Proof/Machine/Ops.lean ====
section
/-! DEFINITION. The named operations over memory, registers and queues that everything else is written with: the outcome of
an operation (R11), the data bytes at the target (R144, R145, R147), error entry (R308) and where control goes after it
(R215, R251, R309, R310), interrupt entry (R246, R312) and the return to a suspended sequencer (R245, R313). -/

namespace Sys2Proof.Machine

/-- The outcome of an operation (R11): `Ok`, `Err`, and the two that are no outcome of the hardware, *refused* and
*stuck*. -/
inductive OpResult (α : Type) where
  | ok (a : α) (s : State)
  | err (e : OpError) (s : State)
  | refused (r : Refusal)
  | stuck (f : Fault)

/-- One action, then the next one if it returned `Ok`: the rest is skipped otherwise (R231, R308). -/
def OpResult.andThen {α β : Type} (x : OpResult α) (f : α → State → OpResult β) : OpResult β :=
  match x with
  | .ok a s => f a s
  | .err e s => .err e s
  | .refused r => .refused r
  | .stuck k => .stuck k

/-- The draw counter past `k` draws (R9). -/
def State.bumpDraws (s : State) (k : Nat) : State := { s with draws := s.draws + k }

/-- One more entry in the wire log (R49). -/
def State.logWire (s : State) (e : WireEvent) : State := { s with wireLog := s.wireLog ++ [e] }

/-- The environment's choices that are left (log 2). -/
def State.withEnv (s : State) (es : List Event) : State := { s with env := es }

/-- Chip select asserted and the target's decoder awaiting a header (R121, R34). -/
def State.openBus (s : State) : State := { s with csn := false, tdec := .awaitHeader }

/-- Chip select deasserted and the target's decoder closed (R122, R34). -/
def State.closeBus (s : State) : State := { s with csn := true, tdec := .closed }

/-- `read_byte(a)` at the target (R144): a stored byte, the head of the receive queue, or a draw where nothing has written
the address and where the queue is empty (R79, R150). -/
def readByte (a : Nat) (s : State) : Byte × State :=
  if a = fifoAddr then
    match s.rxfifo with
    | [] => (Config.drawByte s.draws, s.bumpDraws 1)
    | v :: q => (v, { s with rxfifo := q })
  else
    match s.mem.read a with
    | some v => (v, s)
    | none => (Config.drawByte s.draws, s.bumpDraws 1)

/-- `write_byte(a, b)` at the target (R145); a write to a full TX FIFO is refused (R79). -/
def writeByte (a : Nat) (b : Byte) (s : State) : Except Refusal State :=
  if a = fifoAddr then
    if s.txfifo.length < s.par.fifoDepth then .ok { s with txfifo := s.txfifo ++ [b] } else .error .txFifoFull
  else .ok { s with mem := s.mem.write a b }

/-- `status_reg(a)` at the target (R147): the length of the receive queue at `RXBYTES_ADDR` (R24), a draw elsewhere
(R23). -/
def statusReg (a : Nat) (s : State) : Byte × State :=
  if a = s.par.rxbytesAddr then (BitVec.ofNat 8 s.rxfifo.length, s)
  else (Config.drawByte s.draws, s.bumpDraws 1)

/-- Error entry: the abort actions (R308). Chip select is never left asserted. -/
def State.abort (s : State) : State :=
  if s.csn then s else (s.logWire .deselect).closeBus

/-- `raise <Error>(info)`: the operation in progress ends with `Err` after the abort actions (R9, R308). -/
def raiseError {α : Type} (e : OpError) (s : State) : OpResult α := .err e s.abort

/-- The first phase of an iteration of the role (R231). -/
def firstPhase : Role → Phase
  | .base => .flushRx
  | .remote => .sample

/-- The boot phases (R215). -/
def Phase.booting : Phase → Bool
  | .bootInit => true
  | .bootProfile => true
  | .bootPktMode => true
  | .bootTxPower => true
  | .flushRx => false
  | .armRx => false
  | .sleepWaitRx => false
  | .drainFifo => false
  | .forward => false
  | .sample => false
  | .encode => false
  | .flushTx => false
  | .transmit => false
  | .sleepWaitTx => false
  | .resync => false
  | .halt => false

/-- `ERR_POLICY(kind)` (R309). -/
def policyOf (p : ErrPolicy) : OpError → Policy
  | .hardwareTimeout _ => p.hardwareTimeout
  | .configurationError _ _ => p.configurationError
  | .protocolViolation _ _ => p.protocolViolation

/-- The phase control goes to after the error `e` in phase `ph`: HALT from a boot phase (R215), RESYNC again from RESYNC
(R310), else as the policy table says (R251, R309). -/
def errorTarget (p : Params) (ph : Phase) (e : OpError) : Phase :=
  if ph.booting then .halt
  else if ph = .resync then .resync
  else match policyOf p.errPolicy e with
    | .restart => firstPhase p.role
    | .resync => .resync
    | .halt => .halt

/-- Dispatch of an error surfaced to the control loop (R251): the error recorded, the completion signal disarmed, the
sequencer not suspended, and control where the policy says. -/
def dispatchError (e : OpError) (s : State) : State :=
  { s with err := some { error := e, phase := some s.phase }, armed := false, sleeping := false, waitOn := .none,
           phase := errorTarget s.par s.phase e }

/-- An error surfaced to a caller that is not the sequencer: it is recorded with no phase (R46, V41) and no value is
returned (R140); control goes nowhere. -/
def surfaceToCaller (e : OpError) (s : State) : State :=
  { s with err := some { error := e, phase := none }, returned := [] }

/-- The copy of the direction flag (R246). -/
def wakeOfDir : Dir → WakeDir
  | .unwritten => .none
  | .rx => .rx
  | .tx => .tx

/-- Interrupt entry: the completion handler, one atomic step (R246, R312). An event that finds the detector not armed is
discarded (R306). -/
def completionHandler (s : State) : State :=
  if s.armed then
    if s.sleeping then { s with armed := false, wakeDir := wakeOfDir s.dir, sleeping := false }
    else { s with armed := false, wakeDir := wakeOfDir s.dir, wakeSlot := true }
  else s

/-- `raise completion_event` (R289): the handler runs in the same step; before boot has completed no event is raised. -/
def completionEvent (s : State) : State := if s.phase.booting then s else completionHandler s

/-- The periodic-timer handler (R247). -/
def tickHandler (s : State) : State :=
  { s with tickSlot := true, sleeping := s.sleeping && !decide (s.waitOn = .tick) }

/-- The conversion-done handler (R248). -/
def conversionHandler (s : State) : State :=
  { s with sleeping := s.sleeping && !decide (s.waitOn = .conversion) }

/-- `arm()`: one atomic step (R244). -/
def armDetector (s : State) : State := { s with wakeSlot := false, armed := true }

/-- The sequencer suspends on `w` (R245, R319). -/
def sleepOn (w : WaitOn) (s : State) : State := { s with sleeping := true, waitOn := w }

/-- Return from a suspension: the sequencer continues at the phase `ph` (R245 `woken`, R313). The detector stays disarmed
until the next `arm()`. -/
def resumeAt (ph : Phase) (s : State) : State := { s with waitOn := .none, phase := ph }

/-- `suspend(T)` up to the moment the sequencer has no step, and its return `woken` (R245). An event that came first is
taken from the slot without a sleep. -/
def suspendCompletion (next : Phase) (s : State) : State :=
  if s.waitOn = .completion then resumeAt next s
  else if s.wakeSlot then resumeAt next { s with wakeSlot := false }
  else sleepOn .completion s

/-- The bound of `suspend(T_WAIT)` expires (R245 (b), R301): possible while the sequencer sleeps on the completion signal,
no event waits in the slot and the bound is finite. -/
def waitExpires (s : State) : State :=
  if s.sleeping && decide (s.waitOn = .completion) && !s.wakeSlot && s.par.tWait.isSome then
    dispatchError (.hardwareTimeout .wait) s
  else s

end Sys2Proof.Machine
end

