-- ==== Sys2Proof/Machine/Radio.lean ====
section
/-! DEFINITION. The radio agent and the collaborators' events, one definition per step (R281 to R285, R288, R247, R248).
Each is total: a step that is not enabled leaves the state as it is. -/

namespace Sys2Proof.Machine

/-- `settle`, first choice: to the other transitional state, at most once per strobe (R281). -/
def settleOther (s : State) : State :=
  if isTransitional s.chipState && !decide (s.goal = .none) && !s.swapUsed then
    { s with chipState := if s.chipState = .calibrate then .settling else .calibrate, swapUsed := true }
  else s

/-- `settle`, second choice: to the goal (R281). -/
def settleGoal (s : State) : State :=
  if isTransitional s.chipState then
    match s.goal with
    | .none => s
    | .toIdle => { s with chipState := .idle, goal := .none }
    | .toRx => { s with chipState := .rx, goal := .none }
    | .toTx => { s with chipState := .tx, goal := .none }
  else s

/-- `rx_done(p, ok)` and `rx_overflow` (R282, R285): enabled in RX for a packet of `PKT_LEN` bytes. -/
def rxDone (p : List Byte) (ok : Bool) (s : State) : State :=
  if s.chipState = .rx ∧ p.length = Config.pktLen then
    if ok || !s.par.crcAutoflush then
      if s.rxfifo.length + p.length > s.par.fifoDepth then { s with chipState := .rxOverflow }
      else completionEvent { s with rxfifo := s.rxfifo ++ p, chipState := .idle }
    else completionEvent { s with rxfifo := [], chipState := .idle }
  else s

/-- `tx_done` is enabled (R283). -/
def txDoneEnabled (s : State) : Bool := decide (s.chipState = .tx) && decide (Config.pktLen ≤ s.txfifo.length)

/-- `tx_done`, on this node's side (R283): the packet leaves the queue for the air. -/
def txDone (s : State) : State :=
  if txDoneEnabled s then
    completionEvent { s with txfifo := s.txfifo.drop Config.pktLen, chipState := .idle,
                             airOut := s.airOut ++ [s.txfifo.take Config.pktLen] }
  else s

/-- `tx_underflow` (R284); `raise` is the choice the source leaves open. -/
def txUnderflow (raise : Bool) (s : State) : State :=
  if s.chipState = .tx ∧ s.txfifo.length < Config.pktLen then
    if raise then completionEvent { s with chipState := .txUnderflow } else { s with chipState := .txUnderflow }
  else s

/-- `become_ready` (R288). -/
def becomeReady (s : State) : State := { s with ready := true }

/-- One step of an agent other than the sequencer (R10, R280). `go`, `expire` and `stall` are no agent's steps. -/
def agentStep (e : Event) (s : State) : State :=
  match e with
  | .settleOther => settleOther s
  | .settleGoal => settleGoal s
  | .rxDone p ok => rxDone p ok s
  | .txDone => txDone s
  | .txUnderflow raise => txUnderflow raise s
  | .becomeReady => becomeReady s
  | .tick => tickHandler s
  | .conversionDone => conversionHandler s
  | .expire => s
  | .stall => s
  | .go => s

/-- What the air does with a packet at one other node (R287). -/
inductive AirChoice where
  | deliver
  | corrupt (p : List Byte)
  | drop
deriving DecidableEq, Repr

/-- The packet `p` reaches another node (R287): nothing is queued, and a node that is not in RX receives nothing. -/
def airReceive (p : List Byte) (c : AirChoice) (n : State) : State :=
  match c with
  | .deliver => rxDone p true n
  | .corrupt p' => rxDone p' false n
  | .drop => n

/-- The air's choice for each other node, `drop` where the list of choices is too short. -/
def airReceiveAll (p : List Byte) : List AirChoice → List State → List State
  | _, [] => []
  | [], ns => ns
  | c :: cs, n :: ns => airReceive p c n :: airReceiveAll p cs ns

/-- The joint step of R287: the node `t` takes `tx_done` and, in the same step, the air chooses for every other node. -/
def airStep (t : State) (others : List State) (choices : List AirChoice) : State × List State :=
  if txDoneEnabled t then (txDone t, airReceiveAll (t.txfifo.take Config.pktLen) choices others)
  else (t, others)

end Sys2Proof.Machine
end

