-- ==== Sys2Proof/Machine/Target.lean ====
section
/-! DEFINITION. The register target: the effect of each command strobe (R173 to R181, R184) and what the target does with
one byte (R127). -/

namespace Sys2Proof.Machine

/-- SRES (R173): every chip state. The draws of `cfg` and `patable` are fresh (D25). -/
def strobeSres (s : State) : State :=
  { s with mem := Memory.drawn s.draws, rxfifo := [], txfifo := [], chipState := .idle, goal := .none, ready := false,
           swapUsed := false, draws := s.draws + (Config.cfgLen + 1) }

/-- SCAL (R174). -/
def strobeScal (s : State) : State :=
  if s.chipState = .idle then { s with chipState := .calibrate, goal := .toIdle, swapUsed := false } else s

/-- SRX (R175, R184). -/
def strobeSrx (s : State) : Except Refusal State :=
  match s.chipState with
  | .idle => .ok { s with chipState := .settling, goal := .toRx, swapUsed := false }
  | .calibrate => if s.goal = .toTx then .error .concurrentStrobe else .ok { s with goal := .toRx, swapUsed := false }
  | .settling => if s.goal = .toTx then .error .concurrentStrobe else .ok { s with goal := .toRx, swapUsed := false }
  | .rx => .ok s
  | .rxOverflow => .ok s
  | .txUnderflow => .ok s
  | .tx => .error .concurrentStrobe
  | .fstxon => .error .concurrentStrobe

/-- STX (R176, R184). -/
def strobeStx (s : State) : Except Refusal State :=
  match s.chipState with
  | .idle => .ok { s with chipState := .settling, goal := .toTx, swapUsed := false }
  | .calibrate => if s.goal = .toRx then .error .concurrentStrobe else .ok { s with goal := .toTx, swapUsed := false }
  | .settling => if s.goal = .toRx then .error .concurrentStrobe else .ok { s with goal := .toTx, swapUsed := false }
  | .tx => .ok s
  | .rxOverflow => .ok s
  | .txUnderflow => .ok s
  | .rx => .error .concurrentStrobe
  | .fstxon => .error .concurrentStrobe

/-- SIDLE (R177): no effect in IDLE and in the error states. -/
def strobeSidle (s : State) : State :=
  if s.chipState = .idle ∨ isErrorState s.chipState = true then s
  else { s with chipState := .idle, goal := .none }

/-- SFRX (R178): the receive queue is emptied in every state. -/
def strobeSfrx (s : State) : State :=
  { s with rxfifo := [], chipState := if s.chipState = .rxOverflow then .idle else s.chipState }

/-- SFTX (R179): the transmit queue is emptied in every state. -/
def strobeSftx (s : State) : State :=
  { s with txfifo := [], chipState := if s.chipState = .txUnderflow then .idle else s.chipState }

/-- SNOP (R180). -/
def strobeSnop (s : State) : State := s

/-- The effect of a strobe at the target (R127, R170); an unnamed one is refused (R181). -/
def applyStrobe (n : StrobeName) (s : State) : Except Refusal State :=
  match n with
  | .sres => .ok (strobeSres s)
  | .scal => .ok (strobeScal s)
  | .srx => strobeSrx s
  | .stx => strobeStx s
  | .sidle => .ok (strobeSidle s)
  | .sfrx => .ok (strobeSfrx s)
  | .sftx => .ok (strobeSftx s)
  | .snop => .ok (strobeSnop s)
  | .sfstxon => .error (.unnamedStrobe .sfstxon)
  | .sxoff => .error (.unnamedStrobe .sxoff)
  | .swor => .error (.unnamedStrobe .swor)
  | .spwd => .error (.unnamedStrobe .spwd)
  | .sworrst => .error (.unnamedStrobe .sworrst)

/-- The state with the decoder at `t`. -/
def State.withTdec (s : State) (t : Tdec) : State := { s with tdec := t }

/-- The decoder after a data byte at `a` (R127): a single access is complete, a burst goes on at the next address. -/
def afterData (k : TxnKind) (a n : Nat) : Tdec :=
  match k with
  | .rs => .done
  | .sr => .done
  | .ws => .done
  | .rb => .data .rb (nextAddr a) (n + 1)
  | .wb => .data .wb (nextAddr a) (n + 1)

/-- The header byte `b` (R127): the status byte is computed before any effect of `b` (R31), then the header takes effect. -/
def exchangeHeader (b : Byte) (s : State) : Except Refusal (Byte × State) :=
  let st := statusByte b s
  let s1 := s.bumpDraws 1
  match decodeHeader s.par.strobeCode b with
  | .reserved => .error .reservedHeader
  | .strobe n _ =>
    match applyStrobe n s1 with
    | .ok s2 => .ok (st, s2.withTdec .done)
    | .error r => .error r
  | .statusRead a => .ok (st, s1.withTdec (.data .sr (.at a) 0))
  | .access k a => .ok (st, s1.withTdec (.data k (.at a) 0))

/-- The data byte number `n` of an access of kind `k` at `a` (R127). In a read the byte `b` is ignored; in a write the byte
returned is a draw. -/
def exchangeData (k : TxnKind) (a n : Nat) (b : Byte) (s : State) : Except Refusal (Byte × State) :=
  match k with
  | .rs => .ok ((readByte a s).1, (readByte a s).2.withTdec (afterData .rs a n))
  | .rb => .ok ((readByte a s).1, (readByte a s).2.withTdec (afterData .rb a n))
  | .sr => .ok ((statusReg a s).1, (statusReg a s).2.withTdec (afterData .sr a n))
  | .ws =>
    match writeByte a b s with
    | .ok s1 => .ok (Config.drawByte s1.draws, (s1.bumpDraws 1).withTdec (afterData .ws a n))
    | .error r => .error r
  | .wb =>
    match writeByte a b s with
    | .ok s1 => .ok (Config.drawByte s1.draws, (s1.bumpDraws 1).withTdec (afterData .wb a n))
    | .error r => .error r

/-- `Exchange(b)` at the target: one atomic joint step (R66, R127). -/
def targetExchange (b : Byte) (s : State) : Except Refusal (Byte × State) :=
  match s.tdec with
  | .closed => .error .decoderClosed
  | .awaitHeader => exchangeHeader b s
  | .data k (.at a) n => exchangeData k a n b s
  | .data _ .pastEnd _ => .error .pastRangeEnd
  | .done => .error .afterComplete

end Sys2Proof.Machine
end

