-- ==== Sys2Proof/Machine/Transport.lean ====
section
/-! DEFINITION. The SPI transport (R120 to R126) with its bounded waits (R301). Between any two byte exchanges the other
agents may act (R66): the environment's choices are taken from the front of `env`, up to the next `go`. -/

namespace Sys2Proof.Machine

/-- How a wait ends (R301): its condition holds, its bound expires, or neither ever happens. -/
inductive WaitResult where
  | holds (s : State)
  | expired (s : State)
  | forever

/-- The ready wait of `select` (R121, R126, R301). The line is looked at first and after every agent's step; the bound, if
finite, expires when the environment says so, and at the latest when the environment has nothing more to do. -/
def readyWait : List Event → State → WaitResult
  | [], s =>
    if readyLineLow s then .holds (s.withEnv [])
    else if s.par.tReady.isSome then .expired (s.withEnv []) else .forever
  | e :: es, s =>
    if readyLineLow s then .holds (s.withEnv (e :: es))
    else if e = .expire ∧ s.par.tReady.isSome = true then .expired (s.withEnv es)
    else readyWait es (agentStep e s)

/-- The per-byte wait of `exchange` (R123, R301), with the steps the other agents take before the byte. -/
def byteWait : List Event → State → WaitResult
  | [], s => .holds (s.withEnv [])
  | e :: es, s =>
    if e = .go then .holds (s.withEnv es)
    else if e = .expire ∧ s.par.tByte.isSome = true then .expired (s.withEnv es)
    else if e = .stall then (if s.par.tByte.isSome then .expired (s.withEnv es) else .forever)
    else byteWait es (agentStep e s)

/-- The steps the other agents take after the last byte of a transaction, before the sequencer's next action. -/
def agentsAct : List Event → State → State
  | [], s => s.withEnv []
  | e :: es, s => if e = .go then s.withEnv es else agentsAct es (agentStep e s)

/-- `init()` (R120). -/
def spiInit (s : State) : OpResult Unit :=
  if s.spiInited && !s.csn then .refused .alreadySelected
  else .ok () { s with spiInited := true, csn := true }

/-- `select()` (R121). -/
def select (s : State) : OpResult Unit :=
  if s.spiInited then
    if s.csn then
      match readyWait s.env (s.openBus.logWire .select) with
      | .holds t => .ok () t
      | .expired t => raiseError (.hardwareTimeout .ready) t
      | .forever => .stuck .stuckReadyWait
    else .refused .alreadySelected
  else .refused .notInitialised

/-- `deselect()` (R122). -/
def deselect (s : State) : OpResult Unit :=
  if s.spiInited then
    if s.csn then .refused .notSelected else .ok () (s.closeBus.logWire .deselect)
  else .refused .notInitialised

/-- The loop of `exchange` (R123): wait, one `Exchange`, one entry in the log, for each byte in order. -/
def exchangeBytes : List Byte → State → OpResult (List Byte)
  | [], s => .ok [] s
  | b :: bs, s =>
    match byteWait s.env s with
    | .forever => .stuck .stuckByteWait
    | .expired t => raiseError (.hardwareTimeout .byte) t
    | .holds t =>
      match targetExchange b t with
      | .error r => .refused r
      | .ok (v, u) => (exchangeBytes bs (u.logWire (.byte b v))).andThen fun vs w => .ok (v :: vs) w

/-- `exchange(tx)` (R123). -/
def exchange (tx : List Byte) (s : State) : OpResult (List Byte) :=
  if s.spiInited then
    if s.csn then .refused .notSelected
    else if tx.isEmpty then .refused .emptyExchange
    else exchangeBytes tx s
  else .refused .notInitialised

/-- One transaction: exactly one `select`, one `exchange`, one `deselect` (R125). -/
def transact (tx : List Byte) (s : State) : OpResult (List Byte) :=
  (select s).andThen fun _ s1 =>
    (exchange tx s1).andThen fun rx s2 =>
      (deselect (agentsAct s2.env s2)).andThen fun _ s3 => .ok rx s3

end Sys2Proof.Machine
end

