-- ==== Sys2Proof/Machine/Bridge.lean ====
section
/-! DEFINITION. The register interface: the admission check of the bridge (R152), the four register accesses (R140 to R143),
the status-register read (R147), the strobe (R170) and the two status framings (R171, R172), and how an operation's outcome
becomes the outcome of an instruction. -/

namespace Sys2Proof.Machine

/-- What an operation returns (R102): the status byte of its header, and the data bytes of a read. -/
structure Reply where
  status : Byte
  values : List Byte
deriving DecidableEq, Repr

/-- Arguments `read_single` and `write_single` admit (R152). -/
def admitsSingle (addr : Nat) : Bool := isCfg addr || addr == patableAddr || addr == fifoAddr

/-- Arguments `burst_read` admits (R65, R152). -/
def admitsBurstRead (p : Params) (addr n : Nat) : Bool :=
  decide (1 ≤ n) &&
    ((isCfg addr && decide (addr + n - 1 ≤ 0x2E)) || (addr == fifoAddr && decide (n ≤ p.fifoDepth)) ||
      (isStatus addr && n == 1))

/-- Arguments `burst_write` admits with the present TX FIFO (R65, R152). -/
def admitsBurstWrite (s : State) (addr n : Nat) : Bool :=
  decide (1 ≤ n) &&
    ((isCfg addr && decide (addr + n - 1 ≤ 0x2E)) ||
      (addr == fifoAddr && decide (s.txfifo.length + n ≤ s.par.fifoDepth)))

/-- The eight named strobes, the ones `strobe` admits (R152, R170). -/
def admitsStrobe : StrobeName → Bool
  | .sres => true
  | .scal => true
  | .srx => true
  | .stx => true
  | .sidle => true
  | .sfrx => true
  | .sftx => true
  | .snop => true
  | .sfstxon => false
  | .sxoff => false
  | .swor => false
  | .spwd => false
  | .sworrst => false

/-- The common body of the operations: the transaction, then `last_status` (R125, R140 to R143, R170). `keep` says whether
the data bytes are returned or discarded. -/
def operation (keep : Bool) (tx : List Byte) (s : State) : OpResult Reply :=
  (transact tx s).andThen fun rx t =>
    match rx with
    | [] => .refused .emptyExchange
    | st :: vs =>
      .ok { status := st, values := if keep then vs else [] } { t with lastStatus := Datum.of st }

/-- `read_single(addr)` (R140). -/
def readSingle (addr : Nat) (s : State) : OpResult Reply :=
  if admitsSingle addr then operation true [header addr kReadSingle, s.par.dummy] s else .refused .notAdmitted

/-- `burst_read(addr, count)` (R141). -/
def burstRead (addr n : Nat) (s : State) : OpResult Reply :=
  if admitsBurstRead s.par addr n then
    operation true (header addr kBurstRead :: List.replicate n s.par.dummy) s
  else .refused .notAdmitted

/-- `write_single(addr, value)` (R142). -/
def writeSingle (addr : Nat) (v : Byte) (s : State) : OpResult Reply :=
  if admitsSingle addr then operation false [header addr kWriteSingle, v] s else .refused .notAdmitted

/-- `burst_write(addr, values)` (R143). -/
def burstWrite (addr : Nat) (vs : List Byte) (s : State) : OpResult Reply :=
  if admitsBurstWrite s addr vs.length then operation false (header addr kBurstWrite :: vs) s
  else .refused .notAdmitted

/-- `read_status_reg(addr)` (R147): a burst read of one byte at a status-register address. -/
def readStatusReg (addr : Nat) (s : State) : OpResult Reply :=
  if isStatus addr then burstRead addr 1 s else .refused .notAdmitted

/-- A strobe's transaction with bit 7 of its header as given: the bridge sends it set (R170), or clear for the
write-status framing (R172); it acts the same (R96). DESIGN CHOICE (log 31): R97 says that of the strobe headers with bit 7
clear the bridge only ever sends the SNOP code, and no operation makes another; the model puts one that a caller has placed
on the wire and applies its strobe. -/
def strobeFramed (n : StrobeName) (r : Bool) (s : State) : OpResult Reply :=
  if admitsStrobe n then operation true [strobeByte s.par.strobeCode n r] s else .refused (.unnamedStrobe n)

/-- `strobe(cmd)` (R170). -/
def strobe (n : StrobeName) (s : State) : OpResult Reply := strobeFramed n true s

/-- `read_status()` (R171): `strobe(SNOP)`. -/
def readStatusOp (s : State) : OpResult Reply := strobe .snop s

/-- `write_status()` (R172): the SNOP code sent with bit 7 clear. -/
def writeStatusOp (s : State) : OpResult Reply := strobeFramed .snop false s

/-- The outcome of an instruction a caller has issued, from the outcome of its operation: the returned bytes, or the error
taken (R11, R308). -/
def finish (x : OpResult Reply) : Host.Outcome State Fault Refusal :=
  match x with
  | .ok r s => .next { s with returned := r.values }
  | .err e s => .next (surfaceToCaller e s)
  | .refused r => .refused r
  | .stuck f => .fault f

end Sys2Proof.Machine
end

