-- ==== Sys2Proof/Machine/Reads.lean ====
section
/-! DEFINITION. The meanings of the register reads (R140, R141, R144, R147). -/

namespace Sys2Proof.Machine

/-- READ_SINGLE_CFG (R140): returns `cfg[a]`. -/
def execReadSingleCfg (a : Addr) (s : State) : Host.Outcome State Fault Refusal :=
  if isCfg a.toNat then finish (readSingle a.toNat s) else .refused .notAdmitted

/-- READ_SINGLE_PATABLE (R140, R25): returns `patable`. -/
def execReadSinglePatable (s : State) : Host.Outcome State Fault Refusal :=
  finish (readSingle patableAddr s)

/-- READ_SINGLE_FIFO (R140, R26): removes and returns the head of the RX FIFO. -/
def execReadSingleFifo (s : State) : Host.Outcome State Fault Refusal :=
  finish (readSingle fifoAddr s)

/-- BURST_READ_CFG (R141): returns `cfg[a + i]` for `i < n`. -/
def execBurstReadCfg (a : Addr) (n : Nat) (s : State) : Host.Outcome State Fault Refusal :=
  if isCfg a.toNat then finish (burstRead a.toNat n s) else .refused .notAdmitted

/-- BURST_READ_FIFO (R141): removes and returns `n` bytes of the RX FIFO. -/
def execBurstReadFifo (n : Nat) (s : State) : Host.Outcome State Fault Refusal :=
  finish (burstRead fifoAddr n s)

/-- STATUS_READ (R147): returns the status register `a`. -/
def execStatusRead (a : Addr) (s : State) : Host.Outcome State Fault Refusal :=
  finish (readStatusReg a.toNat s)

end Sys2Proof.Machine
end

