-- ==== Sys2Proof/Machine/Refused.lean ====
section
/-! DEFINITION. The rows the spec gives no meaning: the five strobes the document counts and does not name (R181) and the
reserved headers (R97). Each is refused by the bridge before any byte is sent (R152), whatever the state. -/

namespace Sys2Proof.Machine

/-- SFSTXON (R181). -/
def execSfstxon (r : Bool) (s : State) : Host.Outcome State Fault Refusal := finish (strobeFramed .sfstxon r s)

/-- SXOFF (R181). -/
def execSxoff (r : Bool) (s : State) : Host.Outcome State Fault Refusal := finish (strobeFramed .sxoff r s)

/-- SWOR (R181). -/
def execSwor (r : Bool) (s : State) : Host.Outcome State Fault Refusal := finish (strobeFramed .swor r s)

/-- SPWD (R181). -/
def execSpwd (r : Bool) (s : State) : Host.Outcome State Fault Refusal := finish (strobeFramed .spwd r s)

/-- SWORRST (R181). -/
def execSworrst (r : Bool) (s : State) : Host.Outcome State Fault Refusal := finish (strobeFramed .sworrst r s)

/-- RESERVED_2F (R97). -/
def execReserved2F (_r _b : Bool) (_s : State) : Host.Outcome State Fault Refusal := .refused .reservedHeader

/-- RESERVED_STROBE_37 (R97). -/
def execReservedStrobe37 (_r : Bool) (_s : State) : Host.Outcome State Fault Refusal := .refused .reservedHeader

/-- RESERVED_BURST_WRITE_STATUS (R97). -/
def execReservedBurstWriteStatus (_a : Addr) (_s : State) : Host.Outcome State Fault Refusal := .refused .reservedHeader

/-- RESERVED_BURST_PATABLE (R97). -/
def execReservedBurstPatable (_r : Bool) (_s : State) : Host.Outcome State Fault Refusal := .refused .reservedHeader

end Sys2Proof.Machine
end

