-- ==== Sys2Proof/Machine/Strobes.lean ====
section
/-! DEFINITION. The meanings of the eight named strobes and of the two status framings (R170 to R180). Their effects at the
target are in `Machine/Target.lean`. With bit 7 clear the first seven are a caller's placed bytes (DESIGN CHOICE, log 31). -/

namespace Sys2Proof.Machine

/-- SRES (R173): reset of the target. -/
def execSres (r : Bool) (s : State) : Host.Outcome State Fault Refusal := finish (strobeFramed .sres r s)

/-- SCAL (R174): calibrate. -/
def execScal (r : Bool) (s : State) : Host.Outcome State Fault Refusal := finish (strobeFramed .scal r s)

/-- SRX (R175): enter RX. -/
def execSrx (r : Bool) (s : State) : Host.Outcome State Fault Refusal := finish (strobeFramed .srx r s)

/-- STX (R176): enter TX. -/
def execStx (r : Bool) (s : State) : Host.Outcome State Fault Refusal := finish (strobeFramed .stx r s)

/-- SIDLE (R177): enter idle. -/
def execSidle (r : Bool) (s : State) : Host.Outcome State Fault Refusal := finish (strobeFramed .sidle r s)

/-- SFRX (R178): flush the RX FIFO. -/
def execSfrx (r : Bool) (s : State) : Host.Outcome State Fault Refusal := finish (strobeFramed .sfrx r s)

/-- SFTX (R179): flush the TX FIFO. -/
def execSftx (r : Bool) (s : State) : Host.Outcome State Fault Refusal := finish (strobeFramed .sftx r s)

/-- SNOP (R180): no operation; it obtains the status byte. -/
def execSnop (r : Bool) (s : State) : Host.Outcome State Fault Refusal := finish (strobeFramed .snop r s)

/-- READ_STATUS (R171). -/
def execReadStatus (s : State) : Host.Outcome State Fault Refusal := finish (readStatusOp s)

/-- WRITE_STATUS (R172). -/
def execWriteStatus (s : State) : Host.Outcome State Fault Refusal := finish (writeStatusOp s)

end Sys2Proof.Machine
end

