-- ==== Sys2Proof/Machine/Writes.lean ====
section
/-! DEFINITION. The meanings of the register writes (R142, R143, R145). -/

namespace Sys2Proof.Machine

/-- WRITE_SINGLE_CFG (R142): `cfg[a] <- v`. -/
def execWriteSingleCfg (a : Addr) (v : Byte) (s : State) : Host.Outcome State Fault Refusal :=
  if isCfg a.toNat then finish (writeSingle a.toNat v s) else .refused .notAdmitted

/-- WRITE_SINGLE_PATABLE (R142, R25): `patable <- v`. -/
def execWriteSinglePatable (v : Byte) (s : State) : Host.Outcome State Fault Refusal :=
  finish (writeSingle patableAddr v s)

/-- WRITE_SINGLE_FIFO (R142, R27): `v` is appended to the TX FIFO. -/
def execWriteSingleFifo (v : Byte) (s : State) : Host.Outcome State Fault Refusal :=
  finish (writeSingle fifoAddr v s)

/-- BURST_WRITE_CFG (R143): `cfg[a + i] <- vs[i]`. -/
def execBurstWriteCfg (a : Addr) (vs : List Byte) (s : State) : Host.Outcome State Fault Refusal :=
  if isCfg a.toNat then finish (burstWrite a.toNat vs s) else .refused .notAdmitted

/-- BURST_WRITE_FIFO (R143): `vs` is appended to the TX FIFO, in order. -/
def execBurstWriteFifo (vs : List Byte) (s : State) : Host.Outcome State Fault Refusal :=
  finish (burstWrite fifoAddr vs s)

end Sys2Proof.Machine
end

