-- ==== Sys2Proof/Machine/Dispatch.lean ====
section
/-! DEFINITION. One arm per instruction, each one direct call of its meaning. -/

namespace Sys2Proof.Machine

def exec (i : Instr) (s : State) : Host.Outcome State Fault Refusal :=
  match i with
  | .writeSingleCfg a v => Sys2Proof.Machine.execWriteSingleCfg a v s
  | .writeSinglePatable v => Sys2Proof.Machine.execWriteSinglePatable v s
  | .writeSingleFifo v => Sys2Proof.Machine.execWriteSingleFifo v s
  | .burstWriteCfg a vs => Sys2Proof.Machine.execBurstWriteCfg a vs s
  | .burstWriteFifo vs => Sys2Proof.Machine.execBurstWriteFifo vs s
  | .readSingleCfg a => Sys2Proof.Machine.execReadSingleCfg a s
  | .readSinglePatable => Sys2Proof.Machine.execReadSinglePatable s
  | .readSingleFifo => Sys2Proof.Machine.execReadSingleFifo s
  | .burstReadCfg a n => Sys2Proof.Machine.execBurstReadCfg a n s
  | .burstReadFifo n => Sys2Proof.Machine.execBurstReadFifo n s
  | .statusRead a => Sys2Proof.Machine.execStatusRead a s
  | .sres r => Sys2Proof.Machine.execSres r s
  | .scal r => Sys2Proof.Machine.execScal r s
  | .srx r => Sys2Proof.Machine.execSrx r s
  | .stx r => Sys2Proof.Machine.execStx r s
  | .sidle r => Sys2Proof.Machine.execSidle r s
  | .sfrx r => Sys2Proof.Machine.execSfrx r s
  | .sftx r => Sys2Proof.Machine.execSftx r s
  | .snop r => Sys2Proof.Machine.execSnop r s
  | .readStatus => Sys2Proof.Machine.execReadStatus s
  | .writeStatus => Sys2Proof.Machine.execWriteStatus s
  | .sfstxon r => Sys2Proof.Machine.execSfstxon r s
  | .sxoff r => Sys2Proof.Machine.execSxoff r s
  | .swor r => Sys2Proof.Machine.execSwor r s
  | .spwd r => Sys2Proof.Machine.execSpwd r s
  | .sworrst r => Sys2Proof.Machine.execSworrst r s
  | .reserved2F r b => Sys2Proof.Machine.execReserved2F r b s
  | .reservedStrobe37 r => Sys2Proof.Machine.execReservedStrobe37 r s
  | .reservedBurstWriteStatus a => Sys2Proof.Machine.execReservedBurstWriteStatus a s
  | .reservedBurstPatable r => Sys2Proof.Machine.execReservedBurstPatable r s

end Sys2Proof.Machine
end

