-- ==== Sys2Proof/Machine/Loader.lean ====
section
/-! DEFINITION. The profile loader (R210 to R214). -/

namespace Sys2Proof.Machine

/-- `load_profile(id)` (R210): the id is validated before any transaction (R211); the readiness wait is the ready wait of the
burst write's `select` (R214). -/
def loadProfile (id : Int) (s : State) : OpResult Unit :=
  match profileOf s.par id with
  | none => raiseError (.configurationError .profileId id) s
  | some table =>
    (strobe .sres s).andThen fun _ s1 => (burstWrite 0x00 table s1).andThen fun _ s2 => .ok () s2

/-- `set_tx_power(level)` (R212). -/
def setTxPower (level : Nat) (s : State) : OpResult Unit :=
  match paByte s.par level with
  | none => raiseError (.configurationError .powerLevel (Int.ofNat level)) s
  | some b => (writeSingle patableAddr b s).andThen fun _ s1 => .ok () s1

/-- The single-register writes of a list, in order (R213). -/
def writeSingles : List (Nat × Byte) → State → OpResult Unit
  | [], s => .ok () s
  | (a, v) :: ws, s => (writeSingle a v s).andThen fun _ s1 => writeSingles ws s1

/-- `setup_packet_mode()` (R213). -/
def setupPacketMode (s : State) : OpResult Unit := writeSingles s.par.pktModeWrites s

end Sys2Proof.Machine
end

