-- ==== Sys2Proof/Machine/Phases.lean ====
section
/-! DEFINITION. The sequencer: one definition per phase (R215, R232 to R242, R310, R311). Within a phase the actions are
performed in the order written, and an action that ends in an error ends the phase (R231). -/

namespace Sys2Proof.Machine

/-- Control transfer: `phase <- P` (R9, R42). -/
def goto (ph : Phase) (s : State) : OpResult Unit := .ok () { s with phase := ph }

/-- `check_status(s)` (R252). -/
def checkStatus (st : Byte) (s : State) : OpResult Unit :=
  if isErrorState (stateOf s.par.stateHi st) then raiseError (.protocolViolation .state st) s else .ok () s

/-- A register-interface operation of a loop phase, followed by the check of its status byte (R252). -/
def checked (x : OpResult Reply) : OpResult (List Byte) :=
  x.andThen fun r s => (checkStatus r.status s).andThen fun _ s1 => .ok r.values s1

/-- BOOT_INIT (R215). -/
def phaseBootInit (s : State) : OpResult Unit := (spiInit s).andThen fun _ => goto .bootProfile

/-- BOOT_PROFILE (R215). -/
def phaseBootProfile (s : State) : OpResult Unit :=
  (loadProfile s.par.profileId s).andThen fun _ => goto .bootPktMode

/-- BOOT_PKT_MODE (R215). -/
def phaseBootPktMode (s : State) : OpResult Unit := (setupPacketMode s).andThen fun _ => goto .bootTxPower

/-- BOOT_TX_POWER (R215); the role is read here, once (R230). -/
def phaseBootTxPower (s : State) : OpResult Unit :=
  (setTxPower s.par.txPowerLevel s).andThen fun _ => goto (firstPhase s.par.role)

/-- FLUSH_RX (R232). -/
def phaseFlushRx (s : State) : OpResult Unit := (checked (strobe .sfrx s)).andThen fun _ => goto .armRx

/-- ARM_RX (R233): flag, arm, strobe, in that order (R249). -/
def phaseArmRx (s : State) : OpResult Unit :=
  (checked (strobe .srx (armDetector { s with dir := .rx }))).andThen fun _ => goto .sleepWaitRx

/-- SLEEP_WAIT_RX (R234). -/
def phaseSleepWaitRx (s : State) : OpResult Unit := .ok () (suspendCompletion .drainFifo s)

/-- The second half of DRAIN_FIFO (R235), with the count `c` read: too many, none, or two bytes to fetch. -/
def drainCount (c : Byte) (s : State) : OpResult Unit :=
  if c.toNat > s.par.maxPktLen then raiseError (.protocolViolation .count c) s
  else if c = 0 then goto .flushRx s
  else (checked (burstRead fifoAddr 2 s)).andThen fun vs s1 =>
    match vs with
    | [b0, b1] => goto .forward { s1 with payload := Datum.of (b0, b1) }
    | _ => .refused .emptyExchange

/-- DRAIN_FIFO (R235). The status check of the count read comes before the count check (R307 (b)). -/
def phaseDrainFifo (s : State) : OpResult Unit :=
  (checked (burstRead s.par.rxbytesAddr 1 s)).andThen fun vs s1 =>
    match vs with
    | [c] => drainCount c { s1 with rxcount := Datum.of c }
    | _ => .refused .emptyExchange

/-- FORWARD (R236). R52: the sequencer's read of an unwritten value is refused. -/
def phaseForward (s : State) : OpResult Unit :=
  if s.payload.written then
    goto .flushRx { s with hostOut := s.hostOut ++ [s.payload.value.1, s.payload.value.2] }
  else .refused .unwrittenRead

/-- SAMPLE (R238): the wait for the tick, the wait for the conversion, then the Sampler's answer. `waitOn` says which wait
the sequencer has been suspended on. -/
def phaseSample (s : State) : OpResult Unit :=
  if s.waitOn = .conversion then
    goto .encode { s.bumpDraws 1 with reading := Datum.of (Config.drawReading s.draws), waitOn := .none }
  else if s.tickSlot then .ok () (sleepOn .conversion { s with tickSlot := false })
  else .ok () (sleepOn .tick s)

/-- ENCODE (R239). R52: the sequencer's read of an unwritten value is refused. -/
def phaseEncode (s : State) : OpResult Unit :=
  if s.reading.written then goto .flushTx { s with payload := Datum.of (encodePayload s.reading.value) }
  else .refused .unwrittenRead

/-- FLUSH_TX (R240). -/
def phaseFlushTx (s : State) : OpResult Unit := (checked (strobe .sftx s)).andThen fun _ => goto .transmit

/-- TRANSMIT (R241): the payload written, then flag, arm, strobe, in that order (R249). R52: the sequencer's read of an
unwritten value is refused. -/
def phaseTransmit (s : State) : OpResult Unit :=
  if s.payload.written then
    (checked (burstWrite fifoAddr [s.payload.value.1, s.payload.value.2] s)).andThen fun _ s1 =>
      (checked (strobe .stx (armDetector { s1 with dir := .tx }))).andThen fun _ => goto .sleepWaitTx
  else .refused .unwrittenRead

/-- SLEEP_WAIT_TX (R242). -/
def phaseSleepWaitTx (s : State) : OpResult Unit := .ok () (suspendCompletion .sample s)

/-- RESYNC (R310). Status bytes are not checked. -/
def phaseResync (s : State) : OpResult Unit :=
  (strobe .sidle s).andThen fun _ s1 =>
    (strobe .sfrx s1).andThen fun _ s2 =>
      (strobe .sftx s2).andThen fun _ => goto (firstPhase s.par.role)

/-- HALT (R311): the sequencer has no step. -/
def phaseHalt (s : State) : OpResult Unit := .ok () s

/-- The phase the sequencer is in. -/
def runPhase (s : State) : OpResult Unit :=
  match s.phase with
  | .bootInit => phaseBootInit s
  | .bootProfile => phaseBootProfile s
  | .bootPktMode => phaseBootPktMode s
  | .bootTxPower => phaseBootTxPower s
  | .flushRx => phaseFlushRx s
  | .armRx => phaseArmRx s
  | .sleepWaitRx => phaseSleepWaitRx s
  | .drainFifo => phaseDrainFifo s
  | .forward => phaseForward s
  | .sample => phaseSample s
  | .encode => phaseEncode s
  | .flushTx => phaseFlushTx s
  | .transmit => phaseTransmit s
  | .sleepWaitTx => phaseSleepWaitTx s
  | .resync => phaseResync s
  | .halt => phaseHalt s

/-- One turn of the sequencer in its phase: an error that ends the phase is dispatched (R251). -/
def phaseStep (s : State) : Host.Outcome State Fault Refusal :=
  match runPhase s with
  | .ok _ t => .next t
  | .err e t => .next (dispatchError e t)
  | .refused r => .refused r
  | .stuck f => .fault f

/-- What one step of the node is (R10, R72): a step of another agent or of the environment, a transaction that a caller has
placed, or the sequencer's turn in its phase. -/
inductive Turn where
  | other (t : State)
  | fetch (bytes : List Byte) (t : State)
  | phase (t : State)

/-- The sequencer's turn: suspended or halted it has no step (R41, R311); a placed transaction is fetched before the phase
goes on (log 11). -/
def sequencerTurn (s : State) : Turn :=
  if s.sleeping || decide (s.phase = .halt) then .other s
  else if s.request.isEmpty then .phase s
  else .fetch s.request { s with request := [] }

/-- Whose turn it is, from the front of the environment's choices (log 2). -/
def nextTurn (s : State) : Turn :=
  match s.env with
  | [] => sequencerTurn s
  | e :: es =>
    if e = .go then sequencerTurn (s.withEnv es)
    else if e = .expire then .other (waitExpires (s.withEnv es))
    else .other (agentStep e (s.withEnv es))

end Sys2Proof.Machine
end

