-- ==== Sys2Proof/Machine/Step.lean ====
section
/-! DEFINITION. One step of the node: whose turn it is, and what that turn does. -/

namespace Sys2Proof.Machine

/-- One step. A transaction that a caller has placed is decoded and executed; bytes that are no transaction are refused. -/
def step (s : State) : Host.Outcome State Fault Refusal :=
  match nextTurn s with
  | .other t => .next t
  | .phase t => phaseStep t
  | .fetch bytes t =>
    match decode t.par.strobeCode bytes with
    | .ok i => exec i t
    | .error e => .refused (.badTransaction e)

/-- `s` with the transaction of the opcode-table bits `w` placed where `step` fetches a transaction, the next turn the
sequencer's, and what R353 asks before any register-interface operation: the transport initialised, chip select deasserted,
the sequencer neither suspended nor halted, and a target that becomes ready. -/
def State.withFetchWord (s : State) (nbits w : Nat) : State :=
  { s with request := tableBytes nbits w, spiInited := true, csn := true, tdec := .closed, sleeping := false,
           waitOn := .none, phase := if s.phase = .halt then .bootInit else s.phase,
           env := .go :: (if s.ready then s.env else .becomeReady :: s.env) }

end Sys2Proof.Machine
end

