-- ==== Sys2Proof/Safety.lean ====
section
/-! DEFINITION. What counts as a safe run, and the premises claims use: the bus between two operations (R125, R353), the
premise *boot completed* (R354), the invariants of the state (R36, R37, R53, R311), the sequencer's activity (R315) and
weak fairness (R291). -/

namespace Sys2Proof.Machine

/-- The bridge stands between two operations: initialised, chip select deasserted, the target's decoder closed (R125,
R353). -/
def State.busIdle (s : State) : Bool := s.spiInited && s.csn && decide (s.tdec = .closed)

/-- The bus is idle and the target is ready. -/
def State.busReady (s : State) : Bool := s.busIdle && s.ready

/-- No wait of the list of choices ends in a timeout or in a stall (R301). -/
def calm (es : List Event) : Bool := es.all (fun e => !decide (e = .expire) && !decide (e = .stall))

/-- The arguments of a well-formed instruction are admitted by the bridge in the present state (R152), and the instruction
is one the spec gives a meaning (R97, R181). -/
def bridgeAdmits (s : State) : Instr → Bool
  | .writeSingleCfg a _ => cfgAddr a
  | .writeSinglePatable _ => true
  | .writeSingleFifo _ => true
  | .burstWriteCfg a vs => cfgBurst a vs.length
  | .burstWriteFifo vs => decide (1 ≤ vs.length) && decide (s.txfifo.length + vs.length ≤ s.par.fifoDepth)
  | .readSingleCfg a => cfgAddr a
  | .readSinglePatable => true
  | .readSingleFifo => true
  | .burstReadCfg a n => cfgBurst a n
  | .burstReadFifo n => decide (1 ≤ n) && decide (n ≤ s.par.fifoDepth)
  | .statusRead a => statusAddr a
  | .sres _ => true
  | .scal _ => true
  | .srx _ => true
  | .stx _ => true
  | .sidle _ => true
  | .sfrx _ => true
  | .sftx _ => true
  | .snop _ => true
  | .readStatus => true
  | .writeStatus => true
  | .sfstxon _ => false
  | .sxoff _ => false
  | .swor _ => false
  | .spwd _ => false
  | .sworrst _ => false
  | .reserved2F _ _ => false
  | .reservedStrobe37 _ => false
  | .reservedBurstWriteStatus _ => false
  | .reservedBurstPatable _ => false

/-- The state after a transaction that returned `Ok` (R125, R140, R170): one `select`, the bytes exchanged, one `deselect` in
the log, `last_status`, and the values returned to the caller. Everything else is as in `s`. -/
def State.afterOk (s : State) (status : Byte) (bytes : List WireEvent) (values : List Byte) : State :=
  { s with wireLog := s.wireLog ++ (.select :: bytes ++ [.deselect]), lastStatus := Datum.of status, returned := values }

/-- The state after a transaction of the sequencer that returned `Ok` (R125, R140, R170): as `afterOk`, with nothing returned
to a caller. -/
def State.afterTxn (s : State) (status : Byte) (bytes : List WireEvent) : State :=
  { s with wireLog := s.wireLog ++ (.select :: bytes ++ [.deselect]), lastStatus := Datum.of status }

/-- It is the sequencer's turn in phase `ph` (R231): the bus ready, the sequencer not suspended, no caller's transaction
placed, and no other agent acting. -/
def State.quietAt (s : State) (ph : Phase) : Prop :=
  s.phase = ph ∧ s.busReady = true ∧ s.sleeping = false ∧ s.request = [] ∧ s.env = []

/-- The state after an operation of a caller that ended in the error `e` with the wire events `events` (R46, R308, V41). -/
def State.afterErr (s : State) (e : OpError) (events : List WireEvent) : State :=
  { s with wireLog := s.wireLog ++ events, err := some { error := e, phase := none }, returned := [] }

/-- How many of the `i` addresses from `a` on nothing has written. -/
def unwrittenBefore (m : Memory) (a i : Nat) : Nat := ((List.range i).filter (fun j => (m.read (a + j)).isNone)).length

/-- What a burst read of `n` registers from `a` on returns (R144): each register's byte, and for each one that nothing has
written a draw of its own, the draws numbered from `d` on (R9, R150). -/
def burstReadBytes (m : Memory) (a n d : Nat) : List Byte :=
  (List.range n).map (fun i => (m.read (a + i)).getD (Config.drawByte (d + unwrittenBefore m a i)))

/-- No error has occurred so far (R46): `err` is never cleared, so a good run is one whose states all satisfy this. -/
def State.good (s : State) : Bool := s.err.isNone

/-- The sequencer's activity (R315). -/
inductive Activity where
  | running | suspended | halted
deriving DecidableEq, Repr

/-- R315. -/
def State.activity (s : State) : Activity :=
  if s.phase = .halt then .halted else if s.sleeping then .suspended else .running

/-- A phase of one of the two loops (R231). -/
def Phase.inLoop (ph : Phase) : Bool :=
  !ph.booting && !decide (ph = .resync) && !decide (ph = .halt)

/-- The configuration after boot (R354): the profile's bytes overridden by the packet-mode writes, and the power byte. -/
def bootMemory (p : Params) (table : List Byte) (power : Byte) (m : Memory) : Memory :=
  (p.pktModeWrites.foldl (fun m w => m.write w.1 w.2) (m.writeList 0x00 table)).write patableAddr power

/-- The premise *boot completed* (R354). -/
def State.bootCompleted (s : State) : Prop :=
  s.phase.inLoop = true ∧ s.err = none ∧ s.ready = true ∧ s.chipState = .idle ∧ s.rxfifo = [] ∧ s.txfifo = [] ∧
  s.armed = false ∧ s.wakeSlot = false ∧ s.sleeping = false ∧ s.csn = true ∧
  ∃ table power, profileOf s.par s.par.profileId = some table ∧ paByte s.par s.par.txPowerLevel = some power ∧
    ∀ a, Memory.backed a = true → s.mem.read a = (bootMemory s.par table power []).read a

/-- The phases in which the sequencer may be suspended (R53 (f)). -/
def Phase.maySleep (ph : Phase) : Bool :=
  decide (ph = .sleepWaitRx) || decide (ph = .sleepWaitTx) || decide (ph = .sample)

/-- The phases that read the payload (R236, R241) or run between its writing and its reading. -/
def Phase.needsPayload (ph : Phase) : Bool :=
  decide (ph = .flushTx) || decide (ph = .transmit) || decide (ph = .forward)

/-- The invariants of a node between two steps: memory in canonical form, chip select deasserted with the decoder closed
(R36, R125), both queues within `FIFO_DEPTH` (R53 (e)), suspension only in the three waiting phases (R53 (f)), HALT disarmed,
awake and with an error recorded (R311), a goal only in a transitional state (R30), the detector armed only with a written
direction flag (R37), and every data register written before the phase that reads it (R43, R44, R52). -/
structure State.Inv (s : State) : Prop where
  memory : s.mem.wf = true
  bus : s.csn = true ∧ s.tdec = .closed
  rxDepth : s.rxfifo.length ≤ s.par.fifoDepth
  txDepth : s.txfifo.length ≤ s.par.fifoDepth
  sleep : s.sleeping = true → s.phase.maySleep = true
  halted : s.phase = .halt → s.armed = false ∧ s.sleeping = false ∧ s.err.isSome = true
  goalOnlyInTransit : s.goal ≠ .none → isTransitional s.chipState = true
  armedDir : s.armed = true → s.dir ≠ .unwritten
  readingWritten : s.phase = .encode → s.reading.written = true
  payloadWritten : s.phase.needsPayload = true → s.payload.written = true
  params : s.par.wf = true

/-- `s` with the choices `es` added after the ones the environment has made already. -/
def State.supplied (s : State) (es : List Event) : State := s.withEnv (s.env ++ es)

/-- An infinite run of the node (R253): before step `n` the environment adds `supply n` to its choices, so that no run ends
for want of a choice, and none is forced into the expiry that stands for the end of the choices (R291, log 2). -/
def IsRun (supply : Nat → List Event) (run : Nat → State) : Prop :=
  ∀ n, step ((run n).supplied (supply n)) = .next (run (n + 1))

/-- The environment's choices that step `n` of a run has used: a step takes its choices from the front. -/
def choicesUsed (supply : Nat → List Event) (run : Nat → State) (n : Nat) : List Event :=
  let es := (run n).env ++ supply n
  es.take (es.length - (run (n + 1)).env.length)

/-- Weak fairness of the agent's step `act` (R291): at no point of the run is it enabled from then on for ever without being
taken again. -/
def WeaklyFair (enabled : State → Bool) (act : Event) (supply : Nat → List Event) (run : Nat → State) : Prop :=
  ∀ n, ∃ m, n ≤ m ∧ (enabled (run m) = false ∨ act ∈ choicesUsed supply run m)

/-- `settle` is enabled (R281). -/
def settleEnabled (s : State) : Bool := isTransitional s.chipState && !decide (s.goal = .none)

/-- `become_ready` is enabled (R288). -/
def becomeReadyEnabled (s : State) : Bool := !s.ready

/-- The fairness assumptions on the radio agent (R291); "under fairness it reaches the goal" (R281), so the step that counts
for `settle` is the one to the goal. The SPI peripheral's `transfer_complete` needs no clause: a byte that never completes is
stuck where `T_BYTE` is infinite, and where it is finite its wait ends. -/
def FairRun (supply : Nat → List Event) (run : Nat → State) : Prop :=
  IsRun supply run ∧ WeaklyFair settleEnabled .settleGoal supply run ∧
  WeaklyFair becomeReadyEnabled .becomeReady supply run ∧ WeaklyFair txDoneEnabled .txDone supply run

end Sys2Proof.Machine
end

