-- ==== Sys2Proof/Certificates/Slice0/Obligations.lean ====
section
/-! DEFINITION. The statements for the provers. A statement about a transaction "while no other agent acts" takes the
environment's choices as used up (`env = []`); the statements "under any interleaving" take every list of choices. A
conclusion of the form `exec i s = .next (a record update of s)` says the frame too: every field that the update does not
name is unchanged. -/

open Sys2Proof Sys2Proof.Machine

/-! ### Encoding -/

/-- R91, R93, R94, R95, R96, R98, R99, R106: for every `DUMMY` and every `STROBE_CODE` that R95 admits, the decoder reads
every well-formed instruction from the bytes that the encoder writes for it; the two framings READ_STATUS and WRITE_STATUS
are read as the SNOP row (R106). -/
def Obligations.DecodeReadsWhatEncodeWrites : Prop :=
  ∀ (p : Params) (i : Instr), p.strobeCode.wf = true → WellFormed i → decode p.strobeCode (encode p i) = .ok i.canon

/-- R65, R96, R98: whatever bytes a transaction has, and whatever the strobe codes, what the decoder reads from them is a
well-formed instruction. -/
def Obligations.DecodedInstructionsAreWellFormed : Prop :=
  ∀ (c : StrobeCodes) (bytes : List Byte) (i : Instr), decode c bytes = .ok i → WellFormed i

/-- Words written out from R92 to R97, with the default strobe codes: one of each format, and one address with three
meanings (V7); each of the 13 strobe headers of R95, and the write-status framing 3D (R94); and exactly 22 of the 256 headers
are reserved (R97, V6). -/
def Obligations.WrittenWordsDecode : Prop :=
  let d := decode Config.strobeCode
  d [0x06, 0x02] = .ok (.writeSingleCfg 0x06 0x02) ∧
  d [0x3E, 0xC0] = .ok (.writeSinglePatable 0xC0) ∧
  d [0x3F, 0x5A] = .ok (.writeSingleFifo 0x5A) ∧
  d [0x50, 0xDE, 0xAD] = .ok (.burstWriteCfg 0x10 [0xDE, 0xAD]) ∧
  d [0x7F, 0x01, 0x55] = .ok (.burstWriteFifo [0x01, 0x55]) ∧
  d [0x86, 0x00] = .ok (.readSingleCfg 0x06) ∧
  d [0xBE, 0x00] = .ok .readSinglePatable ∧
  d [0xBF, 0x00] = .ok .readSingleFifo ∧
  d [0xD0, 0x00, 0x00] = .ok (.burstReadCfg 0x10 2) ∧
  d [0xFF, 0x00, 0x00] = .ok (.burstReadFifo 2) ∧
  d [0xFB, 0x00] = .ok (.statusRead 0x3B) ∧
  d [0xB0] = .ok (.sres true) ∧
  d [0xB1] = .ok (.sfstxon true) ∧
  d [0xB2] = .ok (.sxoff true) ∧
  d [0xB3] = .ok (.scal true) ∧
  d [0xB4] = .ok (.srx true) ∧
  d [0xB5] = .ok (.stx true) ∧
  d [0xB6] = .ok (.sidle true) ∧
  d [0xB8] = .ok (.swor true) ∧
  d [0xB9] = .ok (.spwd true) ∧
  d [0xBA] = .ok (.sfrx true) ∧
  d [0xBB] = .ok (.sftx true) ∧
  d [0xBC] = .ok (.sworrst true) ∧
  d [0xBD] = .ok (.snop true) ∧
  d [0x3D] = .ok (.snop false) ∧
  d [0x3B] = .ok (.sftx false) ∧
  d [0x7B] = .ok (.reservedBurstWriteStatus 0x3B) ∧
  ∀ h : Byte, decodeHeader Config.strobeCode h = .reserved ↔
    h ∈ ([0x2F, 0x6F, 0xAF, 0xEF, 0x37, 0xB7, 0x70, 0x71, 0x72, 0x73, 0x74, 0x75, 0x76, 0x77, 0x78, 0x79, 0x7A, 0x7B,
      0x7C, 0x7D, 0x7E, 0xFE] : List Byte)

/-- R100: the big-endian pair of a sample, its high byte at most 3, the decoding of any two bytes, and the round trip. -/
def Obligations.PayloadRoundTrip : Prop :=
  (∀ r : Reading, (encodePayload r).1.toNat = r.toNat / 256 ∧ (encodePayload r).2.toNat = r.toNat % 256 ∧
    (encodePayload r).1.toNat ≤ 3 ∧ decodePayload (encodePayload r).1 (encodePayload r).2 = r) ∧
  (∀ h l : Byte, (decodePayload h l).toNat = (h.toNat * 256 + l.toNat) % 1024) ∧
  encodePayload 341 = (0x01, 0x55)

/-! ### Register writes -/

/-- R142, R145: `write_single` to a configuration register or to PATABLE, while no other agent acts. The byte is stored at
the address of the header; every other address reads as before; the status byte is the one before the access (R148). -/
def Obligations.WriteSingleStoresTheByte : Prop :=
  ∀ (v : Byte) (s : State), s.busReady = true → s.env = [] →
    let hp := header patableAddr kWriteSingle
    (∀ a : Addr, a.toNat ≤ 0x2E →
      let h := header a.toNat kWriteSingle
      exec (.writeSingleCfg a v) s = .next
        { s.afterOk (statusByte h s) [.byte h (statusByte h s), .byte v (Config.drawByte (s.draws + 1))] [] with
          mem := s.mem.write a.toNat v, draws := s.draws + 2 } ∧
      (s.mem.write a.toNat v).read a.toNat = some v ∧
      ∀ b, b ≠ a.toNat → (s.mem.write a.toNat v).read b = s.mem.read b) ∧
    (exec (.writeSinglePatable v) s = .next
        { s.afterOk (statusByte hp s) [.byte hp (statusByte hp s), .byte v (Config.drawByte (s.draws + 1))] [] with
          mem := s.mem.write patableAddr v, draws := s.draws + 2 } ∧
      (s.mem.write patableAddr v).read patableAddr = some v ∧
      ∀ b, b ≠ patableAddr → (s.mem.write patableAddr v).read b = s.mem.read b)

/-- R142, R145, R79: `write_single` to the FIFO alias appends the byte to the TX FIFO where it has room, and is refused where
it is full, while no other agent acts. -/
def Obligations.WriteSingleFifoAppendsOrIsRefused : Prop :=
  ∀ (v : Byte) (s : State), s.busReady = true → s.env = [] →
    let h := header fifoAddr kWriteSingle
    (s.txfifo.length < s.par.fifoDepth →
      exec (.writeSingleFifo v) s = .next
        { s.afterOk (statusByte h s) [.byte h (statusByte h s), .byte v (Config.drawByte (s.draws + 1))] [] with
          txfifo := s.txfifo ++ [v], draws := s.draws + 2 }) ∧
    (s.par.fifoDepth ≤ s.txfifo.length → exec (.writeSingleFifo v) s = .refused .txFifoFull)

/-- The wire events of the data bytes of a burst write: each byte sent, a draw returned (R91, R127). -/
def burstWriteEvents (n : Nat) (vs : List Byte) : List WireEvent :=
  (vs.zipIdx n).map (fun e => .byte e.1 (Config.drawByte e.2))

/-- R143, R65 (a), R63: `burst_write` inside the configuration registers stores byte `i` at address `a + i` and nowhere
else, while no other agent acts. -/
def Obligations.BurstWriteCfgStoresEachByte : Prop :=
  ∀ (a : Addr) (vs : List Byte) (s : State), s.busReady = true → s.env = [] → cfgBurst a vs.length = true →
    let h := header a.toNat kBurstWrite
    exec (.burstWriteCfg a vs) s = .next
      { s.afterOk (statusByte h s) (.byte h (statusByte h s) :: burstWriteEvents (s.draws + 1) vs) [] with
        mem := s.mem.writeList a.toNat vs, draws := s.draws + 1 + vs.length } ∧
    (∀ (i : Nat) (hi : i < vs.length), (s.mem.writeList a.toNat vs).read (a.toNat + i) = some vs[i]) ∧
    ∀ b, (b < a.toNat ∨ a.toNat + vs.length ≤ b) → (s.mem.writeList a.toNat vs).read b = s.mem.read b

/-- R143, R65 (b), R152: `burst_write` to the FIFO alias appends every byte in order where the TX FIFO has room for all of
them, and is refused before any byte is sent where it has not, while no other agent acts. -/
def Obligations.BurstWriteFifoAppendsOrIsRefused : Prop :=
  ∀ (vs : List Byte) (s : State), 1 ≤ vs.length →
    let h := header fifoAddr kBurstWrite
    (s.busReady = true → s.env = [] → s.txfifo.length + vs.length ≤ s.par.fifoDepth →
      exec (.burstWriteFifo vs) s = .next
        { s.afterOk (statusByte h s) (.byte h (statusByte h s) :: burstWriteEvents (s.draws + 1) vs) [] with
          txfifo := s.txfifo ++ vs, draws := s.draws + 1 + vs.length }) ∧
    (s.par.fifoDepth < s.txfifo.length + vs.length → exec (.burstWriteFifo vs) s = .refused .notAdmitted)

/-! ### Register reads -/

/-- R140, R144, R67: `read_single` of a configuration register or of PATABLE returns the byte last written, and has no side
effect; a register that nothing has written returns a draw (R150). No other agent acts. -/
def Obligations.ReadSingleReturnsTheByte : Prop :=
  ∀ (i : Instr) (a : Nat) (s : State), s.busReady = true → s.env = [] →
    ((∃ b : Addr, i = .readSingleCfg b ∧ a = b.toNat ∧ a ≤ 0x2E) ∨ (i = .readSinglePatable ∧ a = patableAddr)) →
    let h := header a kReadSingle
    (∀ v, s.mem.read a = some v →
      exec i s = .next
        { s.afterOk (statusByte h s) [.byte h (statusByte h s), .byte s.par.dummy v] [v] with draws := s.draws + 1 }) ∧
    (s.mem.read a = none →
      exec i s = .next
        { s.afterOk (statusByte h s)
            [.byte h (statusByte h s), .byte s.par.dummy (Config.drawByte (s.draws + 1))]
            [Config.drawByte (s.draws + 1)] with
          draws := s.draws + 2 })

/-- R140, R144, R79: `read_single` of the FIFO alias removes and returns the head of the RX FIFO; on an empty queue it
returns a draw and the queue stays empty. No other agent acts. -/
def Obligations.ReadSingleFifoPopsTheHead : Prop :=
  ∀ (s : State), s.busReady = true → s.env = [] →
    let h := header fifoAddr kReadSingle
    (∀ v q, s.rxfifo = v :: q →
      exec .readSingleFifo s = .next
        { s.afterOk (statusByte h s) [.byte h (statusByte h s), .byte s.par.dummy v] [v] with
          rxfifo := q, draws := s.draws + 1 }) ∧
    (s.rxfifo = [] →
      exec .readSingleFifo s = .next
        { s.afterOk (statusByte h s)
            [.byte h (statusByte h s), .byte s.par.dummy (Config.drawByte (s.draws + 1))]
            [Config.drawByte (s.draws + 1)] with
          draws := s.draws + 2 })

/-- R141, R144, R65 (a), R67, R150: `burst_read` inside the configuration registers returns the byte stored at `a + i` as
byte `i`, a draw for each register that nothing has written, and changes nothing but the log, `last_status`, the returned
bytes and the draw counter. No other agent acts. -/
def Obligations.BurstReadCfgReturnsEachByte : Prop :=
  ∀ (a : Addr) (n : Nat) (s : State), s.busReady = true → s.env = [] → cfgBurst a n = true →
    let h := header a.toNat kBurstRead
    let vs := burstReadBytes s.mem a.toNat n (s.draws + 1)
    exec (.burstReadCfg a n) s = .next
      { s.afterOk (statusByte h s) (.byte h (statusByte h s) :: vs.map (.byte s.par.dummy)) vs with
        draws := s.draws + 1 + unwrittenBefore s.mem a.toNat n }

/-- R141, R65 (b), R63 (d), R79: `burst_read` of the FIFO alias removes and returns the first `n` bytes of the RX FIFO in
order, and a draw for each byte beyond the queue. No other agent acts. -/
def Obligations.BurstReadFifoPopsInOrder : Prop :=
  ∀ (n : Nat) (s : State), s.busReady = true → s.env = [] → 1 ≤ n → n ≤ s.par.fifoDepth →
    let h := header fifoAddr kBurstRead
    let vs := s.rxfifo.take n ++
      (List.range (n - s.rxfifo.length)).map (fun i => Config.drawByte (s.draws + 1 + i))
    exec (.burstReadFifo n) s = .next
      { s.afterOk (statusByte h s) (.byte h (statusByte h s) :: vs.map (.byte s.par.dummy)) vs with
        rxfifo := s.rxfifo.drop n, draws := s.draws + 1 + (n - s.rxfifo.length) }

/-- R147, R23, R24, R67: a status-register read returns the exact length of the RX FIFO at `RXBYTES_ADDR` and a draw at any
other of the fourteen addresses, and has no side effect. No other agent acts. -/
def Obligations.StatusReadReturnsTheRegister : Prop :=
  ∀ (a : Addr) (s : State), s.busReady = true → s.env = [] → statusAddr a = true →
    let h := header a.toNat kBurstRead
    (a.toNat = s.par.rxbytesAddr →
      exec (.statusRead a) s = .next
        { s.afterOk (statusByte h s)
            [.byte h (statusByte h s), .byte s.par.dummy (BitVec.ofNat 8 s.rxfifo.length)]
            [BitVec.ofNat 8 s.rxfifo.length] with
          draws := s.draws + 1 }) ∧
    (a.toNat ≠ s.par.rxbytesAddr →
      exec (.statusRead a) s = .next
        { s.afterOk (statusByte h s)
            [.byte h (statusByte h s), .byte s.par.dummy (Config.drawByte (s.draws + 1))]
            [Config.drawByte (s.draws + 1)] with
          draws := s.draws + 2 })

/-! ### Strobes and status -/

/-- What a strobe's transaction leaves apart from the strobe's effect: the header `h` in the log, and one draw used for the
status byte (R170). -/
def afterStrobe (n : StrobeName) (r : Bool) (s : State) : State :=
  let h := strobeByte s.par.strobeCode n r
  { s.afterOk (statusByte h s) [.byte h (statusByte h s)] [] with draws := s.draws + 1 }

/-- R173: the reset strobe, in every chip state and with either value of bit 7, while no other agent acts. Configuration
register `a` holds the draw number `a` of the 48 fresh ones afterwards, and PATABLE the last of them; the sequencer's state
is not touched. With bit 7 clear the header is one that only a caller places (the model's choice: log 31). -/
def Obligations.ResetStrobeResetsTheTarget : Prop :=
  ∀ (r : Bool) (s : State), s.par.strobeCode.wf = true → s.busReady = true → s.env = [] →
    exec (.sres r) s = .next
      { afterStrobe .sres r s with
        mem := Memory.drawn (s.draws + 1), rxfifo := [], txfifo := [], chipState := .idle, goal := .none, ready := false,
        swapUsed := false, draws := s.draws + 49 } ∧
    (∀ a, a ≤ 0x2E → (Memory.drawn (s.draws + 1)).read a = some (Config.drawByte (s.draws + 1 + a))) ∧
    (Memory.drawn (s.draws + 1)).read 0x3E = some (Config.drawByte (s.draws + 48))

/-- R175 and R176, by the rows of R184: the enter-RX and enter-TX strobes start the operation from IDLE, redirect a
transition that does not lead to the other operation, have no effect in their own state and in the error states, and are
refused while the other operation or FSTXON is in progress. No other agent acts. Three points are the model's own choice:
with bit 7 clear the header is one that only a caller places (log 31), a repeated strobe that finds its own goal already set
counts as a strobe for R281, so it clears `swapUsed` (log 13), and the goal counts in the two transitional states only, so in
IDLE, RX and TX the row of the chip state is taken whatever the goal (log 26). -/
def Obligations.EnterStrobesFollowTheMatrix : Prop :=
  ∀ (r : Bool) (s : State), s.par.strobeCode.wf = true → s.busReady = true → s.env = [] →
    (s.chipState = .idle →
      exec (.srx r) s = .next { afterStrobe .srx r s with chipState := .settling, goal := .toRx, swapUsed := false } ∧
      exec (.stx r) s = .next { afterStrobe .stx r s with chipState := .settling, goal := .toTx, swapUsed := false }) ∧
    (isTransitional s.chipState = true →
      (s.goal ≠ .toTx → exec (.srx r) s = .next { afterStrobe .srx r s with goal := .toRx, swapUsed := false }) ∧
      (s.goal = .toTx → exec (.srx r) s = .refused .concurrentStrobe) ∧
      (s.goal ≠ .toRx → exec (.stx r) s = .next { afterStrobe .stx r s with goal := .toTx, swapUsed := false }) ∧
      (s.goal = .toRx → exec (.stx r) s = .refused .concurrentStrobe)) ∧
    (s.chipState = .rx →
      exec (.srx r) s = .next (afterStrobe .srx r s) ∧ exec (.stx r) s = .refused .concurrentStrobe) ∧
    (s.chipState = .tx →
      exec (.srx r) s = .refused .concurrentStrobe ∧ exec (.stx r) s = .next (afterStrobe .stx r s)) ∧
    (s.chipState = .fstxon →
      exec (.srx r) s = .refused .concurrentStrobe ∧ exec (.stx r) s = .refused .concurrentStrobe) ∧
    (isErrorState s.chipState = true →
      exec (.srx r) s = .next (afterStrobe .srx r s) ∧ exec (.stx r) s = .next (afterStrobe .stx r s))

/-- R174 and R177: the calibrate strobe acts from IDLE and in no other chip state; the idle strobe leads to IDLE from every
chip state but IDLE itself and the two error states, where it has no effect, and the FIFOs keep what they hold. No other
agent acts. With bit 7 clear the header is one that only a caller places (the model's choice: log 31). -/
def Obligations.CalibrateAndIdleStrobes : Prop :=
  ∀ (r : Bool) (s : State), s.par.strobeCode.wf = true → s.busReady = true → s.env = [] →
    (s.chipState = .idle → exec (.scal r) s = .next
      { afterStrobe .scal r s with chipState := .calibrate, goal := .toIdle, swapUsed := false }) ∧
    (s.chipState ≠ .idle → exec (.scal r) s = .next (afterStrobe .scal r s)) ∧
    (s.chipState ≠ .idle → isErrorState s.chipState = false →
      exec (.sidle r) s = .next { afterStrobe .sidle r s with chipState := .idle, goal := .none }) ∧
    (s.chipState = .idle ∨ isErrorState s.chipState = true → exec (.sidle r) s = .next (afterStrobe .sidle r s))

/-- R178 and R179: each flush strobe empties its queue in every chip state and leaves the matching error state for IDLE; in
any other state the chip state is unchanged. No other agent acts. With bit 7 clear the header is one that only a caller
places (the model's choice: log 31). -/
def Obligations.FlushStrobesEmptyTheirQueue : Prop :=
  ∀ (r : Bool) (s : State), s.par.strobeCode.wf = true → s.busReady = true → s.env = [] →
    exec (.sfrx r) s = .next
      { afterStrobe .sfrx r s with
        rxfifo := [], chipState := if s.chipState = .rxOverflow then .idle else s.chipState } ∧
    exec (.sftx r) s = .next
      { afterStrobe .sftx r s with
        txfifo := [], chipState := if s.chipState = .txUnderflow then .idle else s.chipState }

/-- R171, R172, R180, R32: the no-op strobe and its two framings change nothing at the target; with bit 7 set the low four
bits of the status byte carry the saturated length of the RX FIFO, with bit 7 clear the saturated number of free bytes of the
TX FIFO. No other agent acts. With the default codes the two framings are BD and 3D (R94). -/
def Obligations.NoOpFramingsReturnTheCounts : Prop :=
  ∀ (s : State), s.par.strobeCode.wf = true → s.busReady = true → s.env = [] →
    (∀ r, exec (.snop r) s = .next (afterStrobe .snop r s)) ∧
    exec .readStatus s = .next (afterStrobe .snop true s) ∧
    exec .writeStatus s = .next (afterStrobe .snop false s) ∧
    (statusByte (strobeByte s.par.strobeCode .snop true) s).toNat % 16 = min s.rxfifo.length 15 ∧
    (statusByte (strobeByte s.par.strobeCode .snop false) s).toNat % 16 = min (s.par.fifoDepth - s.txfifo.length) 15 ∧
    strobeByte Config.strobeCode .snop true = 0xBD ∧ strobeByte Config.strobeCode .snop false = 0x3D

/-- The eight chip states in the order of R29, which is the order of their codes. -/
def chipStatesInOrder : List ChipState := [.idle, .rx, .tx, .fstxon, .calibrate, .settling, .rxOverflow, .txUnderflow]

/-- R31, R29: in both layouts the state field of a status byte is the position of the chip state in the list of R29, the low
four bits are the FIFO count field, and the spare bit is a draw; the master decodes the state field to the chip state before
the header took effect and the low bits to the count, whatever the header and the draws. -/
def Obligations.StatusByteShowsTheChipState : Prop :=
  ∀ (h : Byte) (s : State),
    let st := statusByte h s
    (s.par.stateHi = .hi7 → chipStatesInOrder[st.toNat / 32]? = some s.chipState ∧
      st.toNat / 16 % 2 = (Config.drawBit s.draws).toNat) ∧
    (s.par.stateHi = .hi6 → chipStatesInOrder[st.toNat / 16 % 8]? = some s.chipState ∧
      st.toNat / 128 = (Config.drawBit s.draws).toNat) ∧
    st.toNat % 16 = (fifoField h s).toNat ∧
    stateOf s.par.stateHi st = s.chipState ∧ countOf st = fifoField h s

/-- R181, R97, R98, R127: the five unnamed strobes and the reserved headers are refused by the bridge in every state,
before any byte. At the target the header of an unnamed strobe and a reserved header are refused when they reach it (with
the default codes a header whose code is 37, or any of the headers of R97 with an address outside the strobe codes), and so
are a byte after a complete access, a byte while the decoder is closed, and a byte past the end of the region. -/
def Obligations.UnnamedAndReservedAreRefused : Prop :=
  ∀ (s : State) (r b : Bool) (a : Addr),
    exec (.sfstxon r) s = .refused (.unnamedStrobe .sfstxon) ∧
    exec (.sxoff r) s = .refused (.unnamedStrobe .sxoff) ∧
    exec (.swor r) s = .refused (.unnamedStrobe .swor) ∧
    exec (.spwd r) s = .refused (.unnamedStrobe .spwd) ∧
    exec (.sworrst r) s = .refused (.unnamedStrobe .sworrst) ∧
    exec (.reserved2F r b) s = .refused .reservedHeader ∧
    exec (.reservedStrobe37 r) s = .refused .reservedHeader ∧
    exec (.reservedBurstWriteStatus a) s = .refused .reservedHeader ∧
    exec (.reservedBurstPatable r) s = .refused .reservedHeader ∧
    (s.tdec = .awaitHeader →
      (s.par.strobeCode.wf = true → ∀ n ∈ ([.sfstxon, .sxoff, .swor, .spwd, .sworrst] : List StrobeName),
        targetExchange (strobeByte s.par.strobeCode n r) s = .error (.unnamedStrobe n)) ∧
      (s.par.strobeCode = Config.strobeCode →
        targetExchange (headerOf r false 0x37) s = .error .reservedHeader) ∧
      (∀ h ∈ ([0x2F, 0x6F, 0xAF, 0xEF, 0x70, 0x71, 0x72, 0x73, 0x74, 0x75, 0x76, 0x77, 0x78, 0x79, 0x7A, 0x7B, 0x7C,
          0x7D, 0x7E, 0xFE] : List Byte), targetExchange h s = .error .reservedHeader)) ∧
    ∀ v : Byte,
      (s.tdec = .done → targetExchange v s = .error .afterComplete) ∧
      (s.tdec = .closed → targetExchange v s = .error .decoderClosed) ∧
      (∀ k n, s.tdec = .data k .pastEnd n → targetExchange v s = .error .pastRangeEnd)

/-! ### Admission, the ready wait and the per-byte wait -/

/-- R152: each operation of the register interface is refused by the bridge exactly where its arguments lie outside the
admission table. A refusal has no next state: no byte is sent. -/
def Obligations.AdmissionFollowsTheTable : Prop :=
  ∀ (s : State) (addr n : Nat) (v : Byte) (vs : List Byte) (c : StrobeName),
    (readSingle addr s = .refused .notAdmitted ↔ ¬ (addr ≤ 0x2E ∨ addr = 0x3E ∨ addr = 0x3F)) ∧
    (writeSingle addr v s = .refused .notAdmitted ↔ ¬ (addr ≤ 0x2E ∨ addr = 0x3E ∨ addr = 0x3F)) ∧
    (burstRead addr n s = .refused .notAdmitted ↔
      ¬ (1 ≤ n ∧ ((addr ≤ 0x2E ∧ addr + n - 1 ≤ 0x2E) ∨ (addr = 0x3F ∧ n ≤ s.par.fifoDepth) ∨
        (0x30 ≤ addr ∧ addr ≤ 0x3D ∧ n = 1)))) ∧
    (burstWrite addr vs s = .refused .notAdmitted ↔
      ¬ (1 ≤ vs.length ∧ ((addr ≤ 0x2E ∧ addr + vs.length - 1 ≤ 0x2E) ∨
        (addr = 0x3F ∧ s.txfifo.length + vs.length ≤ s.par.fifoDepth)))) ∧
    (strobe c s = .refused (.unnamedStrobe c) ↔ c ∉ ([.sres, .scal, .srx, .stx, .sidle, .sfrx, .sftx, .snop] : List StrobeName))

/-- R152 for the instructions: an ill-formed one is refused before any byte is sent, and so is a burst read of the FIFO alias
beyond `FIFO_DEPTH`. -/
def Obligations.IllFormedInstructionsAreRefused : Prop :=
  ∀ (i : Instr) (s : State),
    (i.wellFormed = false → (∀ a, i ≠ .reservedBurstWriteStatus a) → exec i s = .refused .notAdmitted) ∧
    (∀ n, s.par.fifoDepth < n → exec (.burstReadFifo n) s = .refused .notAdmitted)

/-- R35, R121: an admitted instruction is refused while the transport is not initialised, and while chip select is already
asserted. That a strobe other than SNOP with bit 7 clear is admitted is the model's own choice (log 31). -/
def Obligations.SelectNeedsAnInitialisedIdleBus : Prop :=
  ∀ (i : Instr) (s : State), bridgeAdmits s i = true →
    (s.spiInited = false → exec i s = .refused .notInitialised) ∧
    (s.spiInited = true → s.csn = false → exec i s = .refused .alreadySelected)

/-- R121, R301, R308: the ready wait of an admitted instruction on a target that is not ready. With a finite `T_READY` a
wait that expires ends in HardwareTimeout(READY): chip select was asserted and is deasserted again, no byte was sent, and
nothing at the target changed but what other agents did meanwhile. It expires where the environment says so, after any
steps of other agents that leave the target not ready; that it also expires where the environment has nothing more to do is
the model's own choice (log 2), since R301 and R291 only enable an expiry and never force one. With `T_READY = ∞` and a
target that never becomes ready the sequencer is stuck. That a strobe other than SNOP with bit 7 clear is admitted is the
model's own choice too (log 31). -/
def Obligations.ReadyWaitExpiresOrIsStuck : Prop :=
  ∀ (i : Instr) (s : State), bridgeAdmits s i = true → s.busIdle = true → s.ready = false →
    (s.par.tReady.isSome = true →
      (s.env = [] → exec i s = .next (s.afterErr (.hardwareTimeout .ready) [.select, .deselect])) ∧
      ∀ before es, s.env = before ++ .expire :: es → (∀ e ∈ before, e ≠ .becomeReady ∧ e ≠ .expire) →
        exec i s = .next ((before.foldl (fun u e => agentStep e u) { s with env := es }).afterErr
          (.hardwareTimeout .ready) [.select, .deselect])) ∧
    (s.par.tReady = none → (∀ e ∈ s.env, e ≠ .becomeReady) → exec i s = .fault .stuckReadyWait)

/-- R121, R288: the ready line falling ends the ready wait: every instruction then does what it does on a ready target. -/
def Obligations.BecomeReadyEndsTheWait : Prop :=
  ∀ (i : Instr) (s : State) (es : List Event), s.busIdle = true → s.ready = false → s.env = .becomeReady :: es →
    exec i s = exec i { s with ready := true, env := es }

/-- R123, R301: with `T_BYTE = ∞` an admitted instruction is stuck if the SPI peripheral never completes its first byte; with
a finite `T_BYTE` it ends in HardwareTimeout(BYTE), and nothing at the target changed. That a strobe other than SNOP with
bit 7 clear is admitted is the model's own choice (log 31). -/
def Obligations.ByteStallIsStuckOrTimesOut : Prop :=
  ∀ (i : Instr) (s : State) (es : List Event), bridgeAdmits s i = true → s.busReady = true → s.env = .stall :: es →
    (s.par.tByte = none → exec i s = .fault .stuckByteWait) ∧
    (s.par.tByte.isSome = true →
      exec i s = .next { s.afterErr (.hardwareTimeout .byte) [.select, .deselect] with env := es })

/-- R124, R308: a burst write to configuration registers whose per-byte wait expires after the header and `k` data bytes has
written exactly those `k` bytes. The environment lets `k + 1` bytes through and then lets the bound expire. -/
def Obligations.ByteTimeoutLeavesAPrefix : Prop :=
  ∀ (a : Addr) (vs : List Byte) (k : Nat) (s : State) (es : List Event),
    s.busReady = true → cfgBurst a vs.length = true → k < vs.length → s.par.tByte.isSome = true →
    s.env = List.replicate (k + 1) .go ++ .expire :: es →
    let h := header a.toNat kBurstWrite
    exec (.burstWriteCfg a vs) s = .next
      { s.afterErr (.hardwareTimeout .byte)
          (.select :: .byte h (statusByte h s) :: burstWriteEvents (s.draws + 1) (vs.take k) ++ [.deselect]) with
        mem := s.mem.writeList a.toNat (vs.take k), draws := s.draws + 1 + k, env := es }

/-! ### Whole-machine rules over every instruction -/

/-- R125, R308, R367: under any interleaving and whatever its outcome, an instruction that answers a next state has put one
`select`, then bytes, then one `deselect` on the wire, and leaves chip select deasserted with the decoder closed. -/
def Obligations.NoOperationLeavesChipSelected : Prop :=
  ∀ (i : Instr) (s t : State), s.busIdle = true → exec i s = .next t →
    t.busIdle = true ∧
    ∃ l : List (Byte × Byte), t.wireLog = s.wireLog ++ (.select :: l.map (fun e => .byte e.1 e.2) ++ [.deselect])

/-- R149: no byte exchange of a register access changes the chip state, the goal, the ready line, the direction flag, the
detector, the wake slot or the phase: neither its header nor any of its data bytes. -/
def Obligations.RegisterAccessChangesNoChipState : Prop :=
  ∀ (b v : Byte) (s t : State), targetExchange b s = .ok (v, t) →
    (s.tdec = .awaitHeader → ∀ n r, decodeHeader s.par.strobeCode b ≠ .strobe n r) →
    t.chipState = s.chipState ∧ t.goal = s.goal ∧ t.ready = s.ready ∧ t.dir = s.dir ∧ t.armed = s.armed ∧
      t.wakeSlot = s.wakeSlot ∧ t.phase = s.phase

/-- R54, R182: under any interleaving no instruction writes the direction flag, the phase or a data register of the
sequencer other than `last_status`, forwards a byte to the host, arms the detector or puts the sequencer to sleep; and no
instruction clears a recorded error. -/
def Obligations.InstructionsLeaveTheSequencerAlone : Prop :=
  ∀ (i : Instr) (s t : State), exec i s = .next t →
    t.dir = s.dir ∧ t.phase = s.phase ∧ t.reading = s.reading ∧ t.payload = s.payload ∧ t.rxcount = s.rxcount ∧
    t.hostOut = s.hostOut ∧ t.spiInited = s.spiInited ∧ t.par = s.par ∧
    (t.armed = true → s.armed = true) ∧ (t.sleeping = true → s.sleeping = true) ∧
    (t.err = s.err ∨ ∃ e, t.err = some { error := e, phase := none })

/-- R66, R72, R125: under any interleaving in which no wait ends in a timeout or a stall, every admitted instruction
completes on a ready target, apart from the two enter strobes, which R175 and R176 may refuse in the chip state they meet,
and a single write to a TX FIFO that is already full. That SRES, SCAL, SIDLE, SFRX and SFTX with bit 7 clear, which no
operation of the bridge sends (R97), complete too is the model's own choice (log 31, DESIGN CHOICE). -/
def Obligations.CalmInstructionsComplete : Prop :=
  ∀ (i : Instr) (s : State), s.par.strobeCode.wf = true → bridgeAdmits s i = true → s.busReady = true →
    calm s.env = true → (∀ r, i ≠ .srx r) → (∀ r, i ≠ .stx r) →
    (∀ v, i = .writeSingleFifo v → s.txfifo.length < s.par.fifoDepth) →
    ∃ t, exec i s = .next t ∧ t.err = s.err ∧ t.lastStatus.written = true ∧ calm t.env = true

/-- R69: under any interleaving in which no wait ends in a timeout or a stall, during the write, between the two operations
and during the read, `write_single` then `read_single` of the same address returns the byte, for every configuration register
and for PATABLE. -/
def Obligations.SingleWriteThenReadReturnsTheByte : Prop :=
  ∀ (v : Byte) (s : State) (es : List Event), s.busReady = true → calm s.env = true → calm es = true →
    (∀ a : Addr, a.toNat ≤ 0x2E → ∃ t u, exec (.writeSingleCfg a v) s = .next t ∧
      exec (.readSingleCfg a) { t with env := es } = .next u ∧ u.returned = [v]) ∧
    ∃ t u, exec (.writeSinglePatable v) s = .next t ∧
      exec .readSinglePatable { t with env := es } = .next u ∧ u.returned = [v]

/-- R70, first form: `burst_write` then `burst_read` of the same range of configuration registers returns the data, under the
same interleavings as the single round trip. -/
def Obligations.BurstWriteThenReadReturnsTheData : Prop :=
  ∀ (a : Addr) (vs : List Byte) (s : State) (es : List Event), s.busReady = true → calm s.env = true → calm es = true →
    cfgBurst a vs.length = true →
    ∃ t u, exec (.burstWriteCfg a vs) s = .next t ∧
      exec (.burstReadCfg a vs.length) { t with env := es } = .next u ∧ u.returned = vs

/-! ### Steps -/

/-- How a caller's transaction reaches `exec` is the model's own choice (log 11, DESIGN CHOICE): the rules give the
sequencer no stored program, and the model lets a caller place the bytes of one transaction. When it is the sequencer's
turn and the sequencer is neither suspended nor halted, the step decodes the bytes placed and is `exec` of what they decode
to, with the request taken and the turn used up; bytes that are no transaction are refused. -/
def Obligations.StepRunsTheDecodedInstruction : Prop :=
  ∀ (s : State), (s.env = [] ∨ ∃ es, s.env = .go :: es) → s.sleeping = false → s.phase ≠ .halt → s.request ≠ [] →
    (∀ i, decode s.par.strobeCode s.request = .ok i → step s = exec i { s with request := [], env := s.env.tail }) ∧
    (∀ e, decode s.par.strobeCode s.request = .error e → step s = .refused (.badTransaction e))

/-- R52, R350: the power-on values the spec gives, for every choice of parameters. The chip state, which the spec leaves a
draw, is not among them (log 8). -/
def Obligations.PowerOnState : Prop :=
  ∀ p : Params, let s := State.resetWith p
    (∀ a, s.mem.read a = none) ∧ s.rxfifo = [] ∧ s.txfifo = [] ∧ s.goal = .none ∧ s.ready = false ∧ s.tdec = .closed ∧
    s.spiInited = false ∧ s.csn = true ∧ s.dir = .unwritten ∧ s.armed = false ∧ s.wakeSlot = false ∧ s.sleeping = false ∧
    s.tickSlot = false ∧ s.wakeDir = .none ∧ s.phase = .bootInit ∧ s.reading.written = false ∧
    s.payload.written = false ∧ s.rxcount.written = false ∧ s.lastStatus.written = false ∧ s.err = none ∧
    s.hostOut = [] ∧ s.wireLog = [] ∧ s.par = p

/-- The invariants hold right after power-on: for `State.reset`, and for every well-formed choice of parameters with every
chip state (R52 leaves it a draw). -/
def Obligations.ResetSatisfiesTheInvariants : Prop :=
  State.reset.Inv ∧ ∀ (p : Params) (c : ChipState), p.wf = true → { State.resetWith p with chipState := c }.Inv

/-- R53 (e) and (f), R36, R125, R311, R30, R37, R44: every step of the node keeps the invariants, from every state that has
them: a step of any agent, a caller's transaction or the sequencer's turn, under any interleaving. -/
def Obligations.StepKeepsTheInvariants : Prop :=
  ∀ s t : State, s.Inv → step s = .next t → t.Inv

/-- R46, R49, R47, R51: no step clears a recorded error, removes an entry of the wire log or a byte of the host's list,
writes a parameter, or takes the transport back to uninitialised. -/
def Obligations.ErrorsLogsAndParametersPersist : Prop :=
  ∀ s t : State, step s = .next t →
    (s.err.isSome = true → t.err.isSome = true) ∧ (∃ l, t.wireLog = s.wireLog ++ l) ∧
    (∃ l, t.hostOut = s.hostOut ++ l) ∧ t.par = s.par ∧ (s.spiInited = true → t.spiInited = true)

/-- R41, R245, R319, R311: while the sequencer sleeps, and in HALT, every step answers a next state and puts nothing on the
wire, whatever the other agents do and whatever transaction a caller has placed; memory, the data registers and the
direction flag survive. A node in HALT with the invariants stays there, disarmed, awake and with its error. Two clauses are
the model's own choice: that a step of such a node always answers a next state (log 27), and that a placed transaction
waits meanwhile and is kept (log 11, log 27). -/
def Obligations.SleepingOrHaltedNodeIsSilent : Prop :=
  ∀ s : State, (s.sleeping = true ∨ s.phase = .halt) →
    ∃ t, step s = .next t ∧ t.wireLog = s.wireLog ∧ t.mem = s.mem ∧ t.request = s.request ∧ t.csn = s.csn ∧
      t.dir = s.dir ∧ t.reading = s.reading ∧ t.payload = s.payload ∧ t.rxcount = s.rxcount ∧
      t.lastStatus = s.lastStatus ∧ t.hostOut = s.hostOut ∧
      (s.Inv → s.phase = .halt →
        t.phase = .halt ∧ t.armed = false ∧ t.sleeping = false ∧ t.csn = true ∧ t.err = s.err ∧ s.err.isSome = true)

/-- The headers of a piece of the wire log: the first byte sent after each `select` (R90, R49). -/
def headersSent : List WireEvent → List Byte
  | .select :: .byte h _ :: l => h :: headersSent l
  | _ :: l => headersSent l
  | [] => []

/-- R256: with no caller's transaction placed, no step taken in a loop phase or in RESYNC writes a configuration register
or PATABLE, and none resets the target: a ready target stays ready. Every header such a step puts on the wire is one of the
five strobes of the loops, a burst at the FIFO alias or the read of the RX byte count, so the loops never issue SRES, SCAL
or SNOP, never call `read_status` or `write_status`, and address no configuration register; and chip select is never
asserted while the sequencer is suspended. -/
def Obligations.LoopsNeverWriteConfiguration : Prop :=
  ∀ s t : State, s.Inv → s.request = [] → (s.phase.inLoop = true ∨ s.phase = .resync) → step s = .next t →
    t.mem = s.mem ∧ (s.ready = true → t.ready = true) ∧ (t.sleeping = true → t.csn = true) ∧
    ∃ l, t.wireLog = s.wireLog ++ l ∧ ∀ h ∈ headersSent l,
      decodeHeader s.par.strobeCode h ∈ ([.strobe .sfrx true, .strobe .srx true, .strobe .sftx true, .strobe .stx true,
        .strobe .sidle true, .access .rb 0x3F, .access .wb 0x3F, .statusRead s.par.rxbytesAddr] : List HeaderKind)

/-! ### The radio agent and the collaborators -/

/-- R286, R54: what a step of another agent never does, and the only ways it changes the queues, the ready line and the
detector. -/
def Obligations.AgentsTouchOnlyTheirState : Prop :=
  ∀ (e : Event) (s : State), let t := agentStep e s
    t.mem = s.mem ∧ t.tdec = s.tdec ∧ t.csn = s.csn ∧ t.spiInited = s.spiInited ∧ t.dir = s.dir ∧ t.phase = s.phase ∧
    t.reading = s.reading ∧ t.payload = s.payload ∧ t.rxcount = s.rxcount ∧ t.lastStatus = s.lastStatus ∧
    t.err = s.err ∧ t.hostOut = s.hostOut ∧ t.wireLog = s.wireLog ∧
    (s.ready = true → t.ready = true) ∧
    (t.rxfifo = s.rxfifo ∨ (∃ p ok, e = .rxDone p ok ∧ t.rxfifo = s.rxfifo ++ p) ∨
      (∃ p, e = .rxDone p false ∧ s.par.crcAutoflush = true ∧ t.rxfifo = [])) ∧
    (t.txfifo = s.txfifo ∨ (e = .txDone ∧ t.txfifo = s.txfifo.drop 2)) ∧
    ((∀ p ok, e ≠ .rxDone p ok) → e ≠ .txDone → e ≠ .txUnderflow true →
      t.armed = s.armed ∧ t.wakeSlot = s.wakeSlot ∧ t.wakeDir = s.wakeDir)

/-- R282, R285: the end of an RX operation, as a step of the node, for a packet of two bytes. -/
def Obligations.RxDoneFillsFlushesOrOverflows : Prop :=
  ∀ (s : State) (b0 b1 : Byte) (ok : Bool) (es : List Event), s.env = .rxDone [b0, b1] ok :: es →
    (s.chipState ≠ .rx → step s = .next { s with env := es }) ∧
    (s.chipState = .rx →
      (ok = true ∨ s.par.crcAutoflush = false →
        (s.par.fifoDepth < s.rxfifo.length + 2 → step s = .next { s with env := es, chipState := .rxOverflow }) ∧
        (s.rxfifo.length + 2 ≤ s.par.fifoDepth →
          step s = .next (completionEvent
            { s with env := es, rxfifo := s.rxfifo ++ [b0, b1], chipState := .idle }))) ∧
      (ok = false → s.par.crcAutoflush = true →
        step s = .next (completionEvent { s with env := es, rxfifo := [], chipState := .idle })))

/-- R283 and R284: the end of a TX operation and the underflow, as steps of the node. The packet is the first two bytes of
the TX FIFO; whether an underflow raises an event is the environment's choice. -/
def Obligations.TxDoneAndTxUnderflow : Prop :=
  ∀ (s : State) (es : List Event),
    (s.env = .txDone :: es →
      (∀ b0 b1 q, s.chipState = .tx → s.txfifo = b0 :: b1 :: q →
        step s = .next (completionEvent
          { s with env := es, txfifo := q, chipState := .idle, airOut := s.airOut ++ [[b0, b1]] })) ∧
      (s.chipState ≠ .tx ∨ s.txfifo.length < 2 → step s = .next { s with env := es })) ∧
    (∀ raise, s.env = .txUnderflow raise :: es →
      (s.chipState = .tx → s.txfifo.length < 2 →
        step s = .next (if raise then completionEvent { s with env := es, chipState := .txUnderflow }
          else { s with env := es, chipState := .txUnderflow })) ∧
      (s.chipState ≠ .tx ∨ 2 ≤ s.txfifo.length → step s = .next { s with env := es }))

/-- R281, R288: the settling steps and the ready line, as steps of the node. The passage to the other transitional state
happens at most once per strobe. -/
def Obligations.SettleAndBecomeReady : Prop :=
  ∀ (s : State) (es : List Event),
    (s.env = .settleGoal :: es →
      (isTransitional s.chipState = true → s.goal = .toIdle →
        step s = .next { s with env := es, chipState := .idle, goal := .none }) ∧
      (isTransitional s.chipState = true → s.goal = .toRx →
        step s = .next { s with env := es, chipState := .rx, goal := .none }) ∧
      (isTransitional s.chipState = true → s.goal = .toTx →
        step s = .next { s with env := es, chipState := .tx, goal := .none }) ∧
      (isTransitional s.chipState = false ∨ s.goal = .none → step s = .next { s with env := es })) ∧
    (s.env = .settleOther :: es → s.goal ≠ .none →
      (s.chipState = .calibrate → s.swapUsed = false →
        step s = .next { s with env := es, chipState := .settling, swapUsed := true }) ∧
      (s.chipState = .settling → s.swapUsed = false →
        step s = .next { s with env := es, chipState := .calibrate, swapUsed := true }) ∧
      (s.swapUsed = true → step s = .next { s with env := es })) ∧
    (s.env = .becomeReady :: es → step s = .next { s with env := es, ready := true })

/-- R246, R306, R289, R40: a completion event disarms the detector and copies the direction flag to `wake_dir`, and wakes a
sleeping sequencer or waits in the slot for one that runs; a detector that is not armed discards it, and it is not raised
before boot has completed. What is copied from a flag that nothing has written is the model's own choice, `none` (log 24). -/
def Obligations.CompletionEventWakesOrLatches : Prop :=
  ∀ s : State,
    (s.phase.booting = true → completionEvent s = s) ∧
    (s.phase.booting = false →
      (s.armed = false → completionEvent s = s) ∧
      ∀ w : WakeDir, (s.dir = .rx ∧ w = .rx) ∨ (s.dir = .tx ∧ w = .tx) ∨ (s.dir = .unwritten ∧ w = .none) →
        (s.armed = true → s.sleeping = true →
          completionEvent s = { s with armed := false, wakeDir := w, sleeping := false }) ∧
        (s.armed = true → s.sleeping = false →
          completionEvent s = { s with armed := false, wakeDir := w, wakeSlot := true }))

/-- R287, and R70 in its second form: when a node with two bytes queued ends its transmission, a node in RX to which the air
delivers has exactly those bytes appended in order; one for which it drops the packet, and one not in RX, is left as it is;
one for which it corrupts the packet takes it as a packet with a bad CRC. -/
def Obligations.AirDeliversCorruptsOrDrops : Prop :=
  ∀ (t n : State) (b0 b1 c0 c1 : Byte) (q : List Byte), t.chipState = .tx → t.txfifo = b0 :: b1 :: q →
    (∀ c, (airStep t [n] [c]).1 =
      completionEvent { t with txfifo := q, chipState := .idle, airOut := t.airOut ++ [[b0, b1]] }) ∧
    (∀ c, n.chipState ≠ .rx → (airStep t [n] [c]).2 = [n]) ∧
    (airStep t [n] [.drop]).2 = [n] ∧
    (n.chipState = .rx → n.rxfifo.length + 2 ≤ n.par.fifoDepth →
      (airStep t [n] [.deliver]).2 =
        [completionEvent { n with rxfifo := n.rxfifo ++ [b0, b1], chipState := .idle }] ∧
      (airStep t [n] [.corrupt [c0, c1]]).2 =
        [completionEvent
          { n with rxfifo := if n.par.crcAutoflush then [] else n.rxfifo ++ [c0, c1], chipState := .idle }])

/-! ### Error dispatch and waits of the sequencer -/

/-- R251, R309, R215, R310: where control goes after an error, and what its entry writes: the error with the phase it came
from, the detector disarmed, the sequencer awake. Nothing else changes. That the dispatch also disarms and wakes for an error
in a boot phase or in RESYNC is the model's own choice (log 19, DEDUCED): R251 speaks of the loop phases. -/
def Obligations.ErrorDispatchFollowsThePolicy : Prop :=
  ∀ (e : OpError) (s : State),
    (∃ ph, dispatchError e s =
      { s with err := some { error := e, phase := some s.phase }, armed := false, sleeping := false, waitOn := .none,
               phase := ph } ∧
      (s.phase.booting = true → ph = .halt) ∧
      (s.phase = .resync → ph = .resync) ∧
      (s.phase.booting = false → s.phase ≠ .resync →
        (policyOf s.par.errPolicy e = .restart → ph = firstPhase s.par.role) ∧
        (policyOf s.par.errPolicy e = .resync → ph = .resync) ∧
        (policyOf s.par.errPolicy e = .halt → ph = .halt))) ∧
    firstPhase .base = .flushRx ∧ firstPhase .remote = .sample ∧
    (∀ c, policyOf Config.errPolicy (.hardwareTimeout c) = .restart) ∧
    (∀ c v, policyOf Config.errPolicy (.protocolViolation c v) = .resync) ∧
    (∀ c v, policyOf Config.errPolicy (.configurationError c v) = .halt)

/-- R245, R234, R242, R301: in the two waiting phases the sequencer suspends when no event waits in the slot, goes on at
once when one does, and goes on after the handler has woken it. While it sleeps on the completion signal and nothing waits
in the slot a finite bound may expire: HardwareTimeout(WAIT) is dispatched; otherwise an expiry has no effect. -/
def Obligations.SuspendWakeOrExpire : Prop :=
  ∀ s : State,
    (∀ ph next : Phase, s.quietAt ph →
      ((ph = .sleepWaitRx ∧ next = .drainFifo) ∨ (ph = .sleepWaitTx ∧ next = .sample)) →
      (s.waitOn ≠ .completion → s.wakeSlot = true →
        step s = .next { s with wakeSlot := false, waitOn := .none, phase := next }) ∧
      (s.waitOn ≠ .completion → s.wakeSlot = false →
        step s = .next { s with sleeping := true, waitOn := .completion }) ∧
      (s.waitOn = .completion → step s = .next { s with waitOn := .none, phase := next })) ∧
    ∀ es, s.env = .expire :: es →
      (s.sleeping = true → s.waitOn = .completion → s.wakeSlot = false → s.par.tWait.isSome = true →
        step s = .next (dispatchError (.hardwareTimeout .wait) { s with env := es })) ∧
      (s.sleeping = false ∨ s.waitOn ≠ .completion ∨ s.wakeSlot = true ∨ s.par.tWait = none →
        step s = .next { s with env := es })

/-! ### Boot -/

/-- R211, R302: the valid profile ids are 0 to `N_PROFILES - 1`; any other id, negative ones included, is rejected with
ConfigurationError before any transaction, and the same holds of a power level outside the enumerated set (R212). -/
def Obligations.InvalidInputsAreRejectedBeforeTheWire : Prop :=
  ∀ (id : Int) (level : Nat) (s : State), s.csn = true →
    ((profileOf s.par id).isSome = true ↔ 0 ≤ id ∧ id < s.par.profiles.length) ∧
    (¬ (0 ≤ id ∧ id < s.par.profiles.length) → loadProfile id s = .err (.configurationError .profileId id) s) ∧
    ((∀ b, (level, b) ∉ s.par.paLevels) → setTxPower level s = .err (.configurationError .powerLevel level) s)

/-- R210, R214, R63 (b): a successful `load_profile`: the reset strobe, then one burst write of 47 bytes at base address 0
with header byte 0x40, and nothing else on the wire; afterwards every configuration register holds its byte of the profile,
both FIFOs are empty and the chip state is IDLE. The target becomes ready again during the second `select`. -/
def Obligations.LoadProfileWritesTheProfile : Prop :=
  ∀ (id : Int) (table : List Byte) (s : State), s.par.strobeCode.wf = true → s.busReady = true →
    s.env = [.go, .go, .becomeReady] → profileOf s.par id = some table → table.length = 47 →
    ∃ (t : State) (st st' : Byte) (xs : List Byte), loadProfile id s = .ok () t ∧ xs.length = 47 ∧
      t.wireLog = s.wireLog ++ ([.select, .byte (strobeByte s.par.strobeCode .sres true) st, .deselect,
        .select, .byte 0x40 st'] ++
        List.zipWith .byte table xs ++ [.deselect]) ∧
      (∀ i, (h : i < table.length) → t.mem.read i = some table[i]) ∧ (t.mem.read 0x3E).isSome = true ∧
      t.rxfifo = [] ∧ t.txfifo = [] ∧ t.chipState = .idle ∧ t.busReady = true ∧ t.err = s.err

/-- R213: `setup_packet_mode` is one `write_single` per pair in list order, later pairs winning: on the wire one
transaction of two bytes per pair, the header of the pair's address and the pair's byte, in that order and nothing else. It
completes on a ready target while no other agent acts, and touches no other register. -/
def Obligations.SetupPacketModeWritesInOrder : Prop :=
  ∀ s : State, s.busReady = true → s.env = [] → s.par.wf = true →
    ∃ (t : State) (rs : List (Byte × Byte)), setupPacketMode s = .ok () t ∧ t.busReady = true ∧
      rs.length = s.par.pktModeWrites.length ∧
      t.wireLog = s.wireLog ++ (List.zipWith (fun (w : Nat × Byte) (r : Byte × Byte) =>
        [.select, .byte (header w.1 kWriteSingle) r.1, .byte w.2 r.2, .deselect]) s.par.pktModeWrites rs).flatten ∧
      t.mem = s.par.pktModeWrites.foldl (fun m w => m.write w.1 w.2) s.mem ∧
      t.rxfifo = s.rxfifo ∧ t.txfifo = s.txfifo ∧ t.chipState = s.chipState ∧ t.err = s.err

/-- R215, R354: from power-on in any chip state (R52), with an id and a level in their tables, the four boot phases, each one
step, reach the first phase of the role with *boot completed*, if the environment lets the target become ready at each of the
first two waits. -/
def Obligations.BootReachesTheLoop : Prop :=
  ∀ (p : Params) (c : ChipState) (table : List Byte) (power : Byte), p.wf = true →
    profileOf p p.profileId = some table → paByte p p.txPowerLevel = some power →
    ∃ s1 s2 s3 s4,
      step { State.resetWith p with
        chipState := c, env := [.go, .go, .becomeReady, .go, .go, .becomeReady] } = .next s1 ∧
      s1.phase = .bootProfile ∧ s1.spiInited = true ∧ s1.wireLog = [] ∧
      step s1 = .next s2 ∧ s2.phase = .bootPktMode ∧ step s2 = .next s3 ∧ s3.phase = .bootTxPower ∧
      step s3 = .next s4 ∧ s4.phase = firstPhase p.role ∧ s4.bootCompleted

/-! ### The loop phases -/

/-- R232, R240, R252, R303: each flush phase issues its strobe and goes on; if the status byte shows an error state, the
strobe has had its effect and ProtocolViolation(STATE) with that byte is dispatched. -/
def Obligations.FlushPhases : Prop :=
  ∀ s : State, s.par.strobeCode.wf = true →
    (s.quietAt .flushRx →
      let h := strobeByte s.par.strobeCode .sfrx true
      let t := { s.afterTxn (statusByte h s) [.byte h (statusByte h s)] with
        rxfifo := [], chipState := if s.chipState = .rxOverflow then .idle else s.chipState, draws := s.draws + 1 }
      (isErrorState s.chipState = false → step s = .next { t with phase := .armRx }) ∧
      (isErrorState s.chipState = true →
        step s = .next (dispatchError (.protocolViolation .state (statusByte h s)) t))) ∧
    (s.quietAt .flushTx →
      let h := strobeByte s.par.strobeCode .sftx true
      let t := { s.afterTxn (statusByte h s) [.byte h (statusByte h s)] with
        txfifo := [], chipState := if s.chipState = .txUnderflow then .idle else s.chipState, draws := s.draws + 1 }
      (isErrorState s.chipState = false → step s = .next { t with phase := .transmit }) ∧
      (isErrorState s.chipState = true →
        step s = .next (dispatchError (.protocolViolation .state (statusByte h s)) t)))

/-- R233, R249: ARM_RX writes the direction flag and arms the detector (dropping a stale event) before it sends the enter-RX
strobe. From IDLE the chip starts to settle towards RX, in RX and in a transition towards RX the strobe starts no second
operation, in an error state the status check dispatches (R252, R251), and a TX operation in progress is refused (R175,
R184). The last two clauses say what comes before the strobe's header byte. If the bounded wait for it expires, the flag is
written and the stale event dropped already. If an RX operation ends while it is awaited, the detector is armed already: the
event is not lost but waits in the slot with the direction RX (R246), and the strobe starts a new operation. Two points are
the model's own choice: a repeated strobe clears `swapUsed` (log 13), and in IDLE and RX the row of the chip state is taken
whatever the goal (log 26). -/
def Obligations.ArmRxArmsThenStrobes : Prop :=
  ∀ s : State, s.par.strobeCode.wf = true → s.quietAt .armRx →
    let h := strobeByte s.par.strobeCode .srx true
    let t := { s.afterTxn (statusByte h s) [.byte h (statusByte h s)] with
      dir := .rx, armed := true, wakeSlot := false, draws := s.draws + 1 }
    (s.chipState = .idle → step s = .next
      { t with chipState := .settling, goal := .toRx, swapUsed := false, phase := .sleepWaitRx }) ∧
    (s.chipState = .rx → step s = .next { t with phase := .sleepWaitRx }) ∧
    (isTransitional s.chipState = true → s.goal ≠ .toTx →
      step s = .next { t with goal := .toRx, swapUsed := false, phase := .sleepWaitRx }) ∧
    (isErrorState s.chipState = true →
      step s = .next (dispatchError (.protocolViolation .state (statusByte h s)) t)) ∧
    (s.chipState = .tx ∨ s.chipState = .fstxon ∨ (isTransitional s.chipState = true ∧ s.goal = .toTx) →
      step s = .refused .concurrentStrobe) ∧
    (s.par.tByte.isSome = true → ∀ es : List Event, step (s.withEnv (.go :: .expire :: es)) = .next
      (dispatchError (.hardwareTimeout .byte)
        { s with wireLog := s.wireLog ++ [.select, .deselect], dir := .rx, wakeSlot := false, env := es })) ∧
    (s.chipState = .rx → s.rxfifo.length + 2 ≤ s.par.fifoDepth → ∀ b0 b1 : Byte,
      let u := { s with rxfifo := s.rxfifo ++ [b0, b1], chipState := .idle }
      step (s.withEnv [.go, .rxDone [b0, b1] true]) = .next
        { u.afterTxn (statusByte h u) [.byte h (statusByte h u)] with
          dir := .rx, armed := false, wakeDir := .rx, wakeSlot := true, chipState := .settling, goal := .toRx,
          swapUsed := false, draws := s.draws + 1, phase := .sleepWaitRx })

/-- R235, R24, R79, R303, R307 (b): DRAIN_FIFO reads the RX byte count and checks the chip state before the count; a count
above `MAX_PKT_LEN` is a ProtocolViolation(COUNT) and the FIFO is not read; a count of zero starts the next iteration; else
two bytes are read, the second a draw where the queue held one byte only. -/
def Obligations.DrainFifoReadsOnePacket : Prop :=
  ∀ s : State, s.quietAt .drainFifo → s.par.wf = true → s.rxfifo.length ≤ s.par.fifoDepth →
    let h := header s.par.rxbytesAddr kBurstRead
    let h2 := header fifoAddr kBurstRead
    let c := BitVec.ofNat 8 s.rxfifo.length
    let u := { s.afterTxn (statusByte h s) [.byte h (statusByte h s), .byte s.par.dummy c] with draws := s.draws + 1 }
    let t := { u with rxcount := Datum.of c }
    (isErrorState s.chipState = true →
      step s = .next (dispatchError (.protocolViolation .state (statusByte h s)) u)) ∧
    (isErrorState s.chipState = false →
      (s.par.maxPktLen < s.rxfifo.length → step s = .next (dispatchError (.protocolViolation .count c) t)) ∧
      (s.rxfifo = [] → step s = .next { t with phase := .flushRx }) ∧
      (∀ b0 b1 q, s.rxfifo = b0 :: b1 :: q → s.rxfifo.length ≤ s.par.maxPktLen → step s = .next
        { t.afterTxn (statusByte h2 t)
            [.byte h2 (statusByte h2 t), .byte s.par.dummy b0, .byte s.par.dummy b1] with
          rxfifo := q, draws := s.draws + 2, payload := Datum.of (b0, b1), phase := .forward }) ∧
      (∀ b0, s.rxfifo = [b0] → 1 ≤ s.par.maxPktLen → step s = .next
        { t.afterTxn (statusByte h2 t)
            [.byte h2 (statusByte h2 t), .byte s.par.dummy b0, .byte s.par.dummy (Config.drawByte (s.draws + 2))] with
          rxfifo := [], draws := s.draws + 3, payload := Datum.of (b0, Config.drawByte (s.draws + 2)),
          phase := .forward }))

/-- R236 and R239: FORWARD hands the two bytes of the payload to the host, high byte first, unchanged; ENCODE makes the
payload of the sample; neither has SPI traffic. Reading a register that nothing has written is refused (R52). -/
def Obligations.ForwardAndEncode : Prop :=
  ∀ s : State,
    (s.quietAt .forward →
      (s.payload.written = true → step s = .next
        { s with hostOut := s.hostOut ++ [s.payload.value.1, s.payload.value.2], phase := .flushRx }) ∧
      (s.payload.written = false → step s = .refused .unwrittenRead)) ∧
    (s.quietAt .encode →
      (s.reading.written = true → ∃ hi lo : Byte, step s = .next
        { s with payload := Datum.of (hi, lo), phase := .flushTx } ∧
        hi.toNat = s.reading.value.toNat / 256 ∧ lo.toNat = s.reading.value.toNat % 256) ∧
      (s.reading.written = false → step s = .refused .unwrittenRead))

/-- R238, R247, R248: SAMPLE waits for the tick, consumes it, waits for the conversion, and takes the Sampler's answer,
which is a draw; a tick that came before SAMPLE was reached is consumed without a sleep; no SPI traffic. A tick is kept in
its one-deep slot and wakes the sequencer if it waits for a tick; the end of a conversion wakes it if it waits for that;
neither wakes it from another wait. -/
def Obligations.SampleWaitsForTickAndConversion : Prop :=
  ∀ s : State,
    (s.quietAt .sample →
      (s.waitOn ≠ .conversion → s.tickSlot = false → step s = .next { s with sleeping := true, waitOn := .tick }) ∧
      (s.waitOn ≠ .conversion → s.tickSlot = true →
        step s = .next { s with tickSlot := false, sleeping := true, waitOn := .conversion }) ∧
      (s.waitOn = .conversion → step s = .next
        { s with reading := Datum.of (Config.drawReading s.draws), draws := s.draws + 1, waitOn := .none,
                 phase := .encode })) ∧
    ∀ es : List Event,
      (s.env = .tick :: es →
        (s.waitOn = .tick → step s = .next { s with env := es, tickSlot := true, sleeping := false }) ∧
        (s.waitOn ≠ .tick → step s = .next { s with env := es, tickSlot := true })) ∧
      (s.env = .conversionDone :: es →
        (s.waitOn = .conversion → step s = .next { s with env := es, sleeping := false }) ∧
        (s.waitOn ≠ .conversion → step s = .next { s with env := es }))

/-- R241, R249: TRANSMIT writes the payload to the TX FIFO, then writes the direction flag and arms the detector, and only
then sends the enter-TX strobe. The last two clauses say what comes before the strobe's header byte. If the bounded wait for
it expires, the payload and the flag are written and the stale event dropped already. If a TX operation ends while it is
awaited, the detector is armed already: the event is not lost but waits in the slot with the direction TX (R246), and the
strobe starts a new operation. From IDLE the chip starts to settle towards TX, in TX and in a transition towards TX no second
operation is started, an RX operation in progress is refused; in an error state the bytes are appended and the status check
dispatches before the flag is written. Without room for the two bytes the write is refused (R152), and so is a payload that
nothing has written (R52). Two points are the model's own choice: a repeated strobe clears `swapUsed` (log 13), and in IDLE
and TX the row of the chip state is taken whatever the goal (log 26). -/
def Obligations.TransmitWritesArmsThenStrobes : Prop :=
  ∀ s : State, s.par.strobeCode.wf = true → s.quietAt .transmit →
    (s.payload.written = false → step s = .refused .unwrittenRead) ∧
    ∀ hi lo : Byte, s.payload = Datum.of (hi, lo) →
      (s.par.fifoDepth < s.txfifo.length + 2 → step s = .refused .notAdmitted) ∧
      (s.txfifo.length + 2 ≤ s.par.fifoDepth →
        let h := header fifoAddr kBurstWrite
        let h2 := strobeByte s.par.strobeCode .stx true
        let u := { s.afterTxn (statusByte h s)
            [.byte h (statusByte h s), .byte hi (Config.drawByte (s.draws + 1)),
              .byte lo (Config.drawByte (s.draws + 2))] with
          txfifo := s.txfifo ++ [hi, lo], draws := s.draws + 3 }
        let t := { u.afterTxn (statusByte h2 u) [.byte h2 (statusByte h2 u)] with
          draws := s.draws + 4, dir := .tx, armed := true, wakeSlot := false }
        (s.chipState = .idle → step s = .next
          { t with chipState := .settling, goal := .toTx, swapUsed := false, phase := .sleepWaitTx }) ∧
        (s.chipState = .tx → step s = .next { t with phase := .sleepWaitTx }) ∧
        (isTransitional s.chipState = true → s.goal ≠ .toRx →
          step s = .next { t with goal := .toTx, swapUsed := false, phase := .sleepWaitTx }) ∧
        (isErrorState s.chipState = true →
          step s = .next (dispatchError (.protocolViolation .state (statusByte h s)) u)) ∧
        (s.chipState = .rx ∨ s.chipState = .fstxon ∨ (isTransitional s.chipState = true ∧ s.goal = .toRx) →
          step s = .refused .concurrentStrobe) ∧
        (s.par.tByte.isSome = true → isErrorState s.chipState = false →
          ∀ es : List Event, step (s.withEnv (.go :: .go :: .go :: .go :: .go :: .expire :: es)) = .next
            (dispatchError (.hardwareTimeout .byte)
              { u with
                wireLog := u.wireLog ++ [.select, .deselect], dir := .tx, wakeSlot := false, env := es })) ∧
        (s.chipState = .tx →
          let v := { u with
            txfifo := (s.txfifo ++ [hi, lo]).drop 2, airOut := s.airOut ++ [(s.txfifo ++ [hi, lo]).take 2],
            chipState := .idle }
          step (s.withEnv [.go, .go, .go, .go, .go, .txDone]) = .next
            { v.afterTxn (statusByte h2 v) [.byte h2 (statusByte h2 v)] with
              dir := .tx, armed := false, wakeDir := .tx, wakeSlot := true, chipState := .settling, goal := .toTx,
              swapUsed := false, draws := s.draws + 4, phase := .sleepWaitTx }))

/-- R310: RESYNC issues the idle strobe and both flush strobes, without a check of their status bytes, and goes to the first
phase; afterwards the chip is in IDLE with no goal and both FIFOs are empty, from every starting state with the
invariants. -/
def Obligations.ResyncRestoresIdle : Prop :=
  ∀ s : State, s.quietAt .resync → s.Inv →
    ∃ st1 st2 st3 : Byte, step s = .next
      { s with
        wireLog := s.wireLog ++ [
          .select, .byte (strobeByte s.par.strobeCode .sidle true) st1, .deselect,
          .select, .byte (strobeByte s.par.strobeCode .sfrx true) st2, .deselect,
          .select, .byte (strobeByte s.par.strobeCode .sftx true) st3, .deselect],
        lastStatus := Datum.of st3, draws := s.draws + 3, chipState := .idle, goal := .none, rxfifo := [], txfifo := [],
        phase := firstPhase s.par.role } ∧
      stateOf s.par.stateHi st1 = s.chipState

/-! ### Runs -/

/-- R253, R291: both loops can run for ever. The premises: *boot completed* (R354), the invariants, the transport
initialised, the sequencer at the first phase of its role and suspended on nothing, no goal of the chip, no choice of the
environment left over (`env` empty), no transaction of another caller placed, and MAX_PKT_LEN at least 2. They ask more than
boot completed alone: from SLEEP_WAIT_RX with the detector not armed, also boot completed, no run without an error goes on
forwarding. From every state with the premises there is a fair run in which no error ever occurs and the memory never
changes: a BASE node goes on forwarding bytes to the host, a REMOTE node goes on putting packets on the air. What an infinite
run is and what makes it fair (`IsRun`, `FairRun`) is the model's own rendering of R291, a DESIGN CHOICE (log 23). -/
def Obligations.LoopsCanRunForEver : Prop :=
  ∀ s : State, s.bootCompleted → s.Inv → s.spiInited = true → s.env = [] → s.request = [] → s.waitOn = .none →
    s.phase = firstPhase s.par.role → s.goal = .none → 2 ≤ s.par.maxPktLen →
    ∃ (supply : Nat → List Event) (run : Nat → State), run 0 = s ∧ FairRun supply run ∧
      (∀ n, (run n).err = none ∧ (run n).mem = s.mem) ∧
      ∀ k, ∃ n, (s.par.role = .base → k ≤ (run n).hostOut.length) ∧ (s.par.role = .remote → k ≤ (run n).airOut.length)
end

