-- ==== Sys2Proof/Laws/Memory.lean ====
section
/-! SUPPORT. The laws of memory: a read after a write, and the canonical form that every operation keeps. -/

namespace Sys2Proof.Machine

@[simp] theorem Memory.read_nil (a : Nat) : Memory.read [] a = none := rfl

theorem Memory.read_cons (k : Nat) (w : Byte) (m : Memory) (a : Nat) :
    Memory.read ((k, w) :: m) a = if k = a then some w else m.read a := rfl

/-- A read after a write to the same address gives the byte written (R69). -/
@[simp] theorem Memory.read_write_same (m : Memory) (a : Nat) (v : Byte) : (m.write a v).read a = some v := by
  induction m with
  | nil => simp [Memory.write, Memory.read_cons]
  | cons c m ih =>
    obtain ⟨k, w⟩ := c
    simp only [Memory.write]
    split
    · simp [Memory.read_cons]
    split
    · simp [Memory.read_cons]
    · rw [Memory.read_cons, if_neg (by omega), ih]

/-- A write leaves every other address alone. -/
theorem Memory.read_write_other (m : Memory) (a b : Nat) (v : Byte) (h : b ≠ a) : (m.write a v).read b = m.read b := by
  induction m with
  | nil => simp [Memory.write, Memory.read_cons, Ne.symm h]
  | cons c m ih =>
    obtain ⟨k, w⟩ := c
    simp only [Memory.write]
    split
    · simp [Memory.read_cons, Ne.symm h]
    split
    · subst a; simp [Memory.read_cons, Ne.symm h]
    · simp [Memory.read_cons, ih]

theorem Memory.above_write (m : Memory) (a b : Nat) (v : Byte) (h : Memory.above b m = true) (hab : b < a) :
    Memory.above b (m.write a v) = true := by
  induction m with
  | nil => simp [Memory.write, Memory.above, hab]
  | cons c m ih =>
    obtain ⟨k, w⟩ := c
    simp only [Memory.above, List.all_cons, Bool.and_eq_true, decide_eq_true_eq] at h ih ⊢
    simp only [Memory.write]
    split
    · simp only [List.all_cons, Bool.and_eq_true, decide_eq_true_eq]; exact ⟨hab, h.1, h.2⟩
    split
    · simp only [List.all_cons, Bool.and_eq_true, decide_eq_true_eq]; exact ⟨hab, h.2⟩
    · simp only [List.all_cons, Bool.and_eq_true, decide_eq_true_eq]; exact ⟨h.1, ih h.2⟩

theorem Memory.above_trans (m : Memory) (a b : Nat) (h : Memory.above b m = true) (hab : a < b) :
    Memory.above a m = true := by
  simp only [Memory.above, List.all_eq_true, decide_eq_true_eq] at h ⊢
  exact fun c hc => Nat.lt_trans hab (h c hc)

theorem Memory.rising_write (m : Memory) (a : Nat) (v : Byte) (h : Memory.rising m = true) :
    Memory.rising (m.write a v) = true := by
  induction m with
  | nil => simp [Memory.write, Memory.rising, Memory.above]
  | cons c m ih =>
    obtain ⟨k, w⟩ := c
    simp only [Memory.rising, Bool.and_eq_true] at h
    simp only [Memory.write]
    split
    · rename_i hak
      simp only [Memory.rising, Bool.and_eq_true]
      exact ⟨by simp only [Memory.above, List.all_cons, Bool.and_eq_true, decide_eq_true_eq]
                exact ⟨hak, Memory.above_trans m a k h.1 hak⟩, h.1, h.2⟩
    split
    · rename_i hak
      subst hak
      simp only [Memory.rising, Bool.and_eq_true]
      exact ⟨h.1, h.2⟩
    · simp only [Memory.rising, Bool.and_eq_true]
      exact ⟨Memory.above_write m a k v h.1 (by omega), ih h.2⟩

theorem Memory.backed_write (m : Memory) (a : Nat) (v : Byte) (ha : Memory.backed a = true)
    (h : m.all (fun c => Memory.backed c.1) = true) : (m.write a v).all (fun c => Memory.backed c.1) = true := by
  induction m with
  | nil => simp [Memory.write, ha]
  | cons c m ih =>
    obtain ⟨k, w⟩ := c
    simp only [List.all_cons, Bool.and_eq_true] at h
    simp only [Memory.write]
    split
    · simp only [List.all_cons, Bool.and_eq_true]; exact ⟨ha, h.1, h.2⟩
    split
    · simp only [List.all_cons, Bool.and_eq_true]; exact ⟨ha, h.2⟩
    · simp only [List.all_cons, Bool.and_eq_true]; exact ⟨h.1, ih h.2⟩

/-- A write to an address that holds a byte keeps the canonical form. -/
theorem Memory.wf_write (m : Memory) (a : Nat) (v : Byte) (ha : Memory.backed a = true) (h : m.wf = true) :
    (m.write a v).wf = true := by
  simp only [Memory.wf, Bool.and_eq_true] at h ⊢
  exact ⟨Memory.rising_write m a v h.1, Memory.backed_write m a v ha h.2⟩

/-- A burst inside the configuration registers keeps the canonical form. -/
theorem Memory.wf_writeList (vs : List Byte) : ∀ (m : Memory) (a : Nat), a + vs.length ≤ 0x2F → m.wf = true →
    (m.writeList a vs).wf = true := by
  induction vs with
  | nil => exact fun m a _ h => h
  | cons v vs ih =>
    intro m a ha h
    simp only [List.length_cons] at ha
    exact ih _ _ (by omega) (Memory.wf_write m a v (by simp [Memory.backed]; omega) h)

/-- A burst leaves every address outside it alone. -/
theorem Memory.read_writeList_other (vs : List Byte) : ∀ (m : Memory) (a b : Nat), (b < a ∨ a + vs.length ≤ b) →
    (m.writeList a vs).read b = m.read b := by
  induction vs with
  | nil => exact fun m a b _ => rfl
  | cons v vs ih =>
    intro m a b h
    simp only [List.length_cons] at h
    rw [Memory.writeList, ih _ _ _ (by omega), Memory.read_write_other _ _ _ _ (by omega)]

/-- Byte `i` of a burst stands at address `a + i` afterwards (R65 (a)). -/
theorem Memory.read_writeList (vs : List Byte) : ∀ (m : Memory) (a i : Nat) (h : i < vs.length),
    (m.writeList a vs).read (a + i) = some vs[i] := by
  induction vs with
  | nil => exact fun m a i h => absurd h (by simp)
  | cons v vs ih =>
    intro m a i h
    rw [Memory.writeList]
    cases i with
    | zero => rw [Memory.read_writeList_other _ _ _ _ (by omega)]; simp
    | succ i =>
      have := ih (m.write a v) (a + 1) i (by simpa using h)
      rw [show a + (i + 1) = a + 1 + i by omega]
      simpa using this

theorem Memory.writeList_append (vs ws : List Byte) : ∀ (m : Memory) (a : Nat),
    m.writeList a (vs ++ ws) = (m.writeList a vs).writeList (a + vs.length) ws := by
  induction vs with
  | nil => intro m a; rfl
  | cons v vs ih =>
    intro m a
    simp only [List.cons_append, Memory.writeList, ih, List.length_cons]
    rw [show a + 1 + vs.length = a + (vs.length + 1) by omega]

/-- The memory of a reset strobe has the canonical form. -/
theorem Memory.wf_drawn (n : Nat) : (Memory.drawn n).wf = true := by
  simp [Memory.drawn, Config.cfgLen, Memory.wf, Memory.rising, Memory.above, Memory.backed, List.range_succ]

/-- Every configuration register and PATABLE hold a value after a reset strobe (R173). -/
theorem Memory.read_drawn (n a : Nat) (h : Memory.backed a = true) : ((Memory.drawn n).read a).isSome = true := by
  simp only [Memory.backed, Bool.or_eq_true, decide_eq_true_eq] at h
  have : a ∈ List.range 47 ∨ a = 0x3E := by rw [List.mem_range]; omega
  simp only [Memory.drawn, Config.cfgLen, List.range_succ, List.range_zero, List.nil_append,
    List.map_cons, List.map_nil, List.cons_append, Memory.read_cons]
  rcases this with h1 | h1
  · rw [List.mem_range] at h1
    interval_cases a <;> rfl
  · subst h1; rfl

end Sys2Proof.Machine
end

