-- ==== Sys2Proof/Laws/State.lean ====
section
/-! SUPPORT. One lemma per field per named update of the state, so that no proof unfolds a record update. -/

namespace Sys2Proof.Machine

@[simp] theorem State.bumpDraws_mem (s : State) (k : Nat) : (s.bumpDraws k).mem = s.mem := rfl
@[simp] theorem State.bumpDraws_rxfifo (s : State) (k : Nat) : (s.bumpDraws k).rxfifo = s.rxfifo := rfl
@[simp] theorem State.bumpDraws_txfifo (s : State) (k : Nat) : (s.bumpDraws k).txfifo = s.txfifo := rfl
@[simp] theorem State.bumpDraws_chipState (s : State) (k : Nat) : (s.bumpDraws k).chipState = s.chipState := rfl
@[simp] theorem State.bumpDraws_goal (s : State) (k : Nat) : (s.bumpDraws k).goal = s.goal := rfl
@[simp] theorem State.bumpDraws_ready (s : State) (k : Nat) : (s.bumpDraws k).ready = s.ready := rfl
@[simp] theorem State.bumpDraws_tdec (s : State) (k : Nat) : (s.bumpDraws k).tdec = s.tdec := rfl
@[simp] theorem State.bumpDraws_spiInited (s : State) (k : Nat) : (s.bumpDraws k).spiInited = s.spiInited := rfl
@[simp] theorem State.bumpDraws_csn (s : State) (k : Nat) : (s.bumpDraws k).csn = s.csn := rfl
@[simp] theorem State.bumpDraws_dir (s : State) (k : Nat) : (s.bumpDraws k).dir = s.dir := rfl
@[simp] theorem State.bumpDraws_armed (s : State) (k : Nat) : (s.bumpDraws k).armed = s.armed := rfl
@[simp] theorem State.bumpDraws_wakeSlot (s : State) (k : Nat) : (s.bumpDraws k).wakeSlot = s.wakeSlot := rfl
@[simp] theorem State.bumpDraws_wakeDir (s : State) (k : Nat) : (s.bumpDraws k).wakeDir = s.wakeDir := rfl
@[simp] theorem State.bumpDraws_sleeping (s : State) (k : Nat) : (s.bumpDraws k).sleeping = s.sleeping := rfl
@[simp] theorem State.bumpDraws_phase (s : State) (k : Nat) : (s.bumpDraws k).phase = s.phase := rfl
@[simp] theorem State.bumpDraws_reading (s : State) (k : Nat) : (s.bumpDraws k).reading = s.reading := rfl
@[simp] theorem State.bumpDraws_payload (s : State) (k : Nat) : (s.bumpDraws k).payload = s.payload := rfl
@[simp] theorem State.bumpDraws_rxcount (s : State) (k : Nat) : (s.bumpDraws k).rxcount = s.rxcount := rfl
@[simp] theorem State.bumpDraws_lastStatus (s : State) (k : Nat) : (s.bumpDraws k).lastStatus = s.lastStatus := rfl
@[simp] theorem State.bumpDraws_err (s : State) (k : Nat) : (s.bumpDraws k).err = s.err := rfl
@[simp] theorem State.bumpDraws_hostOut (s : State) (k : Nat) : (s.bumpDraws k).hostOut = s.hostOut := rfl
@[simp] theorem State.bumpDraws_tickSlot (s : State) (k : Nat) : (s.bumpDraws k).tickSlot = s.tickSlot := rfl
@[simp] theorem State.bumpDraws_wireLog (s : State) (k : Nat) : (s.bumpDraws k).wireLog = s.wireLog := rfl
@[simp] theorem State.bumpDraws_waitOn (s : State) (k : Nat) : (s.bumpDraws k).waitOn = s.waitOn := rfl
@[simp] theorem State.bumpDraws_swapUsed (s : State) (k : Nat) : (s.bumpDraws k).swapUsed = s.swapUsed := rfl
@[simp] theorem State.bumpDraws_airOut (s : State) (k : Nat) : (s.bumpDraws k).airOut = s.airOut := rfl
@[simp] theorem State.bumpDraws_request (s : State) (k : Nat) : (s.bumpDraws k).request = s.request := rfl
@[simp] theorem State.bumpDraws_returned (s : State) (k : Nat) : (s.bumpDraws k).returned = s.returned := rfl
@[simp] theorem State.bumpDraws_env (s : State) (k : Nat) : (s.bumpDraws k).env = s.env := rfl
@[simp] theorem State.bumpDraws_draws (s : State) (k : Nat) : (s.bumpDraws k).draws = s.draws + k := rfl
@[simp] theorem State.bumpDraws_par (s : State) (k : Nat) : (s.bumpDraws k).par = s.par := rfl

@[simp] theorem State.logWire_mem (s : State) (e : WireEvent) : (s.logWire e).mem = s.mem := rfl
@[simp] theorem State.logWire_rxfifo (s : State) (e : WireEvent) : (s.logWire e).rxfifo = s.rxfifo := rfl
@[simp] theorem State.logWire_txfifo (s : State) (e : WireEvent) : (s.logWire e).txfifo = s.txfifo := rfl
@[simp] theorem State.logWire_chipState (s : State) (e : WireEvent) : (s.logWire e).chipState = s.chipState := rfl
@[simp] theorem State.logWire_goal (s : State) (e : WireEvent) : (s.logWire e).goal = s.goal := rfl
@[simp] theorem State.logWire_ready (s : State) (e : WireEvent) : (s.logWire e).ready = s.ready := rfl
@[simp] theorem State.logWire_tdec (s : State) (e : WireEvent) : (s.logWire e).tdec = s.tdec := rfl
@[simp] theorem State.logWire_spiInited (s : State) (e : WireEvent) : (s.logWire e).spiInited = s.spiInited := rfl
@[simp] theorem State.logWire_csn (s : State) (e : WireEvent) : (s.logWire e).csn = s.csn := rfl
@[simp] theorem State.logWire_dir (s : State) (e : WireEvent) : (s.logWire e).dir = s.dir := rfl
@[simp] theorem State.logWire_armed (s : State) (e : WireEvent) : (s.logWire e).armed = s.armed := rfl
@[simp] theorem State.logWire_wakeSlot (s : State) (e : WireEvent) : (s.logWire e).wakeSlot = s.wakeSlot := rfl
@[simp] theorem State.logWire_wakeDir (s : State) (e : WireEvent) : (s.logWire e).wakeDir = s.wakeDir := rfl
@[simp] theorem State.logWire_sleeping (s : State) (e : WireEvent) : (s.logWire e).sleeping = s.sleeping := rfl
@[simp] theorem State.logWire_phase (s : State) (e : WireEvent) : (s.logWire e).phase = s.phase := rfl
@[simp] theorem State.logWire_reading (s : State) (e : WireEvent) : (s.logWire e).reading = s.reading := rfl
@[simp] theorem State.logWire_payload (s : State) (e : WireEvent) : (s.logWire e).payload = s.payload := rfl
@[simp] theorem State.logWire_rxcount (s : State) (e : WireEvent) : (s.logWire e).rxcount = s.rxcount := rfl
@[simp] theorem State.logWire_lastStatus (s : State) (e : WireEvent) : (s.logWire e).lastStatus = s.lastStatus := rfl
@[simp] theorem State.logWire_err (s : State) (e : WireEvent) : (s.logWire e).err = s.err := rfl
@[simp] theorem State.logWire_hostOut (s : State) (e : WireEvent) : (s.logWire e).hostOut = s.hostOut := rfl
@[simp] theorem State.logWire_tickSlot (s : State) (e : WireEvent) : (s.logWire e).tickSlot = s.tickSlot := rfl
@[simp] theorem State.logWire_wireLog (s : State) (e : WireEvent) : (s.logWire e).wireLog = s.wireLog ++ [e] := rfl
@[simp] theorem State.logWire_waitOn (s : State) (e : WireEvent) : (s.logWire e).waitOn = s.waitOn := rfl
@[simp] theorem State.logWire_swapUsed (s : State) (e : WireEvent) : (s.logWire e).swapUsed = s.swapUsed := rfl
@[simp] theorem State.logWire_airOut (s : State) (e : WireEvent) : (s.logWire e).airOut = s.airOut := rfl
@[simp] theorem State.logWire_request (s : State) (e : WireEvent) : (s.logWire e).request = s.request := rfl
@[simp] theorem State.logWire_returned (s : State) (e : WireEvent) : (s.logWire e).returned = s.returned := rfl
@[simp] theorem State.logWire_env (s : State) (e : WireEvent) : (s.logWire e).env = s.env := rfl
@[simp] theorem State.logWire_draws (s : State) (e : WireEvent) : (s.logWire e).draws = s.draws := rfl
@[simp] theorem State.logWire_par (s : State) (e : WireEvent) : (s.logWire e).par = s.par := rfl

@[simp] theorem State.withEnv_mem (s : State) (es : List Event) : (s.withEnv es).mem = s.mem := rfl
@[simp] theorem State.withEnv_rxfifo (s : State) (es : List Event) : (s.withEnv es).rxfifo = s.rxfifo := rfl
@[simp] theorem State.withEnv_txfifo (s : State) (es : List Event) : (s.withEnv es).txfifo = s.txfifo := rfl
@[simp] theorem State.withEnv_chipState (s : State) (es : List Event) : (s.withEnv es).chipState = s.chipState := rfl
@[simp] theorem State.withEnv_goal (s : State) (es : List Event) : (s.withEnv es).goal = s.goal := rfl
@[simp] theorem State.withEnv_ready (s : State) (es : List Event) : (s.withEnv es).ready = s.ready := rfl
@[simp] theorem State.withEnv_tdec (s : State) (es : List Event) : (s.withEnv es).tdec = s.tdec := rfl
@[simp] theorem State.withEnv_spiInited (s : State) (es : List Event) : (s.withEnv es).spiInited = s.spiInited := rfl
@[simp] theorem State.withEnv_csn (s : State) (es : List Event) : (s.withEnv es).csn = s.csn := rfl
@[simp] theorem State.withEnv_dir (s : State) (es : List Event) : (s.withEnv es).dir = s.dir := rfl
@[simp] theorem State.withEnv_armed (s : State) (es : List Event) : (s.withEnv es).armed = s.armed := rfl
@[simp] theorem State.withEnv_wakeSlot (s : State) (es : List Event) : (s.withEnv es).wakeSlot = s.wakeSlot := rfl
@[simp] theorem State.withEnv_wakeDir (s : State) (es : List Event) : (s.withEnv es).wakeDir = s.wakeDir := rfl
@[simp] theorem State.withEnv_sleeping (s : State) (es : List Event) : (s.withEnv es).sleeping = s.sleeping := rfl
@[simp] theorem State.withEnv_phase (s : State) (es : List Event) : (s.withEnv es).phase = s.phase := rfl
@[simp] theorem State.withEnv_reading (s : State) (es : List Event) : (s.withEnv es).reading = s.reading := rfl
@[simp] theorem State.withEnv_payload (s : State) (es : List Event) : (s.withEnv es).payload = s.payload := rfl
@[simp] theorem State.withEnv_rxcount (s : State) (es : List Event) : (s.withEnv es).rxcount = s.rxcount := rfl
@[simp] theorem State.withEnv_lastStatus (s : State) (es : List Event) : (s.withEnv es).lastStatus = s.lastStatus := rfl
@[simp] theorem State.withEnv_err (s : State) (es : List Event) : (s.withEnv es).err = s.err := rfl
@[simp] theorem State.withEnv_hostOut (s : State) (es : List Event) : (s.withEnv es).hostOut = s.hostOut := rfl
@[simp] theorem State.withEnv_tickSlot (s : State) (es : List Event) : (s.withEnv es).tickSlot = s.tickSlot := rfl
@[simp] theorem State.withEnv_wireLog (s : State) (es : List Event) : (s.withEnv es).wireLog = s.wireLog := rfl
@[simp] theorem State.withEnv_waitOn (s : State) (es : List Event) : (s.withEnv es).waitOn = s.waitOn := rfl
@[simp] theorem State.withEnv_swapUsed (s : State) (es : List Event) : (s.withEnv es).swapUsed = s.swapUsed := rfl
@[simp] theorem State.withEnv_airOut (s : State) (es : List Event) : (s.withEnv es).airOut = s.airOut := rfl
@[simp] theorem State.withEnv_request (s : State) (es : List Event) : (s.withEnv es).request = s.request := rfl
@[simp] theorem State.withEnv_returned (s : State) (es : List Event) : (s.withEnv es).returned = s.returned := rfl
@[simp] theorem State.withEnv_env (s : State) (es : List Event) : (s.withEnv es).env = es := rfl
@[simp] theorem State.withEnv_draws (s : State) (es : List Event) : (s.withEnv es).draws = s.draws := rfl
@[simp] theorem State.withEnv_par (s : State) (es : List Event) : (s.withEnv es).par = s.par := rfl

@[simp] theorem State.openBus_mem (s : State) : s.openBus.mem = s.mem := rfl
@[simp] theorem State.openBus_rxfifo (s : State) : s.openBus.rxfifo = s.rxfifo := rfl
@[simp] theorem State.openBus_txfifo (s : State) : s.openBus.txfifo = s.txfifo := rfl
@[simp] theorem State.openBus_chipState (s : State) : s.openBus.chipState = s.chipState := rfl
@[simp] theorem State.openBus_goal (s : State) : s.openBus.goal = s.goal := rfl
@[simp] theorem State.openBus_ready (s : State) : s.openBus.ready = s.ready := rfl
@[simp] theorem State.openBus_tdec (s : State) : s.openBus.tdec = .awaitHeader := rfl
@[simp] theorem State.openBus_spiInited (s : State) : s.openBus.spiInited = s.spiInited := rfl
@[simp] theorem State.openBus_csn (s : State) : s.openBus.csn = false := rfl
@[simp] theorem State.openBus_dir (s : State) : s.openBus.dir = s.dir := rfl
@[simp] theorem State.openBus_armed (s : State) : s.openBus.armed = s.armed := rfl
@[simp] theorem State.openBus_wakeSlot (s : State) : s.openBus.wakeSlot = s.wakeSlot := rfl
@[simp] theorem State.openBus_wakeDir (s : State) : s.openBus.wakeDir = s.wakeDir := rfl
@[simp] theorem State.openBus_sleeping (s : State) : s.openBus.sleeping = s.sleeping := rfl
@[simp] theorem State.openBus_phase (s : State) : s.openBus.phase = s.phase := rfl
@[simp] theorem State.openBus_reading (s : State) : s.openBus.reading = s.reading := rfl
@[simp] theorem State.openBus_payload (s : State) : s.openBus.payload = s.payload := rfl
@[simp] theorem State.openBus_rxcount (s : State) : s.openBus.rxcount = s.rxcount := rfl
@[simp] theorem State.openBus_lastStatus (s : State) : s.openBus.lastStatus = s.lastStatus := rfl
@[simp] theorem State.openBus_err (s : State) : s.openBus.err = s.err := rfl
@[simp] theorem State.openBus_hostOut (s : State) : s.openBus.hostOut = s.hostOut := rfl
@[simp] theorem State.openBus_tickSlot (s : State) : s.openBus.tickSlot = s.tickSlot := rfl
@[simp] theorem State.openBus_wireLog (s : State) : s.openBus.wireLog = s.wireLog := rfl
@[simp] theorem State.openBus_waitOn (s : State) : s.openBus.waitOn = s.waitOn := rfl
@[simp] theorem State.openBus_swapUsed (s : State) : s.openBus.swapUsed = s.swapUsed := rfl
@[simp] theorem State.openBus_airOut (s : State) : s.openBus.airOut = s.airOut := rfl
@[simp] theorem State.openBus_request (s : State) : s.openBus.request = s.request := rfl
@[simp] theorem State.openBus_returned (s : State) : s.openBus.returned = s.returned := rfl
@[simp] theorem State.openBus_env (s : State) : s.openBus.env = s.env := rfl
@[simp] theorem State.openBus_draws (s : State) : s.openBus.draws = s.draws := rfl
@[simp] theorem State.openBus_par (s : State) : s.openBus.par = s.par := rfl

@[simp] theorem State.closeBus_mem (s : State) : s.closeBus.mem = s.mem := rfl
@[simp] theorem State.closeBus_rxfifo (s : State) : s.closeBus.rxfifo = s.rxfifo := rfl
@[simp] theorem State.closeBus_txfifo (s : State) : s.closeBus.txfifo = s.txfifo := rfl
@[simp] theorem State.closeBus_chipState (s : State) : s.closeBus.chipState = s.chipState := rfl
@[simp] theorem State.closeBus_goal (s : State) : s.closeBus.goal = s.goal := rfl
@[simp] theorem State.closeBus_ready (s : State) : s.closeBus.ready = s.ready := rfl
@[simp] theorem State.closeBus_tdec (s : State) : s.closeBus.tdec = .closed := rfl
@[simp] theorem State.closeBus_spiInited (s : State) : s.closeBus.spiInited = s.spiInited := rfl
@[simp] theorem State.closeBus_csn (s : State) : s.closeBus.csn = true := rfl
@[simp] theorem State.closeBus_dir (s : State) : s.closeBus.dir = s.dir := rfl
@[simp] theorem State.closeBus_armed (s : State) : s.closeBus.armed = s.armed := rfl
@[simp] theorem State.closeBus_wakeSlot (s : State) : s.closeBus.wakeSlot = s.wakeSlot := rfl
@[simp] theorem State.closeBus_wakeDir (s : State) : s.closeBus.wakeDir = s.wakeDir := rfl
@[simp] theorem State.closeBus_sleeping (s : State) : s.closeBus.sleeping = s.sleeping := rfl
@[simp] theorem State.closeBus_phase (s : State) : s.closeBus.phase = s.phase := rfl
@[simp] theorem State.closeBus_reading (s : State) : s.closeBus.reading = s.reading := rfl
@[simp] theorem State.closeBus_payload (s : State) : s.closeBus.payload = s.payload := rfl
@[simp] theorem State.closeBus_rxcount (s : State) : s.closeBus.rxcount = s.rxcount := rfl
@[simp] theorem State.closeBus_lastStatus (s : State) : s.closeBus.lastStatus = s.lastStatus := rfl
@[simp] theorem State.closeBus_err (s : State) : s.closeBus.err = s.err := rfl
@[simp] theorem State.closeBus_hostOut (s : State) : s.closeBus.hostOut = s.hostOut := rfl
@[simp] theorem State.closeBus_tickSlot (s : State) : s.closeBus.tickSlot = s.tickSlot := rfl
@[simp] theorem State.closeBus_wireLog (s : State) : s.closeBus.wireLog = s.wireLog := rfl
@[simp] theorem State.closeBus_waitOn (s : State) : s.closeBus.waitOn = s.waitOn := rfl
@[simp] theorem State.closeBus_swapUsed (s : State) : s.closeBus.swapUsed = s.swapUsed := rfl
@[simp] theorem State.closeBus_airOut (s : State) : s.closeBus.airOut = s.airOut := rfl
@[simp] theorem State.closeBus_request (s : State) : s.closeBus.request = s.request := rfl
@[simp] theorem State.closeBus_returned (s : State) : s.closeBus.returned = s.returned := rfl
@[simp] theorem State.closeBus_env (s : State) : s.closeBus.env = s.env := rfl
@[simp] theorem State.closeBus_draws (s : State) : s.closeBus.draws = s.draws := rfl
@[simp] theorem State.closeBus_par (s : State) : s.closeBus.par = s.par := rfl

@[simp] theorem State.withTdec_mem (s : State) (t : Tdec) : (s.withTdec t).mem = s.mem := rfl
@[simp] theorem State.withTdec_rxfifo (s : State) (t : Tdec) : (s.withTdec t).rxfifo = s.rxfifo := rfl
@[simp] theorem State.withTdec_txfifo (s : State) (t : Tdec) : (s.withTdec t).txfifo = s.txfifo := rfl
@[simp] theorem State.withTdec_chipState (s : State) (t : Tdec) : (s.withTdec t).chipState = s.chipState := rfl
@[simp] theorem State.withTdec_goal (s : State) (t : Tdec) : (s.withTdec t).goal = s.goal := rfl
@[simp] theorem State.withTdec_ready (s : State) (t : Tdec) : (s.withTdec t).ready = s.ready := rfl
@[simp] theorem State.withTdec_tdec (s : State) (t : Tdec) : (s.withTdec t).tdec = t := rfl
@[simp] theorem State.withTdec_spiInited (s : State) (t : Tdec) : (s.withTdec t).spiInited = s.spiInited := rfl
@[simp] theorem State.withTdec_csn (s : State) (t : Tdec) : (s.withTdec t).csn = s.csn := rfl
@[simp] theorem State.withTdec_dir (s : State) (t : Tdec) : (s.withTdec t).dir = s.dir := rfl
@[simp] theorem State.withTdec_armed (s : State) (t : Tdec) : (s.withTdec t).armed = s.armed := rfl
@[simp] theorem State.withTdec_wakeSlot (s : State) (t : Tdec) : (s.withTdec t).wakeSlot = s.wakeSlot := rfl
@[simp] theorem State.withTdec_wakeDir (s : State) (t : Tdec) : (s.withTdec t).wakeDir = s.wakeDir := rfl
@[simp] theorem State.withTdec_sleeping (s : State) (t : Tdec) : (s.withTdec t).sleeping = s.sleeping := rfl
@[simp] theorem State.withTdec_phase (s : State) (t : Tdec) : (s.withTdec t).phase = s.phase := rfl
@[simp] theorem State.withTdec_reading (s : State) (t : Tdec) : (s.withTdec t).reading = s.reading := rfl
@[simp] theorem State.withTdec_payload (s : State) (t : Tdec) : (s.withTdec t).payload = s.payload := rfl
@[simp] theorem State.withTdec_rxcount (s : State) (t : Tdec) : (s.withTdec t).rxcount = s.rxcount := rfl
@[simp] theorem State.withTdec_lastStatus (s : State) (t : Tdec) : (s.withTdec t).lastStatus = s.lastStatus := rfl
@[simp] theorem State.withTdec_err (s : State) (t : Tdec) : (s.withTdec t).err = s.err := rfl
@[simp] theorem State.withTdec_hostOut (s : State) (t : Tdec) : (s.withTdec t).hostOut = s.hostOut := rfl
@[simp] theorem State.withTdec_tickSlot (s : State) (t : Tdec) : (s.withTdec t).tickSlot = s.tickSlot := rfl
@[simp] theorem State.withTdec_wireLog (s : State) (t : Tdec) : (s.withTdec t).wireLog = s.wireLog := rfl
@[simp] theorem State.withTdec_waitOn (s : State) (t : Tdec) : (s.withTdec t).waitOn = s.waitOn := rfl
@[simp] theorem State.withTdec_swapUsed (s : State) (t : Tdec) : (s.withTdec t).swapUsed = s.swapUsed := rfl
@[simp] theorem State.withTdec_airOut (s : State) (t : Tdec) : (s.withTdec t).airOut = s.airOut := rfl
@[simp] theorem State.withTdec_request (s : State) (t : Tdec) : (s.withTdec t).request = s.request := rfl
@[simp] theorem State.withTdec_returned (s : State) (t : Tdec) : (s.withTdec t).returned = s.returned := rfl
@[simp] theorem State.withTdec_env (s : State) (t : Tdec) : (s.withTdec t).env = s.env := rfl
@[simp] theorem State.withTdec_draws (s : State) (t : Tdec) : (s.withTdec t).draws = s.draws := rfl
@[simp] theorem State.withTdec_par (s : State) (t : Tdec) : (s.withTdec t).par = s.par := rfl

end Sys2Proof.Machine
end

