-- ==== Sys2Proof/Laws/Frame.lean ====
section
/-! SUPPORT. What one transaction can do, said once: `Within s t` holds of every state `t` that a transaction started at `s`
passes through, whatever the other agents do meanwhile. And the induction over a transaction, packaged once
(`transact_preserves`): a predicate that every atomic action keeps, the whole transaction keeps. -/

namespace Sys2Proof.Machine

/-- What no action inside a transaction changes (R54, R149, R182): the sequencer's own registers and the parameters. The wire
log only grows, the target never becomes less ready than it was unless a reset strobe clears it, and no agent arms the
detector or puts the sequencer to sleep. -/
structure Within (s t : State) : Prop where
  spiInited : t.spiInited = s.spiInited
  dir : t.dir = s.dir
  phase : t.phase = s.phase
  reading : t.reading = s.reading
  payload : t.payload = s.payload
  rxcount : t.rxcount = s.rxcount
  err : t.err = s.err
  hostOut : t.hostOut = s.hostOut
  waitOn : t.waitOn = s.waitOn
  request : t.request = s.request
  returned : t.returned = s.returned
  par : t.par = s.par
  armed : t.armed = true → s.armed = true
  sleeping : t.sleeping = true → s.sleeping = true
  wireLog : ∃ l, t.wireLog = s.wireLog ++ l
  draws : s.draws ≤ t.draws

@[refl] theorem Within.refl (s : State) : Within s s := by
  constructor <;> first | rfl | exact id | exact ⟨[], by simp⟩

theorem Within.trans {s t u : State} (h : Within s t) (k : Within t u) : Within s u where
  spiInited := k.spiInited.trans h.spiInited
  dir := k.dir.trans h.dir
  phase := k.phase.trans h.phase
  reading := k.reading.trans h.reading
  payload := k.payload.trans h.payload
  rxcount := k.rxcount.trans h.rxcount
  err := k.err.trans h.err
  hostOut := k.hostOut.trans h.hostOut
  waitOn := k.waitOn.trans h.waitOn
  request := k.request.trans h.request
  returned := k.returned.trans h.returned
  par := k.par.trans h.par
  armed := h.armed ∘ k.armed
  sleeping := h.sleeping ∘ k.sleeping
  wireLog := by
    obtain ⟨l, hl⟩ := h.wireLog
    obtain ⟨m, hm⟩ := k.wireLog
    exact ⟨l ++ m, by rw [hm, hl, List.append_assoc]⟩
  draws := Nat.le_trans h.draws k.draws

/-- What an agent's step leaves alone beside what `Within` says (R286, R54): memory, the target's decoder and chip select,
the log, the draws, `last_status` and the environment's choices; and a ready target stays ready (R126, R288). -/
structure AgentFrame (s t : State) : Prop where
  mem : t.mem = s.mem
  tdec : t.tdec = s.tdec
  csn : t.csn = s.csn
  lastStatus : t.lastStatus = s.lastStatus
  wireLog : t.wireLog = s.wireLog
  env : t.env = s.env
  draws : t.draws = s.draws
  ready : s.ready = true → t.ready = true

/-- Interrupt entry writes only `armed`, `wake_dir`, `wake_slot` and `sleeping` (R54, R312). -/
theorem completionHandler_cases (s : State) :
    (s.armed = false ∧ completionHandler s = s) ∨
    (s.armed = true ∧ s.sleeping = true ∧
      completionHandler s = { s with armed := false, wakeDir := wakeOfDir s.dir, sleeping := false }) ∨
    (s.armed = true ∧ s.sleeping = false ∧
      completionHandler s = { s with armed := false, wakeDir := wakeOfDir s.dir, wakeSlot := true }) := by
  unfold completionHandler
  split
  · rename_i h
    split
    · rename_i h2; exact .inr (.inl ⟨h, h2, rfl⟩)
    · rename_i h2; exact .inr (.inr ⟨h, by simpa using h2, rfl⟩)
  · rename_i h; exact .inl ⟨by simpa using h, rfl⟩

theorem completionEvent_frame (s : State) : Within s (completionEvent s) ∧ AgentFrame s (completionEvent s) := by
  unfold completionEvent
  split
  · exact ⟨.refl s, by constructor <;> first | rfl | exact id⟩
  · rcases completionHandler_cases s with ⟨_, h⟩ | ⟨ha, hs, h⟩ | ⟨ha, hs, h⟩ <;> rw [h] <;>
      constructor <;> constructor <;> first | rfl | exact id | exact ⟨[], by simp⟩ | simp_all

theorem completionEvent_target (s : State) :
    (completionEvent s).chipState = s.chipState ∧ (completionEvent s).goal = s.goal ∧
    (completionEvent s).rxfifo = s.rxfifo ∧ (completionEvent s).txfifo = s.txfifo ∧
    (completionEvent s).ready = s.ready ∧ (completionEvent s).airOut = s.airOut := by
  unfold completionEvent
  split
  · simp
  · rcases completionHandler_cases s with ⟨_, h⟩ | ⟨ha, hs, h⟩ | ⟨ha, hs, h⟩ <;> rw [h] <;> simp

/-- An agent's step stays within what the agents may touch (R54, R286). -/
theorem agentStep_frame (e : Event) (s : State) : Within s (agentStep e s) ∧ AgentFrame s (agentStep e s) := by
  have base : ∀ t : State, t = s → Within s t ∧ AgentFrame s t := by
    rintro t rfl
    exact ⟨.refl t, by constructor <;> first | rfl | exact id⟩
  have via : ∀ t : State, Within s t → AgentFrame s t →
      Within s (completionEvent t) ∧ AgentFrame s (completionEvent t) := by
    intro t h k
    obtain ⟨h2, k2⟩ := completionEvent_frame t
    exact ⟨h.trans h2, ⟨k2.mem.trans k.mem, k2.tdec.trans k.tdec, k2.csn.trans k.csn, k2.lastStatus.trans k.lastStatus,
      k2.wireLog.trans k.wireLog, k2.env.trans k.env, k2.draws.trans k.draws, k2.ready ∘ k.ready⟩⟩
  cases e with
  | settleOther =>
    simp only [agentStep, settleOther]
    split
    · constructor <;> constructor <;> first | rfl | exact id | exact ⟨[], by simp⟩
    · exact base _ rfl
  | settleGoal =>
    simp only [agentStep, settleGoal]
    split
    · split <;> constructor <;> constructor <;> first | rfl | exact id | exact ⟨[], by simp⟩
    · exact base _ rfl
  | rxDone p ok =>
    simp only [agentStep, rxDone]
    split
    · split
      · split
        · constructor <;> constructor <;> first | rfl | exact id | exact ⟨[], by simp⟩
        · apply via <;> constructor <;> first | rfl | exact id | exact ⟨[], by simp⟩
      · apply via <;> constructor <;> first | rfl | exact id | exact ⟨[], by simp⟩
    · exact base _ rfl
  | txDone =>
    simp only [agentStep, txDone]
    split
    · apply via <;> constructor <;> first | rfl | exact id | exact ⟨[], by simp⟩
    · exact base _ rfl
  | txUnderflow raise =>
    simp only [agentStep, txUnderflow]
    split
    · split
      · apply via <;> constructor <;> first | rfl | exact id | exact ⟨[], by simp⟩
      · constructor <;> constructor <;> first | rfl | exact id | exact ⟨[], by simp⟩
    · exact base _ rfl
  | becomeReady =>
    constructor <;> constructor <;>
      first | rfl | exact id | exact ⟨[], by simp [agentStep, becomeReady]⟩ | exact fun _ => rfl
  | tick =>
    constructor <;> constructor <;>
      first | rfl | exact id | exact ⟨[], by simp [agentStep, tickHandler]⟩ |
        simp +contextual [agentStep, tickHandler]
  | conversionDone =>
    constructor <;> constructor <;>
      first | rfl | exact id | exact ⟨[], by simp [agentStep, conversionHandler]⟩ |
        simp +contextual [agentStep, conversionHandler]
  | expire => exact base _ rfl
  | stall => exact base _ rfl
  | go => exact base _ rfl

/-- The state a wait ends in, if it ends. -/
def WaitResult.ended (P : State → Prop) : WaitResult → Prop
  | .holds t => P t
  | .expired t => P t
  | .forever => True

/-- A predicate the agents keep, the ready wait keeps (R121). -/
theorem readyWait_preserves (P : State → Prop) (ha : ∀ e s, P s → P (agentStep e s)) (he : ∀ es s, P s → P (s.withEnv es)) :
    ∀ es s, P s → (readyWait es s).ended P := by
  intro es
  induction es with
  | nil =>
    intro s h
    simp only [readyWait]
    split
    · exact he _ _ h
    split
    · exact he _ _ h
    · trivial
  | cons e es ih =>
    intro s h
    simp only [readyWait]
    split
    · exact he _ _ h
    split
    · exact he _ _ h
    · exact ih _ (ha e s h)

/-- A predicate the agents keep, the per-byte wait keeps (R123). -/
theorem byteWait_preserves (P : State → Prop) (ha : ∀ e s, P s → P (agentStep e s)) (he : ∀ es s, P s → P (s.withEnv es)) :
    ∀ es s, P s → (byteWait es s).ended P := by
  intro es
  induction es with
  | nil => intro s h; exact he _ _ h
  | cons e es ih =>
    intro s h
    simp only [byteWait]
    split
    · exact he _ _ h
    split
    · exact he _ _ h
    split
    · split
      · exact he _ _ h
      · trivial
    · exact ih _ (ha e s h)

theorem agentsAct_preserves (P : State → Prop) (ha : ∀ e s, P s → P (agentStep e s)) (he : ∀ es s, P s → P (s.withEnv es)) :
    ∀ es s, P s → P (agentsAct es s) := by
  intro es
  induction es with
  | nil => intro s h; exact he _ _ h
  | cons e es ih =>
    intro s h
    simp only [agentsAct]
    split
    · exact he _ _ h
    · exact ih _ (ha e s h)

/-- The state an operation ends in, with `Ok` or with `Err`. -/
def OpResult.ended {α : Type} (P : State → Prop) : OpResult α → Prop
  | .ok _ t => P t
  | .err _ t => P t
  | .refused _ => True
  | .stuck _ => True

theorem OpResult.ended_andThen {α β : Type} (P : State → Prop) (x : OpResult α) (f : α → State → OpResult β)
    (h : x.ended P) (hf : ∀ a s, P s → (f a s).ended P) : (x.andThen f).ended P := by
  cases x with
  | ok a s => exact hf a s h
  | err e s => exact h
  | refused r => trivial
  | stuck k => trivial

/-- The atomic actions of a transaction keep `P`: an agent's step, `select`, the exchange of one byte, `deselect`. -/
structure KeptByActions (P : State → Prop) : Prop where
  agent : ∀ e s, P s → P (agentStep e s)
  env : ∀ es s, P s → P (s.withEnv es)
  select : ∀ s, P s → P (s.openBus.logWire .select)
  deselect : ∀ s, P s → P (s.closeBus.logWire .deselect)
  byte : ∀ b v s t, P s → targetExchange b s = .ok (v, t) → P (t.logWire (.byte b v))

theorem abort_preserves (P : State → Prop) (k : KeptByActions P) (s : State) (h : P s) : P s.abort := by
  unfold State.abort
  split
  · exact h
  · exact k.deselect s h

theorem exchangeBytes_preserves (P : State → Prop) (k : KeptByActions P) :
    ∀ tx s, P s → (exchangeBytes tx s).ended P := by
  intro tx
  induction tx with
  | nil => exact fun s h => h
  | cons b bs ih =>
    intro s h
    have hw := byteWait_preserves P k.agent k.env s.env s h
    simp only [exchangeBytes]
    split
    · trivial
    · rename_i t ht; rw [ht] at hw; exact abort_preserves P k t hw
    · rename_i t ht
      rw [ht] at hw
      split
      · trivial
      · rename_i v u hu
        exact OpResult.ended_andThen P _ _ (ih _ (k.byte _ _ _ _ hw hu)) fun _ _ h => h

/-- The induction over a transaction, packaged once: what every atomic action keeps, the transaction keeps. -/
theorem transact_preserves (P : State → Prop) (k : KeptByActions P) (tx : List Byte) (s : State) (h : P s) :
    (transact tx s).ended P := by
  unfold transact
  apply OpResult.ended_andThen
  · unfold select
    split
    · split
      · have hw := readyWait_preserves P k.agent k.env s.env _ (k.select s h)
        split
        · rename_i t ht; rw [ht] at hw; exact hw
        · rename_i t ht; rw [ht] at hw; exact abort_preserves P k t hw
        · trivial
      · trivial
    · trivial
  intro _ s1 h1
  apply OpResult.ended_andThen
  · unfold exchange
    split
    · split
      · trivial
      split
      · trivial
      · exact exchangeBytes_preserves P k tx s1 h1
    · trivial
  intro rx s2 h2
  apply OpResult.ended_andThen
  · unfold deselect
    split
    · split
      · trivial
      · exact k.deselect _ (agentsAct_preserves P k.agent k.env _ _ h2)
    · trivial
  exact fun _ _ h3 => h3

/-- What every atomic action keeps, and the write of `last_status`, an operation keeps. -/
theorem operation_preserves (P : State → Prop) (k : KeptByActions P)
    (hl : ∀ st s, P s → P { s with lastStatus := Datum.of st }) (keep : Bool) (tx : List Byte) (s : State) (h : P s) :
    (operation keep tx s).ended P := by
  unfold operation
  apply OpResult.ended_andThen _ _ _ (transact_preserves P k tx s h)
  intro rx t ht
  cases rx with
  | nil => trivial
  | cons st vs => exact hl st t ht

/-- A state that differs from `s` in the target's registers and the draw counter alone. -/
def TargetShape (s t : State) : Prop :=
  ∃ mem rx tx cs g rd td sw dr, s.draws ≤ dr ∧
    t = { s with mem := mem, rxfifo := rx, txfifo := tx, chipState := cs, goal := g, ready := rd, tdec := td,
                 swapUsed := sw, draws := dr }

/-- A strobe writes the target's registers alone (R182). -/
theorem applyStrobe_shape {n : StrobeName} {s t : State} (h : applyStrobe n s = .ok t) : TargetShape s t := by
  have same : TargetShape s s := ⟨_, _, _, _, _, _, _, _, _, Nat.le_refl _, rfl⟩
  cases n <;> simp only [applyStrobe, Except.ok.injEq, reduceCtorEq] at h
  · subst h; exact ⟨_, _, _, _, _, _, _, _, _, Nat.le_add_right _ _, rfl⟩
  · subst h
    unfold strobeScal
    split
    · exact ⟨_, _, _, _, _, _, _, _, _, Nat.le_refl _, rfl⟩
    · exact same
  · unfold strobeSrx at h
    split at h
    · cases h; exact ⟨_, _, _, _, _, _, _, _, _, Nat.le_refl _, rfl⟩
    · split at h
      · cases h
      · cases h; exact ⟨_, _, _, _, _, _, _, _, _, Nat.le_refl _, rfl⟩
    · split at h
      · cases h
      · cases h; exact ⟨_, _, _, _, _, _, _, _, _, Nat.le_refl _, rfl⟩
    all_goals first | (cases h; exact same) | cases h
  · unfold strobeStx at h
    split at h
    · cases h; exact ⟨_, _, _, _, _, _, _, _, _, Nat.le_refl _, rfl⟩
    · split at h
      · cases h
      · cases h; exact ⟨_, _, _, _, _, _, _, _, _, Nat.le_refl _, rfl⟩
    · split at h
      · cases h
      · cases h; exact ⟨_, _, _, _, _, _, _, _, _, Nat.le_refl _, rfl⟩
    all_goals first | (cases h; exact same) | cases h
  · subst h
    unfold strobeSidle
    split
    · exact same
    · exact ⟨_, _, _, _, _, _, _, _, _, Nat.le_refl _, rfl⟩
  · subst h; exact ⟨_, _, _, _, _, _, _, _, _, Nat.le_refl _, rfl⟩
  · subst h; exact ⟨_, _, _, _, _, _, _, _, _, Nat.le_refl _, rfl⟩
  · subst h; exact same

/-- A read data byte can only shorten the receive queue and use a draw (R67, R144). -/
theorem readByte_shape (a : Nat) (s : State) : TargetShape s (readByte a s).2 := by
  unfold readByte
  split
  · split
    · exact ⟨_, _, _, _, _, _, _, _, _, Nat.le_add_right _ 1, rfl⟩
    · exact ⟨_, _, _, _, _, _, _, _, _, Nat.le_refl _, rfl⟩
  · split
    · exact ⟨_, _, _, _, _, _, _, _, _, Nat.le_refl _, rfl⟩
    · exact ⟨_, _, _, _, _, _, _, _, _, Nat.le_add_right _ 1, rfl⟩

/-- A status-register read can only use a draw (R67, R147). -/
theorem statusReg_shape (a : Nat) (s : State) : TargetShape s (statusReg a s).2 := by
  unfold statusReg
  split
  · exact ⟨_, _, _, _, _, _, _, _, _, Nat.le_refl _, rfl⟩
  · exact ⟨_, _, _, _, _, _, _, _, _, Nat.le_add_right _ 1, rfl⟩

/-- A write data byte changes memory at its address or appends to the transmit queue (R68, R145). -/
theorem writeByte_cases {a : Nat} {b : Byte} {s t : State} (h : writeByte a b s = .ok t) :
    (a = fifoAddr ∧ s.txfifo.length < s.par.fifoDepth ∧ t = { s with txfifo := s.txfifo ++ [b] }) ∨
    (a ≠ fifoAddr ∧ t = { s with mem := s.mem.write a b }) := by
  unfold writeByte at h
  split at h
  · split at h
    · cases h; exact .inl ⟨‹_›, ‹_›, rfl⟩
    · cases h
  · cases h; exact .inr ⟨‹_›, rfl⟩

theorem TargetShape.withTdec {s t : State} (h : TargetShape s t) (td : Tdec) : TargetShape s (t.withTdec td) := by
  obtain ⟨m, rx, tx, cs, g, rd, _, sw, dr, hd, rfl⟩ := h
  exact ⟨m, rx, tx, cs, g, rd, td, sw, dr, hd, rfl⟩

theorem TargetShape.bump {s t : State} (h : TargetShape s t) (k : Nat) : TargetShape s (t.bumpDraws k) := by
  obtain ⟨m, rx, tx, cs, g, rd, td, sw, dr, hd, rfl⟩ := h
  exact ⟨m, rx, tx, cs, g, rd, td, sw, dr + k, Nat.le_trans hd (Nat.le_add_right _ _), rfl⟩

/-- What the target's exchange of one byte can do: it writes the target's registers and uses draws, and nothing else (R54,
R66, R149). -/
theorem targetExchange_shape {b v : Byte} {s t : State} (h : targetExchange b s = .ok (v, t)) : TargetShape s t := by
  have same : TargetShape s s := ⟨_, _, _, _, _, _, _, _, _, Nat.le_refl _, rfl⟩
  unfold targetExchange at h
  split at h
  · cases h
  · simp only [exchangeHeader] at h
    split at h
    · cases h
    · split at h
      · rename_i s2 hs
        cases h
        obtain ⟨m, rx, tx, cs, g, rd, td, sw, dr, hd, rfl⟩ := applyStrobe_shape hs
        exact ⟨m, rx, tx, cs, g, rd, _, sw, dr, Nat.le_trans (Nat.le_add_right _ 1) hd, rfl⟩
      · cases h
    · cases h; exact (same.bump 1).withTdec _
    · cases h; exact (same.bump 1).withTdec _
  · rename_i k a n _
    have write : ∀ k, (match writeByte a b s with
        | .ok s1 => Except.ok (Config.drawByte s1.draws, (s1.bumpDraws 1).withTdec (afterData k a n))
        | .error r => .error r) = Except.ok (v, t) → TargetShape s t := by
      intro k h
      split at h
      · rename_i s1 hs
        cases h
        rcases writeByte_cases hs with ⟨_, _, rfl⟩ | ⟨_, rfl⟩ <;>
          exact ⟨_, _, _, _, _, _, _, _, _, Nat.le_add_right _ 1, rfl⟩
      · cases h
    cases k
    · cases h; exact (readByte_shape a s).withTdec _
    · cases h; exact (readByte_shape a s).withTdec _
    · exact write _ h
    · exact write _ h
    · cases h; exact (statusReg_shape a s).withTdec _
  · cases h
  · cases h

theorem TargetShape.within {s t : State} (h : TargetShape s t) : Within s t := by
  obtain ⟨m, rx, tx, cs, g, rd, td, sw, dr, hd, rfl⟩ := h
  constructor <;> first | rfl | exact id | exact ⟨[], by simp⟩ | exact hd

/-- Every atomic action stays `Within`. -/
theorem within_kept (s : State) : KeptByActions (Within s) where
  agent e _ h := h.trans (agentStep_frame e _).1
  env _ _ h := h.trans (by constructor <;> first | rfl | exact id | exact ⟨[], by simp⟩)
  select _ h := h.trans (by constructor <;> first | rfl | exact id | exact ⟨[.select], by simp⟩)
  deselect _ h := h.trans (by constructor <;> first | rfl | exact id | exact ⟨[.deselect], by simp⟩)
  byte b v _ _ h hx := (h.trans (targetExchange_shape hx).within).trans
    (by constructor <;> first | rfl | exact id | exact ⟨[.byte b v], by simp⟩)

/-- What one operation of the register interface can do (R54, R149, R182): it stays `Within`. -/
theorem operation_within (keep : Bool) (tx : List Byte) (s : State) : (operation keep tx s).ended (Within s) :=
  operation_preserves _ (within_kept s)
    (fun _ _ h => h.trans (by constructor <;> first | rfl | exact id | exact ⟨[], by simp⟩))
    keep tx s (.refl s)

end Sys2Proof.Machine
end

