-- ==== Sys2Proof/Laws/Header.lean ====
section
/-! SUPPORT. What the target decodes from the headers that the bridge assembles (R92 to R99), and that the bridge's headers
are the encoder's. -/

namespace Sys2Proof.Machine

/-- The fields of an assembled header are the ones it was assembled from (R90, R99). -/
theorem headerOf_fields (r b : Bool) (a : Addr) :
    headerRead (headerOf r b a) = r ∧ headerBurst (headerOf r b a) = b ∧ headerAddr (headerOf r b a) = a := by
  revert r b a; decide

/-- The two ways to assemble a header agree: `addr | K` (R99) and the three fields (R90). -/
theorem header_eq_headerOf (a : Addr) :
    header a.toNat kWriteSingle = headerOf false false a ∧ header a.toNat kBurstWrite = headerOf false true a ∧
    header a.toNat kReadSingle = headerOf true false a ∧ header a.toNat kBurstRead = headerOf true true a := by
  revert a; decide

/-- A strobe's header as the bridge sends it is the encoder's (R93). -/
theorem strobeByte_eq_strobeHeader (c : StrobeCodes) (n : StrobeName) (r : Bool) :
    strobeByte c n r = strobeHeader c n r := by
  cases r
  · exact (header_eq_headerOf (c.of n)).1
  · exact (header_eq_headerOf (c.of n)).2.2.1

/-! ### Strobe codes -/

theorem mem_allStrobes (n : StrobeName) : n ∈ StrobeName.all := by cases n <;> decide

/-- A choice of `STROBE_CODE` that R95 admits is injective. -/
theorem strobeCodes_wf_injective {c : StrobeCodes} (h : c.wf = true) {n m : StrobeName} (e : c.of n = c.of m) : n = m := by
  simp only [StrobeCodes.wf, Bool.and_eq_true, List.all_eq_true, Bool.or_eq_true, Bool.not_eq_true',
    decide_eq_false_iff_not, decide_eq_true_eq] at h
  exact (h.2 n (mem_allStrobes n) m (mem_allStrobes m)).resolve_right (fun hne => hne e)

/-- A choice of `STROBE_CODE` that R95 admits has its range in 0x30 to 0x3D. -/
theorem strobeCodes_wf_range {c : StrobeCodes} (h : c.wf = true) (n : StrobeName) :
    0x30 ≤ (c.of n).toNat ∧ (c.of n).toNat ≤ 0x3D := by
  simp only [StrobeCodes.wf, Bool.and_eq_true, List.all_eq_true, decide_eq_true_eq] at h
  exact h.1 n (mem_allStrobes n)

/-- `strobeOfCode` inverts `STROBE_CODE` (R96). -/
theorem strobeOfCode_of {c : StrobeCodes} (h : c.wf = true) (n : StrobeName) : strobeOfCode c (c.of n) = some n := by
  cases hf : strobeOfCode c (c.of n) with
  | none =>
    have := List.find?_eq_none.1 hf n (mem_allStrobes n)
    simp at this
  | some m =>
    have := List.find?_some hf
    rw [strobeCodes_wf_injective h (by simpa using this) (n := m)]

/-- Thirteen codes leave one of the fourteen of 0x30 to 0x3D to no strobe (R95). -/
theorem unassigned_spec (c : StrobeCodes) :
    0x30 ≤ c.unassigned.toNat ∧ c.unassigned.toNat ≤ 0x3D ∧ strobeOfCode c c.unassigned = none := by
  unfold StrobeCodes.unassigned
  generalize hl : (List.range 14).map (fun k => (BitVec.ofNat 6 (0x30 + k) : Addr)) = l
  cases hf : l.find? (fun a => (strobeOfCode c a).isNone) with
  | some a =>
    have h1 := List.find?_some hf
    have h2 : ∀ a ∈ l, 0x30 ≤ a.toNat ∧ a.toNat ≤ 0x3D := by subst hl; decide
    have h3 := h2 a (List.mem_of_find?_eq_some hf)
    exact ⟨h3.1, h3.2, by simpa using h1⟩
  | none =>
    have hsub : l ⊆ StrobeName.all.map c.of := by
      intro a ha
      have h1 : ¬ (strobeOfCode c a).isNone = true := by simpa using List.find?_eq_none.1 hf a ha
      obtain ⟨n, hn⟩ := Option.ne_none_iff_exists'.1 (by simpa using h1 : strobeOfCode c a ≠ none)
      have h2 := List.find?_some (show StrobeName.all.find? (fun n => c.of n == a) = some n from hn)
      exact List.mem_map.2 ⟨n, mem_allStrobes n, by simpa using h2⟩
    have hnd : l.Nodup := by subst hl; decide
    have := (List.subperm_of_subset hnd hsub).length_le
    subst hl
    simp [StrobeName.all] at this

/-! ### Decoding of assembled headers -/

theorem decodeHeader_cfg (c : StrobeCodes) (a : Addr) (h : a.toNat ≤ 0x2E) (r b : Bool) :
    decodeHeader c (headerOf r b a) = .access (accessKind r b) a.toNat := by
  obtain ⟨h1, h2, h3⟩ := headerOf_fields r b a
  simp [decodeHeader, h1, h2, h3, h]

theorem decodeHeader_burst_status (c : StrobeCodes) (a : Addr) (h : 0x30 ≤ a.toNat) (h2 : a.toNat ≤ 0x3D) (r : Bool) :
    decodeHeader c (headerOf r true a) = if r then .statusRead a.toNat else .reserved := by
  obtain ⟨h3, h4, h5⟩ := headerOf_fields r true a
  simp only [decodeHeader, h3, h4, h5]
  rw [if_neg (by omega), if_neg (by omega), if_pos h2]
  simp

theorem decodeHeader_single_code (c : StrobeCodes) (a : Addr) (h : 0x30 ≤ a.toNat) (h2 : a.toNat ≤ 0x3D) (r : Bool) :
    decodeHeader c (headerOf r false a) =
      match strobeOfCode c a with
      | some n => .strobe n r
      | none => .reserved := by
  obtain ⟨h3, h4, h5⟩ := headerOf_fields r false a
  simp only [decodeHeader, h3, h4, h5]
  rw [if_neg (by omega), if_neg (by omega), if_pos h2, if_neg (by simp)]
  all_goals rfl

/-- A strobe's header decodes to the strobe, with either value of bit 7 (R93, R94, R96). -/
theorem decodeHeader_strobe {c : StrobeCodes} (h : c.wf = true) (n : StrobeName) (r : Bool) :
    decodeHeader c (strobeByte c n r) = .strobe n r := by
  rw [strobeByte_eq_strobeHeader, strobeHeader,
    decodeHeader_single_code c _ (strobeCodes_wf_range h n).1 (strobeCodes_wf_range h n).2, strobeOfCode_of h]

theorem ofNat_toNat_addr {a : Nat} (h : a ≤ 0x3F) : (BitVec.ofNat 6 a).toNat = a := by
  simp only [BitVec.toNat_ofNat]; omega

theorem decodeHeader_write_cfg (c : StrobeCodes) (a : Nat) (h : a ≤ 0x2E) :
    decodeHeader c (header a kWriteSingle) = .access .ws a := by
  have e := ofNat_toNat_addr (a := a) (by omega)
  have := decodeHeader_cfg c (BitVec.ofNat 6 a) (by omega) false false
  rwa [← (header_eq_headerOf _).1, e] at this

theorem decodeHeader_burst_write_cfg (c : StrobeCodes) (a : Nat) (h : a ≤ 0x2E) :
    decodeHeader c (header a kBurstWrite) = .access .wb a := by
  have e := ofNat_toNat_addr (a := a) (by omega)
  have := decodeHeader_cfg c (BitVec.ofNat 6 a) (by omega) false true
  rwa [← (header_eq_headerOf _).2.1, e] at this

theorem decodeHeader_read_cfg (c : StrobeCodes) (a : Nat) (h : a ≤ 0x2E) :
    decodeHeader c (header a kReadSingle) = .access .rs a := by
  have e := ofNat_toNat_addr (a := a) (by omega)
  have := decodeHeader_cfg c (BitVec.ofNat 6 a) (by omega) true false
  rwa [← (header_eq_headerOf _).2.2.1, e] at this

theorem decodeHeader_burst_read_cfg (c : StrobeCodes) (a : Nat) (h : a ≤ 0x2E) :
    decodeHeader c (header a kBurstRead) = .access .rb a := by
  have e := ofNat_toNat_addr (a := a) (by omega)
  have := decodeHeader_cfg c (BitVec.ofNat 6 a) (by omega) true true
  rwa [← (header_eq_headerOf _).2.2.2, e] at this

theorem decodeHeader_status (c : StrobeCodes) (a : Nat) (h : 0x30 ≤ a) (h2 : a ≤ 0x3D) :
    decodeHeader c (header a kBurstRead) = .statusRead a := by
  have e := ofNat_toNat_addr (a := a) (by omega)
  have := decodeHeader_burst_status c (BitVec.ofNat 6 a) (by omega) (by omega) true
  rwa [← (header_eq_headerOf _).2.2.2, e] at this

@[simp] theorem decodeHeader_write_patable (c : StrobeCodes) :
    decodeHeader c (header patableAddr kWriteSingle) = .access .ws patableAddr := rfl

@[simp] theorem decodeHeader_read_patable (c : StrobeCodes) :
    decodeHeader c (header patableAddr kReadSingle) = .access .rs patableAddr := rfl

@[simp] theorem decodeHeader_write_fifo (c : StrobeCodes) :
    decodeHeader c (header fifoAddr kWriteSingle) = .access .ws fifoAddr := rfl

@[simp] theorem decodeHeader_burst_write_fifo (c : StrobeCodes) :
    decodeHeader c (header fifoAddr kBurstWrite) = .access .wb fifoAddr := rfl

@[simp] theorem decodeHeader_read_fifo (c : StrobeCodes) :
    decodeHeader c (header fifoAddr kReadSingle) = .access .rs fifoAddr := rfl

@[simp] theorem decodeHeader_burst_read_fifo (c : StrobeCodes) :
    decodeHeader c (header fifoAddr kBurstRead) = .access .rb fifoAddr := rfl

end Sys2Proof.Machine
end

