-- ==== Sys2Proof/Laws/Quiet.lean ====
section
/-! SUPPORT. Transactions on a ready target while no other agent acts (the environment's choices are used up): the equations
of `select`, of the exchange of a list of bytes and of a whole operation. -/

namespace Sys2Proof.Machine

theorem busReady_iff (s : State) :
    s.busReady = true ↔ s.spiInited = true ∧ s.csn = true ∧ s.tdec = .closed ∧ s.ready = true := by
  simp [State.busReady, State.busIdle, and_assoc]

theorem State.withEnv_self (s : State) : s.withEnv s.env = s := rfl

theorem State.withEnv_nil {s : State} (h : s.env = []) : s.withEnv [] = s := by rw [← h]; rfl

/-- On a ready target `select` returns at once, whatever the environment would still do (R121). -/
theorem select_ready {s : State} (h : s.busReady = true) : select s = .ok () (s.openBus.logWire .select) := by
  obtain ⟨h1, h2, _, h4⟩ := (busReady_iff s).mp h
  have hr : readyLineLow (s.openBus.logWire .select) = true := by simpa [readyLineLow] using h4
  have hw : readyWait s.env (s.openBus.logWire .select) = .holds (s.openBus.logWire .select) := by
    have he : (s.openBus.logWire .select).env = s.env := rfl
    cases hs : s.env with
    | nil => rw [readyWait, if_pos hr, ← hs, ← he, State.withEnv_self]
    | cons e es => rw [readyWait, if_pos hr, ← hs, ← he, State.withEnv_self]
  simp only [select, h1, h2, if_true, hw]

theorem exchangeBytes_nil (s : State) : exchangeBytes [] s = .ok [] s := rfl

/-- One byte while no other agent acts (R123, R127). -/
theorem exchangeBytes_quiet {b v : Byte} {bs : List Byte} {s t : State} (he : s.env = [])
    (hx : targetExchange b s = .ok (v, t)) :
    exchangeBytes (b :: bs) s =
      (exchangeBytes bs (t.logWire (.byte b v))).andThen fun vs w => .ok (v :: vs) w := by
  simp only [exchangeBytes, he, byteWait, State.withEnv_nil he, hx]

/-- One byte whose wait the environment ends with `go`, whatever it would still do (R123, R127). -/
theorem exchangeBytes_go {b v : Byte} {bs : List Byte} {es : List Event} {s t : State} (he : s.env = .go :: es)
    (hx : targetExchange b (s.withEnv es) = .ok (v, t)) :
    exchangeBytes (b :: bs) s =
      (exchangeBytes bs (t.logWire (.byte b v))).andThen fun vs w => .ok (v :: vs) w := by
  simp [exchangeBytes, he, byteWait, hx]

/-- One byte that the target refuses, while no other agent acts. -/
theorem exchangeBytes_refused {b : Byte} {bs : List Byte} {s : State} {r : Refusal} (he : s.env = [])
    (hx : targetExchange b s = .error r) : exchangeBytes (b :: bs) s = .refused r := by
  simp only [exchangeBytes, he, byteWait, State.withEnv_nil he, hx]

/-- A whole operation on a ready target while no other agent acts, from what the exchange of its bytes does (R125). -/
theorem operation_quiet {keep : Bool} {tx : List Byte} {s t : State} {st : Byte} {vs : List Byte}
    (hb : s.busReady = true) (htx : tx ≠ []) (hte : t.env = []) (hti : t.spiInited = true) (htc : t.csn = false)
    (hx : exchangeBytes tx (s.openBus.logWire .select) = .ok (st :: vs) t) :
    operation keep tx s = .ok { status := st, values := if keep then vs else [] }
      { t.closeBus.logWire .deselect with lastStatus := Datum.of st } := by
  obtain ⟨h1, _, _, _⟩ := (busReady_iff s).mp hb
  have hx2 : exchange tx (s.openBus.logWire .select) = .ok (st :: vs) t := by
    simp [exchange, h1, htx, hx]
  have hd : deselect (agentsAct t.env t) = .ok () (t.closeBus.logWire .deselect) := by
    simp [hte, agentsAct, State.withEnv_nil hte, deselect, hti, htc]
  simp only [operation, transact, select_ready hb, OpResult.andThen, hx2, hd]

/-- An operation whose bytes the target refuses is refused. -/
theorem operation_refused {keep : Bool} {tx : List Byte} {s : State} {r : Refusal} (hb : s.busReady = true)
    (htx : tx ≠ []) (hx : exchangeBytes tx (s.openBus.logWire .select) = .refused r) :
    operation keep tx s = .refused r := by
  obtain ⟨h1, _, _, _⟩ := (busReady_iff s).mp hb
  have hx2 : exchange tx (s.openBus.logWire .select) = .refused r := by
    simp [exchange, h1, htx, hx]
  simp only [operation, transact, select_ready hb, OpResult.andThen, hx2]

/-- The header of a register access while the decoder awaits it (R127). -/
theorem targetExchange_access {h : Byte} {s : State} {k : TxnKind} {a : Nat} (ht : s.tdec = .awaitHeader)
    (hd : decodeHeader s.par.strobeCode h = .access k a) :
    targetExchange h s = .ok (statusByte h s, (s.bumpDraws 1).withTdec (.data k (.at a) 0)) := by
  simp only [targetExchange, ht, exchangeHeader, hd]

/-- The header of a status-register read (R127, R147). -/
theorem targetExchange_status {h : Byte} {s : State} {a : Nat} (ht : s.tdec = .awaitHeader)
    (hd : decodeHeader s.par.strobeCode h = .statusRead a) :
    targetExchange h s = .ok (statusByte h s, (s.bumpDraws 1).withTdec (.data .sr (.at a) 0)) := by
  simp only [targetExchange, ht, exchangeHeader, hd]

/-- The header of a strobe the target carries out (R127, R170). -/
theorem targetExchange_strobe {s t : State} {c : StrobeCodes} {n : StrobeName} {r : Bool} (hp : s.par.strobeCode = c)
    (hc : c.wf = true) (ht : s.tdec = .awaitHeader) (hs : applyStrobe n (s.bumpDraws 1) = .ok t) :
    targetExchange (strobeByte c n r) s = .ok (statusByte (strobeByte c n r) s, t.withTdec .done) := by
  subst hp
  simp only [targetExchange, ht, exchangeHeader, decodeHeader_strobe hc, hs]

/-- A strobe on a ready target while no other agent acts, from its effect at the target (R170). -/
theorem strobeFramed_quiet {s t : State} {n : StrobeName} {r : Bool} (hc : s.par.strobeCode.wf = true)
    (hb : s.busReady = true) (he : s.env = [])
    (hn : admitsStrobe n = true) (hs : applyStrobe n ((s.openBus.logWire .select).bumpDraws 1) = .ok t) :
    let h := strobeByte s.par.strobeCode n r
    strobeFramed n r s = .ok { status := statusByte h s, values := [] }
      { ((t.withTdec .done).logWire (.byte h (statusByte h s))).closeBus.logWire .deselect
        with lastStatus := Datum.of (statusByte h s) } := by
  intro h
  obtain ⟨h1, _, _, _⟩ := (busReady_iff s).mp hb
  obtain ⟨m, rx, tx, cs, g, rd, td, sw, dr, hd, rfl⟩ := applyStrobe_shape hs
  have hx := exchangeBytes_quiet (bs := []) (by simpa using he)
    (targetExchange_strobe (s := s.openBus.logWire .select) (r := r) (c := s.par.strobeCode) rfl hc rfl hs)
  simp only [exchangeBytes_nil, OpResult.andThen] at hx
  rw [strobeFramed, if_pos hn, operation_quiet hb (by simp) (by simpa using he) (by simpa using h1) (by simp) hx]
  rfl

end Sys2Proof.Machine
end

