-- ==== Sys2Proof/Laws/Access.lean ====
section
/-! SUPPORT. One lemma for each access and each strobe: what the operation answers on a ready target while no other agent
acts, header and data bytes included. -/

namespace Sys2Proof.Machine

theorem writeByte_fifo {b : Byte} {s : State} (h : s.txfifo.length < s.par.fifoDepth) :
    writeByte fifoAddr b s = .ok { s with txfifo := s.txfifo ++ [b] } := by
  unfold writeByte; rw [if_pos rfl, if_pos h]

theorem writeByte_full {b : Byte} {s : State} (h : s.par.fifoDepth ≤ s.txfifo.length) :
    writeByte fifoAddr b s = .error .txFifoFull := by
  unfold writeByte; rw [if_pos rfl, if_neg (Nat.not_lt.mpr h)]

theorem writeByte_mem {a : Nat} {b : Byte} {s : State} (h : a ≠ fifoAddr) :
    writeByte a b s = .ok { s with mem := s.mem.write a b } := by
  unfold writeByte; rw [if_neg h]

theorem exchangeData_ws {a n : Nat} {b : Byte} {s t : State} (h : writeByte a b s = .ok t) :
    exchangeData .ws a n b s = .ok (Config.drawByte t.draws, (t.bumpDraws 1).withTdec .done) := by
  simp only [exchangeData, h, afterData]

theorem exchangeData_wb {a n : Nat} {b : Byte} {s t : State} (h : writeByte a b s = .ok t) :
    exchangeData .wb a n b s =
      .ok (Config.drawByte t.draws, (t.bumpDraws 1).withTdec (.data .wb (nextAddr a) (n + 1))) := by
  simp only [exchangeData, h, afterData]

theorem exchangeData_rs (a n : Nat) (b : Byte) (s : State) :
    exchangeData .rs a n b s = .ok ((readByte a s).1, (readByte a s).2.withTdec .done) := rfl

theorem exchangeData_sr (a n : Nat) (b : Byte) (s : State) :
    exchangeData .sr a n b s = .ok ((statusReg a s).1, (statusReg a s).2.withTdec .done) := rfl

/-- An access of one data byte (R91 `RS`, `WS`, and the status-register read), from its data exchange. -/
theorem operation_single {keep : Bool} {h b v : Byte} {s t : State} {k : TxnKind} {a : Nat}
    (hb : s.busReady = true) (he : s.env = [])
    (hd : targetExchange h (s.openBus.logWire .select) =
      .ok (statusByte h s, ((s.openBus.logWire .select).bumpDraws 1).withTdec (.data k (.at a) 0)))
    (hx : exchangeData k a 0 b
      ((((s.openBus.logWire .select).bumpDraws 1).withTdec (.data k (.at a) 0)).logWire (.byte h (statusByte h s))) =
      .ok (v, t)) :
    operation keep [h, b] s = .ok { status := statusByte h s, values := if keep then [v] else [] }
      { ((t.logWire (.byte b v)).closeBus).logWire .deselect with lastStatus := Datum.of (statusByte h s) } := by
  obtain ⟨h1, _, _, _⟩ := (busReady_iff s).mp hb
  have hx' : targetExchange b
      ((((s.openBus.logWire .select).bumpDraws 1).withTdec (.data k (.at a) 0)).logWire (.byte h (statusByte h s))) =
      .ok (v, t) := by
    simpa [targetExchange, State.withTdec] using hx
  obtain ⟨m, rx, tx, cs, g, rd, td, sw, dr, _, ht⟩ := targetExchange_shape hx'
  have e1 := exchangeBytes_quiet (b := h) (bs := [b]) (s := s.openBus.logWire .select) (by simpa using he) hd
  have e2 := exchangeBytes_quiet (b := b) (bs := []) (by simpa using he) hx'
  rw [e2] at e1
  simp only [exchangeBytes_nil, OpResult.andThen] at e1
  subst ht
  exact operation_quiet (t := _) hb (by simp) (by simpa using he) (by simpa using h1) (by simp) e1

/-- `write_single` (R142), from the target's write of the byte. -/
theorem writeSingle_quiet {a : Nat} {v : Byte} {s t : State} (hb : s.busReady = true) (he : s.env = [])
    (ha : admitsSingle a = true) (hd : decodeHeader s.par.strobeCode (header a kWriteSingle) = .access .ws a)
    (hw : writeByte a v s = .ok t) :
    writeSingle a v s = .ok { status := statusByte (header a kWriteSingle) s, values := [] }
      { t with
        wireLog := s.wireLog ++ [.select, .byte (header a kWriteSingle) (statusByte (header a kWriteSingle) s),
          .byte v (Config.drawByte (s.draws + 1)), .deselect],
        lastStatus := Datum.of (statusByte (header a kWriteSingle) s), draws := s.draws + 2 } := by
  obtain ⟨h1, h2, h3, h4⟩ := (busReady_iff s).mp hb
  rw [writeSingle, if_pos ha]
  rcases writeByte_cases hw with ⟨rfl, hl, rfl⟩ | ⟨hn, rfl⟩
  · rw [operation_single (t := _) (v := _) hb he (targetExchange_access rfl hd)
      (exchangeData_ws (writeByte_fifo (by simpa [State.withTdec] using hl)))]
    cases s; simp_all [State.withTdec]
  · rw [operation_single (t := _) (v := _) hb he (targetExchange_access rfl hd) (exchangeData_ws (writeByte_mem hn))]
    cases s; simp_all [State.withTdec]

/-- `read_single` (R140), from the target's read of the byte. -/
theorem readSingle_quiet {a : Nat} {s : State} (hb : s.busReady = true) (he : s.env = [])
    (ha : admitsSingle a = true) (hd : decodeHeader s.par.strobeCode (header a kReadSingle) = .access .rs a) :
    readSingle a s =
      .ok { status := statusByte (header a kReadSingle) s, values := [(readByte a (s.bumpDraws 1)).1] }
        { (readByte a (s.bumpDraws 1)).2 with
          wireLog := s.wireLog ++ [.select, .byte (header a kReadSingle) (statusByte (header a kReadSingle) s),
            .byte s.par.dummy (readByte a (s.bumpDraws 1)).1, .deselect],
          lastStatus := Datum.of (statusByte (header a kReadSingle) s) } := by
  obtain ⟨h1, h2, h3, h4⟩ := (busReady_iff s).mp hb
  rw [readSingle, if_pos ha]
  rw [operation_single hb he (targetExchange_access rfl hd) (exchangeData_rs _ _ _ _)]
  by_cases h : a = fifoAddr
  · cases hq : s.rxfifo <;> simp [readByte, h, hq, State.withTdec, State.logWire, State.closeBus, State.openBus,
      State.bumpDraws, h2, h3]
  · cases hq : s.mem.read a <;> simp [readByte, h, hq, State.withTdec, State.logWire, State.closeBus, State.openBus,
      State.bumpDraws, h2, h3]

/-- `read_status_reg` (R147), from the target's status register. -/
theorem readStatusReg_quiet {a : Nat} {s : State} (hb : s.busReady = true) (he : s.env = []) (ha : isStatus a = true) :
    burstRead a 1 s =
      .ok { status := statusByte (header a kBurstRead) s, values := [(statusReg a (s.bumpDraws 1)).1] }
        { (statusReg a (s.bumpDraws 1)).2 with
          wireLog := s.wireLog ++ [.select, .byte (header a kBurstRead) (statusByte (header a kBurstRead) s),
            .byte s.par.dummy (statusReg a (s.bumpDraws 1)).1, .deselect],
          lastStatus := Datum.of (statusByte (header a kBurstRead) s) } := by
  obtain ⟨h1, h2, h3, h4⟩ := (busReady_iff s).mp hb
  have ha' := ha
  simp only [isStatus, Bool.and_eq_true, decide_eq_true_eq] at ha'
  rw [burstRead, if_pos (by simp [admitsBurstRead, ha]), List.replicate_one,
    operation_single hb he (targetExchange_status rfl (decodeHeader_status _ a ha'.1 ha'.2)) (exchangeData_sr _ _ _ _)]
  by_cases h : a = s.par.rxbytesAddr <;> simp [statusReg, h, State.withTdec, State.logWire, State.closeBus,
    State.openBus, State.bumpDraws, h2, h3]

/-- A data byte while the decoder stands at `a` (R127). -/
theorem targetExchange_data {k : TxnKind} {a n : Nat} {b : Byte} {s : State} (h : s.tdec = .data k (.at a) n) :
    targetExchange b s = exchangeData k a n b s := by
  simp only [targetExchange, h]

/-- The data bytes of a burst write to configuration registers (R143). -/
theorem exchangeBytes_writeCfg : ∀ (vs : List Byte) (a n : Nat) (s : State), s.env = [] → a + vs.length ≤ 0x2F →
    (vs ≠ [] → s.tdec = .data .wb (.at a) n) →
    ∃ td, exchangeBytes vs s = .ok ((List.range vs.length).map (fun i => Config.drawByte (s.draws + i)))
      { s with mem := s.mem.writeList a vs, draws := s.draws + vs.length, tdec := td,
               wireLog := s.wireLog ++ (vs.zipIdx s.draws).map (fun e => .byte e.1 (Config.drawByte e.2)) } := by
  intro vs
  induction vs with
  | nil => intro a n s _ _ _; exact ⟨s.tdec, by simp [exchangeBytes_nil, Memory.writeList]⟩
  | cons v vs ih =>
    intro a n s he hl ht
    have ht := ht (by simp)
    simp only [List.length_cons] at hl
    have hx : targetExchange v s = .ok (Config.drawByte s.draws,
        (({ s with mem := s.mem.write a v }).bumpDraws 1).withTdec (.data .wb (nextAddr a) (n + 1))) := by
      rw [targetExchange_data ht, exchangeData_wb (writeByte_mem (by simp [fifoAddr]; omega))]
    obtain ⟨td, h⟩ := ih (a + 1) (n + 1)
      (((({ s with mem := s.mem.write a v }).bumpDraws 1).withTdec (.data .wb (nextAddr a) (n + 1))).logWire
        (.byte v (Config.drawByte s.draws))) (by simpa using he) (by omega) (by
        intro hv
        have : 0 < vs.length := List.length_pos_iff.mpr hv
        simp [State.withTdec, nextAddr]; omega)
    refine ⟨td, ?_⟩
    rw [exchangeBytes_quiet he hx, h]
    simp [OpResult.andThen, State.withTdec, State.logWire, State.bumpDraws, Memory.writeList, List.range_succ_eq_map,
      List.zipIdx_cons, Function.comp_def, Nat.add_assoc, Nat.add_comm 1]

/-- The data bytes of a burst write to the FIFO alias (R143). -/
theorem exchangeBytes_writeFifo : ∀ (vs : List Byte) (n : Nat) (s : State), s.env = [] →
    s.txfifo.length + vs.length ≤ s.par.fifoDepth → s.tdec = .data .wb (.at fifoAddr) n →
    ∃ td, exchangeBytes vs s = .ok ((List.range vs.length).map (fun i => Config.drawByte (s.draws + i)))
      { s with txfifo := s.txfifo ++ vs, draws := s.draws + vs.length, tdec := td,
               wireLog := s.wireLog ++ (vs.zipIdx s.draws).map (fun e => .byte e.1 (Config.drawByte e.2)) } := by
  intro vs
  induction vs with
  | nil => intro n s _ _ _; exact ⟨s.tdec, by simp [exchangeBytes_nil]⟩
  | cons v vs ih =>
    intro n s he hl ht
    simp only [List.length_cons] at hl
    have hx : targetExchange v s = .ok (Config.drawByte s.draws,
        (({ s with txfifo := s.txfifo ++ [v] }).bumpDraws 1).withTdec (.data .wb (.at fifoAddr) (n + 1))) := by
      rw [targetExchange_data ht, exchangeData_wb (writeByte_fifo (by omega))]
      rfl
    obtain ⟨td, h⟩ := ih (n + 1)
      (((({ s with txfifo := s.txfifo ++ [v] }).bumpDraws 1).withTdec (.data .wb (.at fifoAddr) (n + 1))).logWire
        (.byte v (Config.drawByte s.draws))) (by simpa using he) (by simp [State.withTdec]; omega) rfl
    refine ⟨td, ?_⟩
    rw [exchangeBytes_quiet he hx, h]
    simp [OpResult.andThen, State.withTdec, State.logWire, State.bumpDraws, List.range_succ_eq_map, List.zipIdx_cons,
      Function.comp_def, Nat.add_assoc, Nat.add_comm 1]

theorem exchangeData_rb (a n : Nat) (b : Byte) (s : State) :
    exchangeData .rb a n b s = .ok ((readByte a s).1, (readByte a s).2.withTdec (.data .rb (nextAddr a) (n + 1))) := rfl

theorem unwrittenBefore_succ (m : Memory) (a i : Nat) :
    unwrittenBefore m a (i + 1) = (if (m.read a).isNone then 1 else 0) + unwrittenBefore m (a + 1) i := by
  have this : ∀ j, m.read (a + (j + 1)) = m.read (a + 1 + j) := fun j => by rw [show a + (j + 1) = a + 1 + j by omega]
  simp only [unwrittenBefore, List.range_succ_eq_map, List.filter_cons, List.filter_map, Nat.add_zero]
  split <;> simp [Function.comp_def, this, Nat.add_comm]

theorem burstReadBytes_succ (m : Memory) (a n d : Nat) :
    burstReadBytes m a (n + 1) d =
      (m.read a).getD (Config.drawByte d) ::
        burstReadBytes m (a + 1) n (d + if (m.read a).isNone then 1 else 0) := by
  have this : ∀ j, m.read (a + (j + 1)) = m.read (a + 1 + j) := fun j => by rw [show a + (j + 1) = a + 1 + j by omega]
  simp only [burstReadBytes, List.range_succ_eq_map, List.map_cons, List.map_map, Function.comp_def,
    unwrittenBefore_succ, this, Nat.add_assoc, Nat.add_zero]
  simp [unwrittenBefore]

/-- The data bytes of a burst read of configuration registers (R141, R144), whatever the byte `x` sent in their positions
(R104). -/
theorem exchangeBytes_readCfg (x : Byte) : ∀ (n a k : Nat) (s : State), s.env = [] → a + n ≤ 0x2F →
    (0 < n → s.tdec = .data .rb (.at a) k) →
    ∃ td, exchangeBytes (List.replicate n x) s = .ok (burstReadBytes s.mem a n s.draws)
      { s with draws := s.draws + unwrittenBefore s.mem a n, tdec := td,
               wireLog := s.wireLog ++ (burstReadBytes s.mem a n s.draws).map (.byte x) } := by
  intro n
  induction n with
  | zero => intro a k s _ _ _; exact ⟨s.tdec, by simp [exchangeBytes_nil, burstReadBytes, unwrittenBefore]⟩
  | succ n ih =>
    intro a k s he hl ht
    have ht := ht (by simp)
    have hf : a ≠ fifoAddr := by simp [fifoAddr]; omega
    let d := s.draws + if (s.mem.read a).isNone then 1 else 0
    let r := (s.mem.read a).getD (Config.drawByte s.draws)
    have hr : readByte a s = (r, { s with draws := d }) := by
      cases hq : s.mem.read a <;> simp [readByte, hf, hq, State.bumpDraws, r, d]
    have hx : targetExchange x s =
        .ok (r, ({ s with draws := d }).withTdec (.data .rb (nextAddr a) (k + 1))) := by
      rw [targetExchange_data ht, exchangeData_rb, hr]
    obtain ⟨td, h⟩ := ih (a + 1) (k + 1)
      ((({ s with draws := d }).withTdec (.data .rb (nextAddr a) (k + 1))).logWire (.byte x r))
      (by simpa using he) (by omega) (by intro hn; simp [State.withTdec, nextAddr]; omega)
    refine ⟨td, ?_⟩
    rw [List.replicate_succ, exchangeBytes_quiet he hx, h]
    simp [OpResult.andThen, State.withTdec, State.logWire, burstReadBytes_succ, unwrittenBefore_succ, r, d, Nat.add_assoc]

/-- The data bytes of a burst read of the FIFO alias (R141), whatever the byte `x` sent in their positions (R104). -/
theorem exchangeBytes_readFifo (x : Byte) : ∀ (n k : Nat) (s : State), s.env = [] → s.tdec = .data .rb (.at fifoAddr) k →
    ∃ td, exchangeBytes (List.replicate n x) s =
      .ok (s.rxfifo.take n ++ (List.range (n - s.rxfifo.length)).map (fun i => Config.drawByte (s.draws + i)))
      { s with rxfifo := s.rxfifo.drop n, draws := s.draws + (n - s.rxfifo.length), tdec := td,
               wireLog := s.wireLog ++ (s.rxfifo.take n ++
                 (List.range (n - s.rxfifo.length)).map (fun i => Config.drawByte (s.draws + i))).map
                   (.byte x) } := by
  intro n
  induction n with
  | zero => intro k s _ _; exact ⟨s.tdec, by simp [exchangeBytes_nil]⟩
  | succ n ih =>
    intro k s he ht
    cases hq : s.rxfifo with
    | nil =>
      have hx : targetExchange x s =
          .ok (Config.drawByte s.draws, (s.bumpDraws 1).withTdec (.data .rb (.at fifoAddr) (k + 1))) := by
        rw [targetExchange_data ht, exchangeData_rb]; simp [readByte, hq, nextAddr, fifoAddr]
      obtain ⟨td, h⟩ := ih (k + 1)
        (((s.bumpDraws 1).withTdec (.data .rb (.at fifoAddr) (k + 1))).logWire (.byte x (Config.drawByte s.draws)))
        (by simpa using he) rfl
      refine ⟨td, ?_⟩
      rw [List.replicate_succ, exchangeBytes_quiet he hx, h]
      simp [OpResult.andThen, State.withTdec, State.logWire, State.bumpDraws, hq, List.range_succ_eq_map,
        Function.comp_def, Nat.add_assoc, Nat.add_comm 1]
    | cons v q =>
      have hx : targetExchange x s =
          .ok (v, ({ s with rxfifo := q }).withTdec (.data .rb (.at fifoAddr) (k + 1))) := by
        rw [targetExchange_data ht, exchangeData_rb]; simp [readByte, hq, nextAddr, fifoAddr]
      obtain ⟨td, h⟩ := ih (k + 1)
        ((({ s with rxfifo := q }).withTdec (.data .rb (.at fifoAddr) (k + 1))).logWire (.byte x v))
        (by simpa using he) rfl
      refine ⟨td, ?_⟩
      rw [List.replicate_succ, exchangeBytes_quiet he hx, h]
      simp [OpResult.andThen, State.withTdec, State.logWire]

/-- A burst (R91 `RB`, `WB`), from the exchange of its data bytes. -/
theorem operation_burst {keep : Bool} {h : Byte} {bs vs : List Byte} {s t : State} {k : TxnKind} {a : Nat}
    (hb : s.busReady = true) (he : s.env = []) (hd : decodeHeader s.par.strobeCode h = .access k a)
    (hx : exchangeBytes bs
      ((((s.openBus.logWire .select).bumpDraws 1).withTdec (.data k (.at a) 0)).logWire (.byte h (statusByte h s))) =
      .ok vs t) (hte : t.env = []) (hti : t.spiInited = true) (htc : t.csn = false) :
    operation keep (h :: bs) s = .ok { status := statusByte h s, values := if keep then vs else [] }
      { t.closeBus.logWire .deselect with lastStatus := Datum.of (statusByte h s) } := by
  have h1 := exchangeBytes_quiet (b := h) (bs := bs) (s := s.openBus.logWire .select) (by simpa using he)
    (targetExchange_access rfl hd)
  rw [show statusByte h (s.openBus.logWire .select) = statusByte h s from rfl, hx] at h1
  simp only [OpResult.andThen] at h1
  exact operation_quiet hb (by simp) hte hti htc h1

/-- `burst_write` to configuration registers (R143). -/
theorem burstWrite_cfg_quiet {a : Nat} {vs : List Byte} {s : State} (hb : s.busReady = true) (he : s.env = [])
    (hn : 1 ≤ vs.length) (hl : a + vs.length ≤ 0x2F) :
    burstWrite a vs s = .ok { status := statusByte (header a kBurstWrite) s, values := [] }
      { s with
        mem := s.mem.writeList a vs, draws := s.draws + 1 + vs.length,
        lastStatus := Datum.of (statusByte (header a kBurstWrite) s),
        wireLog := s.wireLog ++ (.select :: .byte (header a kBurstWrite) (statusByte (header a kBurstWrite) s) ::
          (vs.zipIdx (s.draws + 1)).map (fun e => .byte e.1 (Config.drawByte e.2)) ++ [.deselect]) } := by
  obtain ⟨h1, h2, h3, h4⟩ := (busReady_iff s).mp hb
  obtain ⟨td, h⟩ := exchangeBytes_writeCfg vs a 0
    ((((s.openBus.logWire .select).bumpDraws 1).withTdec (.data .wb (.at a) 0)).logWire
      (.byte (header a kBurstWrite) (statusByte (header a kBurstWrite) s))) (by simpa using he) hl (fun _ => rfl)
  rw [burstWrite, if_pos (by simp [admitsBurstWrite, isCfg]; omega),
    operation_burst hb he (decodeHeader_burst_write_cfg _ a (by omega)) h (by simpa using he) (by simpa using h1)
      (by simp [State.withTdec])]
  simp [State.withTdec, State.logWire, State.closeBus, State.bumpDraws, State.openBus, h2, h3]

/-- `burst_write` to the FIFO alias (R143). -/
theorem burstWrite_fifo_quiet {vs : List Byte} {s : State} (hb : s.busReady = true) (he : s.env = [])
    (hn : 1 ≤ vs.length) (hl : s.txfifo.length + vs.length ≤ s.par.fifoDepth) :
    burstWrite fifoAddr vs s = .ok { status := statusByte (header fifoAddr kBurstWrite) s, values := [] }
      { s with
        txfifo := s.txfifo ++ vs, draws := s.draws + 1 + vs.length,
        lastStatus := Datum.of (statusByte (header fifoAddr kBurstWrite) s),
        wireLog := s.wireLog ++ (.select ::
          .byte (header fifoAddr kBurstWrite) (statusByte (header fifoAddr kBurstWrite) s) ::
          (vs.zipIdx (s.draws + 1)).map (fun e => .byte e.1 (Config.drawByte e.2)) ++ [.deselect]) } := by
  obtain ⟨h1, h2, h3, h4⟩ := (busReady_iff s).mp hb
  obtain ⟨td, h⟩ := exchangeBytes_writeFifo vs 0
    ((((s.openBus.logWire .select).bumpDraws 1).withTdec (.data .wb (.at fifoAddr) 0)).logWire
      (.byte (header fifoAddr kBurstWrite) (statusByte (header fifoAddr kBurstWrite) s))) (by simpa using he)
      (by simpa [State.withTdec] using hl) rfl
  rw [burstWrite, if_pos (by simp [admitsBurstWrite, hl]; omega),
    operation_burst hb he (decodeHeader_burst_write_fifo _) h (by simpa using he) (by simpa using h1)
      (by simp [State.withTdec])]
  simp [State.withTdec, State.logWire, State.closeBus, State.bumpDraws, State.openBus, h2, h3]

/-- `burst_read` of configuration registers (R141, R144). -/
theorem burstRead_cfg_quiet {a n : Nat} {s : State} (hb : s.busReady = true) (he : s.env = [])
    (hn : 1 ≤ n) (hl : a + n ≤ 0x2F) :
    let vs := burstReadBytes s.mem a n (s.draws + 1)
    burstRead a n s = .ok { status := statusByte (header a kBurstRead) s, values := vs }
      { s with
        draws := s.draws + 1 + unwrittenBefore s.mem a n,
        lastStatus := Datum.of (statusByte (header a kBurstRead) s),
        wireLog := s.wireLog ++ (.select :: .byte (header a kBurstRead) (statusByte (header a kBurstRead) s) ::
          vs.map (.byte s.par.dummy) ++ [.deselect]) } := by
  obtain ⟨h1, h2, h3, h4⟩ := (busReady_iff s).mp hb
  obtain ⟨td, h⟩ := exchangeBytes_readCfg s.par.dummy n a 0
    ((((s.openBus.logWire .select).bumpDraws 1).withTdec (.data .rb (.at a) 0)).logWire
      (.byte (header a kBurstRead) (statusByte (header a kBurstRead) s))) (by simpa using he) hl (fun _ => rfl)
  intro vs
  rw [burstRead, if_pos (by simp [admitsBurstRead, isCfg]; omega),
    operation_burst hb he (decodeHeader_burst_read_cfg _ a (by omega)) h (by simpa using he) (by simpa using h1)
      (by simp [State.withTdec])]
  simp [State.withTdec, State.logWire, State.closeBus, State.bumpDraws, State.openBus, h2, h3, vs]

/-- `burst_read` of the FIFO alias (R141). -/
theorem burstRead_fifo_quiet {n : Nat} {s : State} (hb : s.busReady = true) (he : s.env = [])
    (hn : 1 ≤ n) (hl : n ≤ s.par.fifoDepth) :
    burstRead fifoAddr n s = .ok
      { status := statusByte (header fifoAddr kBurstRead) s,
        values := s.rxfifo.take n ++
          (List.range (n - s.rxfifo.length)).map (fun i => Config.drawByte (s.draws + 1 + i)) }
      { s with
        rxfifo := s.rxfifo.drop n, draws := s.draws + 1 + (n - s.rxfifo.length),
        lastStatus := Datum.of (statusByte (header fifoAddr kBurstRead) s),
        wireLog := s.wireLog ++ (.select ::
          .byte (header fifoAddr kBurstRead) (statusByte (header fifoAddr kBurstRead) s) ::
          (s.rxfifo.take n ++
            (List.range (n - s.rxfifo.length)).map (fun i => Config.drawByte (s.draws + 1 + i))).map
              (.byte s.par.dummy) ++ [.deselect]) } := by
  obtain ⟨h1, h2, h3, h4⟩ := (busReady_iff s).mp hb
  obtain ⟨td, h⟩ := exchangeBytes_readFifo s.par.dummy n 0
    ((((s.openBus.logWire .select).bumpDraws 1).withTdec (.data .rb (.at fifoAddr) 0)).logWire
      (.byte (header fifoAddr kBurstRead) (statusByte (header fifoAddr kBurstRead) s))) (by simpa using he) rfl
  rw [burstRead, if_pos (by simp [admitsBurstRead, hl]; omega),
    operation_burst hb he (decodeHeader_burst_read_fifo _) h (by simpa using he) (by simpa using h1)
      (by simp [State.withTdec])]
  simp [State.withTdec, State.logWire, State.closeBus, State.bumpDraws, State.openBus, h2, h3]

end Sys2Proof.Machine
end

