-- ==== Sys2Proof/Laws/Exec.lean ====
section
/-! SUPPORT. Every admitted instruction is one operation over the bytes that the encoder writes for it (R91, R125): the lemma
through which a statement about every instruction is proved once, over `operation`. -/

namespace Sys2Proof.Machine

theorem exec_admitted (i : Instr) : ∃ keep, ∀ s, bridgeAdmits s i = true →
    exec i s = finish (operation keep (encode s.par i) s) := by
  cases i
  case writeSingleCfg a v =>
    refine ⟨false, fun s h => ?_⟩
    have h : a.toNat ≤ 0x2E := by simpa [bridgeAdmits, cfgAddr] using h
    simp [exec, execWriteSingleCfg, writeSingle, admitsSingle, isCfg, h, encode, (header_eq_headerOf a).1]
  case writeSinglePatable v => exact ⟨false, fun s _ => rfl⟩
  case writeSingleFifo v => exact ⟨false, fun s _ => rfl⟩
  case burstWriteCfg a vs =>
    refine ⟨false, fun s h => ?_⟩
    simp only [bridgeAdmits, cfgBurst, Bool.and_eq_true, decide_eq_true_eq] at h
    have h1 : a.toNat ≤ 0x2E := by omega
    simp only [exec, execBurstWriteCfg, isCfg, h1, decide_true, if_true, burstWrite, encode, ← (header_eq_headerOf a).2.1]
    rw [if_pos (by simp [admitsBurstWrite, isCfg, h, h1])]
  case burstWriteFifo vs =>
    refine ⟨false, fun s h => ?_⟩
    simp only [bridgeAdmits, Bool.and_eq_true, decide_eq_true_eq] at h
    simp only [exec, execBurstWriteFifo, burstWrite, encode]
    rw [if_pos (by simp [admitsBurstWrite, h])]
    rfl
  case readSingleCfg a =>
    refine ⟨true, fun s h => ?_⟩
    have h : a.toNat ≤ 0x2E := by simpa [bridgeAdmits, cfgAddr] using h
    simp [exec, execReadSingleCfg, readSingle, admitsSingle, isCfg, h, encode, (header_eq_headerOf a).2.2.1]
  case readSinglePatable => exact ⟨true, fun s _ => rfl⟩
  case readSingleFifo => exact ⟨true, fun s _ => rfl⟩
  case burstReadCfg a n =>
    refine ⟨true, fun s h => ?_⟩
    simp only [bridgeAdmits, cfgBurst, Bool.and_eq_true, decide_eq_true_eq] at h
    have h1 : a.toNat ≤ 0x2E := by omega
    simp only [exec, execBurstReadCfg, isCfg, h1, decide_true, if_true, burstRead, encode, ← (header_eq_headerOf a).2.2.2]
    rw [if_pos (by simp [admitsBurstRead, isCfg, h, h1])]
  case burstReadFifo n =>
    refine ⟨true, fun s h => ?_⟩
    simp only [bridgeAdmits, Bool.and_eq_true, decide_eq_true_eq] at h
    simp only [exec, execBurstReadFifo, burstRead, encode]
    rw [if_pos (by simp [admitsBurstRead, h])]
    rfl
  case statusRead a =>
    refine ⟨true, fun s h => ?_⟩
    have h : isStatus a.toNat = true := h
    simp [exec, execStatusRead, readStatusReg, burstRead, admitsBurstRead, h, encode, (header_eq_headerOf a).2.2.2]
  case readStatus =>
    refine ⟨true, fun s _ => ?_⟩
    simp [exec, execReadStatus, readStatusOp, strobe, strobeFramed, admitsStrobe, encode, strobeByte_eq_strobeHeader]
  case writeStatus =>
    refine ⟨true, fun s _ => ?_⟩
    simp [exec, execWriteStatus, writeStatusOp, strobeFramed, admitsStrobe, encode, strobeByte_eq_strobeHeader]
  all_goals first
    | (refine ⟨true, fun s _ => ?_⟩
       simp [exec, execSres, execScal, execSrx, execStx, execSidle, execSfrx, execSftx, execSnop, strobeFramed,
         admitsStrobe, encode, strobeByte_eq_strobeHeader]
       done)
    | exact ⟨true, fun s h => by simp [bridgeAdmits] at h⟩

/-- The encoder writes at least the header. -/
theorem encode_ne_nil (p : Params) (i : Instr) : encode p i ≠ [] := by cases i <;> simp [encode]

/-- An instruction that is not admitted is refused, for a reason that does not depend on the state (R152). -/
theorem exec_not_admitted (i : Instr) : ∃ r, ∀ s, bridgeAdmits s i = false → exec i s = .refused r := by
  cases i
  case writeSingleCfg a v =>
    refine ⟨.notAdmitted, fun s h => ?_⟩
    have h : isCfg a.toNat = false := h
    simp [exec, execWriteSingleCfg, h]
  case readSingleCfg a =>
    refine ⟨.notAdmitted, fun s h => ?_⟩
    have h : isCfg a.toNat = false := h
    simp [exec, execReadSingleCfg, h]
  case statusRead a =>
    refine ⟨.notAdmitted, fun s h => ?_⟩
    have h : isStatus a.toNat = false := h
    simp [exec, execStatusRead, readStatusReg, h, finish]
  case burstWriteCfg a vs =>
    refine ⟨.notAdmitted, fun s h => ?_⟩
    simp only [exec, execBurstWriteCfg, burstWrite]
    split
    · rename_i hc
      have hc : a.toNat ≤ 0x2E := by simpa [isCfg] using hc
      rw [if_neg]
      · rfl
      · simp only [bridgeAdmits, cfgBurst, Bool.and_eq_false_iff, decide_eq_false_iff_not] at h
        simp [admitsBurstWrite, isCfg, hc, fifoAddr]
        omega
    · rfl
  case burstReadCfg a n =>
    refine ⟨.notAdmitted, fun s h => ?_⟩
    simp only [exec, execBurstReadCfg, burstRead]
    split
    · rename_i hc
      have hc : a.toNat ≤ 0x2E := by simpa [isCfg] using hc
      rw [if_neg]
      · rfl
      · simp only [bridgeAdmits, cfgBurst, Bool.and_eq_false_iff, decide_eq_false_iff_not] at h
        simp [admitsBurstRead, isCfg, isStatus, hc, fifoAddr]
        omega
    · rfl
  case burstWriteFifo vs =>
    refine ⟨.notAdmitted, fun s h => ?_⟩
    simp only [exec, execBurstWriteFifo, burstWrite]
    rw [if_neg]
    · rfl
    · simp only [bridgeAdmits, Bool.and_eq_false_iff, decide_eq_false_iff_not] at h
      simp [admitsBurstWrite, isCfg, fifoAddr]
      omega
  case burstReadFifo n =>
    refine ⟨.notAdmitted, fun s h => ?_⟩
    simp only [exec, execBurstReadFifo, burstRead]
    rw [if_neg]
    · rfl
    · simp only [bridgeAdmits, Bool.and_eq_false_iff, decide_eq_false_iff_not] at h
      simp [admitsBurstRead, isCfg, isStatus, fifoAddr]
      omega
  all_goals first
    | exact ⟨_, fun s h => rfl⟩
    | exact ⟨.notAdmitted, fun s h => by simp [bridgeAdmits] at h⟩

/-- An instruction that answers a next state has run one operation over its own bytes. -/
theorem exec_next (i : Instr) (s t : State) (h : exec i s = .next t) :
    ∃ keep, finish (operation keep (encode s.par i) s) = .next t := by
  cases ha : bridgeAdmits s i
  · obtain ⟨r, hr⟩ := exec_not_admitted i
    rw [hr s ha] at h; cases h
  · obtain ⟨keep, hk⟩ := exec_admitted i
    exact ⟨keep, by rw [← hk s ha, h]⟩

end Sys2Proof.Machine
end

