-- ==== Sys2Proof/Laws/Bus.lean ====
section
/-! SUPPORT. The framing of an operation, said once (R125, R308, R367): whatever the other agents do, a transaction that begins
on an idle bus puts one `select`, then a prefix of its own bytes in order, then one `deselect` on the wire, and ends with the
bus idle, with `Ok` and with `Err`. -/

namespace Sys2Proof.Machine

theorem busIdle_iff (s : State) : s.busIdle = true ↔ s.spiInited = true ∧ s.csn = true ∧ s.tdec = .closed := by
  simp [State.busIdle, and_assoc]

/-- `s` with other values of the fields that only the bridge writes. -/
def State.withBus (s : State) (c : Bool) (td : Tdec) (w : List WireEvent) (es : List Event) : State :=
  { s with csn := c, tdec := td, wireLog := w, env := es }

theorem completionEvent_withBus (s : State) (c : Bool) (td : Tdec) (w : List WireEvent) (es : List Event) :
    completionEvent (s.withBus c td w es) = (completionEvent s).withBus c td w es := by
  cases h : s.phase.booting <;> cases h2 : s.armed <;> cases h3 : s.sleeping <;>
    simp [completionEvent, completionHandler, State.withBus, h, h2, h3]

theorem ite_withBus (P : Prop) [Decidable P] (x y : State) (c : Bool) (td : Tdec) (w : List WireEvent) (es : List Event) :
    (if P then x else y).withBus c td w es = if P then x.withBus c td w es else y.withBus c td w es := by
  split <;> rfl

/-- No step of another agent looks at the bus or at the environment's later choices (R54, R286). -/
theorem agentStep_withBus (e : Event) (s : State) (c : Bool) (td : Tdec) (w : List WireEvent) (es : List Event) :
    agentStep e (s.withBus c td w es) = (agentStep e s).withBus c td w es := by
  cases e <;> simp only [agentStep, settleOther, settleGoal, tickHandler, conversionHandler, becomeReady, rxDone, txDone,
    txUnderflow, ite_withBus, ← completionEvent_withBus] <;> try rfl
  cases h : s.goal <;> simp only [State.withBus, h]

/-- `P` of the state of an `Ok`, `Q` of the state of an `Err`. -/
def OpResult.ends {α : Type} (P Q : State → Prop) : OpResult α → Prop
  | .ok _ u => P u
  | .err _ u => Q u
  | .refused _ => True
  | .stuck _ => True

/-- `t` stands inside a transaction that began at `s` and has sent the bytes `sent`: chip select asserted, `select` and the
bytes in the log. -/
def MidTxn (s : State) (sent : List Byte) (t : State) : Prop :=
  t.csn = false ∧ t.spiInited = true ∧
    ∃ l : List (Byte × Byte), l.map (·.1) = sent ∧
      t.wireLog = s.wireLog ++ (.select :: l.map (fun e => .byte e.1 e.2))

/-- `t` stands after a transaction that began at `s` and sent a prefix of the bytes `tx`. -/
def AfterTxn (s : State) (tx : List Byte) (t : State) : Prop :=
  t.csn = true ∧ t.tdec = .closed ∧ t.spiInited = true ∧
    ∃ l : List (Byte × Byte), l.map (·.1) <+: tx ∧
      t.wireLog = s.wireLog ++ (.select :: l.map (fun e => .byte e.1 e.2) ++ [.deselect])

theorem midTxn_agent (s : State) (sent : List Byte) (e : Event) (t : State) (h : MidTxn s sent t) :
    MidTxn s sent (agentStep e t) := by
  obtain ⟨h1, h2, l, h3, h4⟩ := h
  obtain ⟨f, g⟩ := agentStep_frame e t
  exact ⟨by rw [g.csn, h1], by rw [f.spiInited, h2], l, h3, by rw [g.wireLog, h4]⟩

theorem midTxn_env (s : State) (sent : List Byte) (es : List Event) (t : State) (h : MidTxn s sent t) :
    MidTxn s sent (t.withEnv es) := h

theorem midTxn_abort (s : State) (sent tx : List Byte) (t : State) (hp : sent <+: tx) (h : MidTxn s sent t) :
    AfterTxn s tx t.abort := by
  obtain ⟨h1, h2, l, h3, h4⟩ := h
  exact ⟨by simp [State.abort, h1], by simp [State.abort, h1], by simp [State.abort, h1, h2], l, h3 ▸ hp,
    by simp [State.abort, h1, h4]⟩

/-- The bytes of `exchange` go on the wire in order, up to the one whose wait expires (R123, R308). -/
theorem midTxn_exchangeBytes (s : State) : ∀ (tx sent : List Byte) (t : State), MidTxn s sent t →
    OpResult.ends (MidTxn s (sent ++ tx)) (AfterTxn s (sent ++ tx)) (exchangeBytes tx t) := by
  intro tx
  induction tx with
  | nil => intro sent t h; simpa [exchangeBytes, OpResult.ends] using h
  | cons b bs ih =>
    intro sent t h
    have hw := byteWait_preserves (MidTxn s sent) (midTxn_agent s sent) (midTxn_env s sent) t.env t h
    simp only [exchangeBytes]
    cases hb : byteWait t.env t with
    | forever => trivial
    | expired u => rw [hb] at hw; exact midTxn_abort s sent _ u (List.prefix_append _ _) hw
    | holds u =>
      rw [hb] at hw
      simp only
      cases hx : targetExchange b u with
      | error r => trivial
      | ok p =>
        obtain ⟨v, w⟩ := p
        dsimp only
        obtain ⟨m, rx, tx, cs, g, rd, td, sw, dr, hd, rfl⟩ := targetExchange_shape hx
        obtain ⟨h1, h2, l, h3, h4⟩ := hw
        have := ih (sent ++ [b]) (State.logWire { u with
          mem := m, rxfifo := rx, txfifo := tx, chipState := cs, goal := g, ready := rd, tdec := td, swapUsed := sw,
          draws := dr } (.byte b v)) ⟨by simpa using h1, by simpa using h2, l ++ [(b, v)], by simp [h3], by simp [h4]⟩
        rw [List.append_assoc, List.singleton_append] at this
        revert this
        cases exchangeBytes bs _ <;> exact id

/-- R125, R308, R367: the framing of an operation. -/
theorem operation_afterTxn (keep : Bool) (tx : List Byte) (s : State) (hb : s.busIdle = true) :
    OpResult.ends (AfterTxn s tx) (AfterTxn s tx) (operation keep tx s) := by
  obtain ⟨h1, h2, h3⟩ := (busIdle_iff s).mp hb
  have m0 : MidTxn s [] (s.openBus.logWire .select) := ⟨rfl, by simpa using h1, [], rfl, by simp⟩
  have hw := readyWait_preserves (MidTxn s []) (midTxn_agent s []) (midTxn_env s []) s.env _ m0
  simp only [operation, transact, select, h1, h2, if_true]
  cases hb : readyWait s.env (s.openBus.logWire .select) with
  | forever => trivial
  | expired u => rw [hb] at hw; exact midTxn_abort s [] tx u (List.nil_prefix) hw
  | holds u =>
    rw [hb] at hw
    have hc := hw.1
    have hs := hw.2.1
    cases htx : tx.isEmpty
    · simp only [OpResult.andThen, exchange, hc, hs, htx, if_true, if_false, Bool.false_eq_true]
      have he := midTxn_exchangeBytes s tx [] u hw
      rw [List.nil_append] at he
      cases hx : exchangeBytes tx u with
      | err e w => rw [hx] at he; exact he
      | refused r => trivial
      | stuck r => trivial
      | ok vs w =>
        rw [hx] at he
        obtain ⟨h5, h6, l, h7, h8⟩ := agentsAct_preserves (MidTxn s tx) (midTxn_agent s tx) (midTxn_env s tx) w.env w he
        simp only [deselect, h5, h6, if_true, if_false, Bool.false_eq_true]
        cases vs with
        | nil => trivial
        | cons st vs => exact ⟨rfl, rfl, h6, l, h7 ▸ List.prefix_rfl, by simp [h8]⟩
    · simp [OpResult.andThen, exchange, hc, hs, htx, OpResult.ends]

end Sys2Proof.Machine
end

