-- ==== Sys2Proof/Laws/TargetInv.lean ====
section
/-! SUPPORT. What every atomic action keeps of the target (R53, R30, R65): memory in canonical form, both queues within
`FIFO_DEPTH`, a goal only in a transitional state, and the decoder at an address that holds a byte. -/

namespace Sys2Proof.Machine

/-- The invariant of the target inside and outside of transactions. -/
structure TargetInv (s : State) : Prop where
  memory : s.mem.wf = true
  rxDepth : s.rxfifo.length ≤ s.par.fifoDepth
  txDepth : s.txfifo.length ≤ s.par.fifoDepth
  goal : s.goal ≠ .none → isTransitional s.chipState = true
  dec : ∀ k a n, s.tdec = .data k (.at a) n → Memory.backed a = true ∨ a = fifoAddr ∨ k = .sr

theorem completionEvent_targetInv (s : State) (h : TargetInv s) : TargetInv (completionEvent s) := by
  obtain ⟨h1, h2, h3, h4, h5, h6⟩ := completionEvent_target s
  obtain ⟨f, g⟩ := completionEvent_frame s
  constructor
  · rw [g.mem]; exact h.memory
  · rw [h3, f.par]; exact h.rxDepth
  · rw [h4, f.par]; exact h.txDepth
  · rw [h2, h1]; exact h.goal
  · rw [g.tdec]; exact h.dec

theorem agentStep_targetInv (e : Event) (s : State) (h : TargetInv s) : TargetInv (agentStep e s) := by
  obtain ⟨a, b, c, d, f⟩ := h
  have base : TargetInv s := ⟨a, b, c, d, f⟩
  cases e with
  | settleOther =>
    simp only [agentStep, settleOther]
    split
    · refine ⟨a, b, c, fun _ => ?_, f⟩
      simp only; split <;> rfl
    · exact base
  | settleGoal =>
    simp only [agentStep, settleGoal]
    split
    · split
      · exact base
      all_goals exact ⟨a, b, c, by simp, f⟩
    · exact base
  | rxDone p ok =>
    simp only [agentStep, rxDone]
    split
    · rename_i hc
      have hg : s.goal = .none := by
        by_contra hne; have := d hne; rw [hc.1] at this; cases this
      split
      · split
        · exact ⟨a, b, c, by simp [hg], f⟩
        · apply completionEvent_targetInv; exact ⟨a, by simp; omega, c, by simp [hg], f⟩
      · apply completionEvent_targetInv; exact ⟨a, by simp, c, by simp [hg], f⟩
    · exact base
  | txDone =>
    simp only [agentStep, txDone]
    split
    · rename_i hc
      simp [txDoneEnabled] at hc
      have hg : s.goal = .none := by
        by_contra hne; have := d hne; rw [hc.1] at this; cases this
      apply completionEvent_targetInv; exact ⟨a, b, by simp; omega, by simp [hg], f⟩
    · exact base
  | txUnderflow raise =>
    simp only [agentStep, txUnderflow]
    split
    · rename_i hc
      have hg : s.goal = .none := by
        by_contra hne; have := d hne; rw [hc.1] at this; cases this
      split
      · apply completionEvent_targetInv; exact ⟨a, b, c, by simp [hg], f⟩
      · exact ⟨a, b, c, by simp [hg], f⟩
    · exact base
  | becomeReady => exact ⟨a, b, c, d, f⟩
  | tick => exact ⟨a, b, c, d, f⟩
  | conversionDone => exact ⟨a, b, c, d, f⟩
  | expire => exact base
  | stall => exact base
  | go => exact base

theorem applyStrobe_targetInv {n : StrobeName} {s t : State} (h : TargetInv s) (hs : applyStrobe n s = .ok t) :
    TargetInv (t.withTdec .done) := by
  obtain ⟨a, b, c, d, f⟩ := h
  cases n <;> simp only [applyStrobe, Except.ok.injEq, reduceCtorEq] at hs
  · subst hs
    exact ⟨Memory.wf_drawn _, by simp [strobeSres, State.withTdec], by simp [strobeSres, State.withTdec], by simp [strobeSres, State.withTdec], by simp [State.withTdec]⟩
  · subst hs
    unfold strobeScal
    split
    · exact ⟨a, b, c, fun _ => rfl, by simp [State.withTdec]⟩
    · exact ⟨a, b, c, d, by simp [State.withTdec]⟩
  · unfold strobeSrx at hs
    split at hs <;> (try split at hs) <;> simp only [Except.ok.injEq, reduceCtorEq] at hs <;> subst hs
    · exact ⟨a, b, c, fun _ => rfl, by simp [State.withTdec]⟩
    · rename_i hc _; exact ⟨a, b, c, fun _ => by simp [State.withTdec, hc, isTransitional], by simp [State.withTdec]⟩
    · rename_i hc _; exact ⟨a, b, c, fun _ => by simp [State.withTdec, hc, isTransitional], by simp [State.withTdec]⟩
    all_goals exact ⟨a, b, c, d, by simp [State.withTdec]⟩
  · unfold strobeStx at hs
    split at hs <;> (try split at hs) <;> simp only [Except.ok.injEq, reduceCtorEq] at hs <;> subst hs
    · exact ⟨a, b, c, fun _ => rfl, by simp [State.withTdec]⟩
    · rename_i hc _; exact ⟨a, b, c, fun _ => by simp [State.withTdec, hc, isTransitional], by simp [State.withTdec]⟩
    · rename_i hc _; exact ⟨a, b, c, fun _ => by simp [State.withTdec, hc, isTransitional], by simp [State.withTdec]⟩
    all_goals exact ⟨a, b, c, d, by simp [State.withTdec]⟩
  · subst hs
    unfold strobeSidle
    split
    · exact ⟨a, b, c, d, by simp [State.withTdec]⟩
    · exact ⟨a, b, c, by simp [State.withTdec], by simp [State.withTdec]⟩
  · subst hs
    refine ⟨a, by simp [strobeSfrx, State.withTdec], c, fun hg => ?_, by simp [State.withTdec]⟩
    have := d hg
    simp only [strobeSfrx, State.withTdec]
    split
    · rename_i hc; rw [hc] at this; cases this
    · exact this
  · subst hs
    refine ⟨a, b, by simp [strobeSftx, State.withTdec], fun hg => ?_, by simp [State.withTdec]⟩
    have := d hg
    simp only [strobeSftx, State.withTdec]
    split
    · rename_i hc; rw [hc] at this; cases this
    · exact this
  · subst hs; exact ⟨a, b, c, d, by simp [State.withTdec]⟩

/-- A register access that a header selects addresses a byte of memory or the FIFO alias (R96). -/
theorem decodeHeader_backed {c : StrobeCodes} {h : Byte} {k : TxnKind} {a : Nat} (hd : decodeHeader c h = .access k a) :
    Memory.backed a = true ∨ a = fifoAddr := by
  have hlt : (headerAddr h).toNat < 64 := (headerAddr h).isLt
  simp only [decodeHeader] at hd
  split at hd
  · cases hd; simp [Memory.backed, *]
  · split at hd
    · cases hd
    · split at hd
      · split at hd
        · split at hd <;> cases hd
        · split at hd <;> cases hd
      · split at hd
        · split at hd
          · cases hd
          · cases hd; simp [Memory.backed, *]
        · cases hd; right; simp only [fifoAddr]; omega

theorem nextAddr_backed {k : TxnKind} {a n : Nat} :
   ∀ k' a' n', Tdec.data k (nextAddr a) (n + 1) = .data k' (.at a') n' → Memory.backed a' = true ∨ a' = fifoAddr ∨ k' = .sr := by
  intro k' a' n' he
  unfold nextAddr at he
  split at he
  · cases he; left; simp [Memory.backed]; omega
  · split at he <;> cases he
    simp

theorem targetExchange_targetInv (b v : Byte) (s t : State) (h : TargetInv s) (hx : targetExchange b s = .ok (v, t)) :
    TargetInv (t.logWire (.byte b v)) := by
  obtain ⟨m, rx, tx, g, d⟩ := h
  unfold targetExchange at hx
  split at hx
  · cases hx
  · simp only [exchangeHeader] at hx
    split at hx
    · cases hx
    · split at hx
      · rename_i s2 hs; cases hx
        obtain ⟨a1, a2, a3, a4, a5⟩ := applyStrobe_targetInv (s := s.bumpDraws 1) ⟨m, rx, tx, g, d⟩ hs
        exact ⟨a1, a2, a3, a4, a5⟩
      · cases hx
    · cases hx; exact ⟨m, rx, tx, g, by simp [State.withTdec]⟩
    · rename_i k a hd
      have := decodeHeader_backed hd
      cases hx; refine ⟨m, rx, tx, g, ?_⟩
      intro k' a' n' he; cases he; rcases this with h | h <;> simp [h]
  · rename_i k a n ht
    have hd := d k a n ht
    have rd : ∀ td, (∀ k' a' n', td = Tdec.data k' (.at a') n' → Memory.backed a' = true ∨ a' = fifoAddr ∨ k' = .sr) → TargetInv (((readByte a s).2.withTdec td).logWire (.byte b v)) := by
      intro td htd
      unfold readByte
      split
      · split
        · exact ⟨m, rx, tx, g, htd⟩
        · rename_i q hq; exact ⟨m, by have := rx; rw [hq] at this; simp [State.withTdec] at this ⊢; omega, tx, g, htd⟩
      · split <;> exact ⟨m, rx, tx, g, htd⟩
    have wr : ∀ k, k ≠ .sr → (∀ k' a' n', afterData k a n = Tdec.data k' (.at a') n' → Memory.backed a' = true ∨ a' = fifoAddr ∨ k' = .sr) →
        (Memory.backed a = true ∨ a = fifoAddr) →
        (match writeByte a b s with
        | .ok s1 => Except.ok (Config.drawByte s1.draws, (s1.bumpDraws 1).withTdec (afterData k a n))
        | .error r => .error r) = Except.ok (v, t) → TargetInv (t.logWire (.byte b v)) := by
      intro k hk htd ha h
      split at h
      · rename_i s1 hs; cases h
        rcases writeByte_cases hs with ⟨_, hl, rfl⟩ | ⟨hf, rfl⟩
        · exact ⟨m, rx, by simp [State.withTdec]; omega, g, htd⟩
        · exact ⟨Memory.wf_write _ _ _ (by rcases ha with h | h; exact h; exact absurd h hf) m, rx, tx, g, htd⟩
      · cases h
    cases k <;> simp only [exchangeData] at hx
    · cases hx; exact rd _ (by simp [afterData])
    · cases hx; exact rd _ nextAddr_backed
    · exact wr .ws (by simp) (by simp [afterData]) (by simpa using hd) hx
    · exact wr .wb (by simp) nextAddr_backed (by simpa using hd) hx
    · cases hx; unfold statusReg; split <;> exact ⟨m, rx, tx, g, by simp [State.withTdec, afterData]⟩
  · cases hx
  · cases hx

theorem targetInv_kept : KeptByActions TargetInv where
  agent e s h := agentStep_targetInv e s h
  env es s h := ⟨h.memory, h.rxDepth, h.txDepth, h.goal, h.dec⟩
  select s h := ⟨h.memory, h.rxDepth, h.txDepth, h.goal, by simp [State.openBus]⟩
  deselect s h := ⟨h.memory, h.rxDepth, h.txDepth, h.goal, by simp [State.closeBus]⟩
  byte b v s t h hx := targetExchange_targetInv b v s t h hx
theorem operation_targetInv (keep tx s) (h : TargetInv s) : (operation keep tx s).ended TargetInv :=
  operation_preserves _ targetInv_kept (fun _ _ h => ⟨h.memory, h.rxDepth, h.txDepth, h.goal, h.dec⟩) keep tx s h

end Sys2Proof.Machine
end

