-- ==== Sys2Proof/Laws/Sequencer.lean ====
section
/-! SUPPORT. The sequencer's operations while no other agent acts: a strobe and its checked form, the checks of the status byte
(R252), and whose turn it is (R231). -/

namespace Sys2Proof.Machine

/-- The state after the sequencer's strobe `n` at `s`, from the state `t` its effect leaves (R170). -/
def strobeEnd (n : StrobeName) (s t : State) : State :=
  let h := strobeByte s.par.strobeCode n true
  { t with
    tdec := .closed, csn := true, wireLog := s.wireLog ++ [.select, .byte h (statusByte h s), .deselect],
    lastStatus := Datum.of (statusByte h s) }

/-- A strobe on a ready target (R170). -/
theorem strobe_quiet {n : StrobeName} {s t : State} (hw : s.par.strobeCode.wf = true)
    (hb : s.busReady = true) (he : s.env = []) (hn : admitsStrobe n = true)
    (hs : applyStrobe n ((s.openBus.logWire .select).bumpDraws 1) = .ok t) :
    strobe n s = .ok ⟨statusByte (strobeByte s.par.strobeCode n true) s, []⟩ (strobeEnd n s t) := by
  rw [strobe, strobeFramed_quiet hw hb he hn hs]
  obtain ⟨m, rx, tx, cs, g, rd, td, sw, dr, hd, rfl⟩ := applyStrobe_shape hs
  simp [strobeEnd, State.withTdec, State.logWire, State.closeBus, State.bumpDraws, State.openBus]

/-- A strobe that the target refuses (R175, R176). -/
theorem strobe_quiet_refused {n : StrobeName} {s : State} {e : Refusal} (hw : s.par.strobeCode.wf = true)
    (hb : s.busReady = true) (he : s.env = []) (hn : admitsStrobe n = true)
    (hs : applyStrobe n ((s.openBus.logWire .select).bumpDraws 1) = .error e) :
    strobe n s = .refused e := by
  rw [strobe, strobeFramed, if_pos hn, operation_refused hb (by simp)]
  · refine exchangeBytes_refused (by simpa using he) ?_
    simp only [targetExchange, State.openBus, State.logWire, exchangeHeader, decodeHeader_strobe hw]
    simp only [State.openBus, State.logWire] at hs
    rw [hs]

/-- The master decodes the state field of a status byte (R31). -/
theorem stateOf_statusByte (h : Byte) (s : State) : stateOf s.par.stateHi (statusByte h s) = s.chipState := by
  have key : ∀ (hi : StateHi) (c : ChipState) (d : BitVec 1) (e : BitVec 4),
      stateOf hi (packStatus hi (chipCode c) d e) = c := by
    intro hi c; cases hi <;> cases c <;> decide
  exact key _ _ _ _

theorem isErrorState_statusByte (h : Byte) (s : State) (p : Params) (b : Bool) (hp : p = s.par)
    (hc : isErrorState s.chipState = b) : isErrorState (stateOf p.stateHi (statusByte h s)) = b := by
  subst hp; rw [stateOf_statusByte, hc]

theorem isTransitional_cases {c : ChipState} (h : isTransitional c = true) : c = .calibrate ∨ c = .settling := by
  cases c <;> simp_all [isTransitional]

theorem isErrorState_cases {c : ChipState} (h : isErrorState c = true) : c = .rxOverflow ∨ c = .txUnderflow := by
  cases c <;> simp_all [isErrorState]

/-- With nothing else to do it is the sequencer's turn in its phase (R231). -/
theorem step_quietAt {s : State} {ph : Phase} (h : s.quietAt ph) (hp : ph ≠ .halt) : step s = phaseStep s := by
  obtain ⟨rfl, h2, h3, h4, h5⟩ := h
  simp [step, nextTurn, h5, sequencerTurn, h3, h4, hp]

theorem checked_good {r : Reply} {t : State} (h : isErrorState (stateOf t.par.stateHi r.status) = false) :
    checked (.ok r t) = .ok r.values t := by
  simp [checked, OpResult.andThen, checkStatus, h]

theorem checked_bad {r : Reply} {t : State} (hc : t.csn = true) (h : isErrorState (stateOf t.par.stateHi r.status) = true) :
    checked (.ok r t) = .err (.protocolViolation .state r.status) t := by
  simp [checked, OpResult.andThen, checkStatus, h, raiseError, State.abort, hc]

theorem applyStrobe_par {n s t} (h : applyStrobe n s = .ok t) : t.par = s.par := (applyStrobe_shape h).within.par

/-- A checked strobe of the sequencer in no error state (R252). -/
theorem checked_strobe_ok {n : StrobeName} {s t u : State} (hw : s.par.strobeCode.wf = true)
    (hb : s.busReady = true) (he : s.env = []) (hn : admitsStrobe n = true)
    (hs : applyStrobe n ((s.openBus.logWire .select).bumpDraws 1) = .ok t) (hc : isErrorState s.chipState = false)
    (hu : strobeEnd n s t = u) :
    checked (strobe n s) = .ok [] u := by
  subst hu
  rw [strobe_quiet hw hb he hn hs, checked_good]
  exact isErrorState_statusByte _ _ _ _ ((applyStrobe_par hs).trans rfl) hc

/-- A checked strobe of the sequencer in an error state: the strobe has had its effect (R252). -/
theorem checked_strobe_bad {n : StrobeName} {s t u : State} (hw : s.par.strobeCode.wf = true)
    (hb : s.busReady = true) (he : s.env = []) (hn : admitsStrobe n = true)
    (hs : applyStrobe n ((s.openBus.logWire .select).bumpDraws 1) = .ok t) (hc : isErrorState s.chipState = true)
    (hu : strobeEnd n s t = u) :
    checked (strobe n s) = .err (.protocolViolation .state (statusByte (strobeByte s.par.strobeCode n true) s)) u := by
  subst hu
  rw [strobe_quiet hw hb he hn hs, checked_bad rfl]
  exact isErrorState_statusByte _ _ _ _ ((applyStrobe_par hs).trans rfl) hc

/-- A strobe of the sequencer whose bounded wait before the header byte expires: no byte is sent (R123, R301, R308). -/
theorem checked_strobe_expires {n : StrobeName} {s : State} {es : List Event} (hn : admitsStrobe n = true)
    (hb : s.busReady = true) (he : s.env = .expire :: es) (ht : s.par.tByte.isSome = true) :
    checked (strobe n s) =
      .err (.hardwareTimeout .byte) { s with wireLog := s.wireLog ++ [.select, .deselect], env := es } := by
  obtain ⟨h1, h2, h3, _⟩ := (busReady_iff s).mp hb
  rw [strobe, strobeFramed, if_pos hn, operation, transact, select_ready hb]
  cases s
  simp_all [checked, State.openBus, State.logWire, OpResult.andThen, exchange, exchangeBytes, byteWait, raiseError,
    State.abort, State.closeBus, State.withEnv]

/-- A step of another agent keeps the bus ready (R54, R286). -/
theorem agentStep_busReady {e : Event} {s : State} (h : s.busReady = true) : (agentStep e s).busReady = true := by
  obtain ⟨h1, h2, h3, h4⟩ := (busReady_iff s).mp h
  obtain ⟨f, g⟩ := agentStep_frame e s
  rw [busReady_iff, f.spiInited, g.csn, g.tdec]
  exact ⟨h1, h2, h3, g.ready h4⟩

/-- A step of another agent and the assertion of chip select do not meet (R54, R286). -/
theorem agentStep_select (e : Event) (s : State) :
    (agentStep e (s.openBus.logWire .select)).withEnv [] = (agentStep e (s.withEnv [])).openBus.logWire .select := by
  rw [show s.openBus.logWire .select = s.withBus false .awaitHeader (s.wireLog ++ [.select]) s.env from rfl,
    show s.withEnv [] = s.withBus s.csn s.tdec s.wireLog [] from rfl, agentStep_withBus, agentStep_withBus]
  rfl

/-- One step of another agent while the header byte is awaited, and none afterwards: the operation does what it does when
that step comes before it (R66). -/
theorem operation_event {keep : Bool} {tx : List Byte} {s : State} {e : Event} (hb : s.busReady = true)
    (he : s.env = [e]) (hg : e ≠ .go) (hx : e ≠ .expire) (hs : e ≠ .stall) (htx : tx ≠ []) :
    operation keep tx s = operation keep tx (agentStep e (s.withEnv [])) := by
  have hb' : (agentStep e (s.withEnv [])).busReady = true := agentStep_busReady hb
  have i := ((busReady_iff s).mp hb).1
  have i' := ((busReady_iff _).mp hb').1
  obtain ⟨b, bs, rfl⟩ := List.exists_cons_of_ne_nil htx
  have hw : byteWait s.env (s.openBus.logWire .select) =
      byteWait (agentStep e (s.withEnv [])).env ((agentStep e (s.withEnv [])).openBus.logWire .select) := by
    rw [he, (agentStep_frame e (s.withEnv [])).2.env, ← agentStep_select]
    simp [byteWait, hg, hx, hs, State.withEnv]
  have hq : exchange (b :: bs) (s.openBus.logWire .select) =
      exchange (b :: bs) ((agentStep e (s.withEnv [])).openBus.logWire .select) := by
    simp [exchange, exchangeBytes, i, i', hw]
  simp only [operation, transact, select_ready hb, select_ready hb', OpResult.andThen, hq]

/-- A checked strobe of the sequencer with one step of another agent while its header byte is awaited: the strobe finds what
that step left (R66, R252). -/
theorem checked_strobe_event {n : StrobeName} {s t u : State} {e : Event} (hw : s.par.strobeCode.wf = true)
    (hb : s.busReady = true) (he : s.env = [e]) (hg : e ≠ .go) (hx : e ≠ .expire) (hst : e ≠ .stall)
    (hn : admitsStrobe n = true) (hu : agentStep e (s.withEnv []) = u)
    (hs : applyStrobe n ((u.openBus.logWire .select).bumpDraws 1) = .ok t) (hc : isErrorState u.chipState = false) :
    checked (strobe n s) = .ok [] (strobeEnd n u t) := by
  subst hu
  have hp : (agentStep e (s.withEnv [])).par = s.par := (agentStep_frame e _).1.par
  have hv : (agentStep e (s.withEnv [])).env = [] := (agentStep_frame e _).2.env
  rw [← checked_strobe_ok (s := agentStep e (s.withEnv [])) (by rw [hp]; exact hw) (agentStep_busReady hb) hv hn hs hc
    rfl]
  rw [strobe, strobe, strobeFramed, strobeFramed, if_pos hn, if_pos hn, hp, operation_event hb he hg hx hst (by simp)]

end Sys2Proof.Machine
end

