-- ==== Sys2Proof/Laws/Invariants.lean ====
section
/-! SUPPORT. What an operation keeps between two transactions (`Settled`), in the form the phases chain, and how the invariants
of the node follow from it at a phase boundary, after the dispatch of an error and after an agent's step. -/

namespace Sys2Proof.Machine

/-- The part of the invariants that does not depend on the phase. -/
structure Settled (s : State) : Prop where
  target : TargetInv s
  csn : s.csn = true
  dec : s.tdec = .closed
  par : s.par.wf = true
  armed : s.armed = true → s.dir ≠ .unwritten

/-- Whatever the other agents do, an operation keeps the settled state and stays within what a transaction may touch. -/
theorem operation_settled (keep : Bool) (tx : List Byte) (s : State) (h : Settled s) :
    (operation keep tx s).ended (fun t => Settled t ∧ Within s t) := by
  have h1 := operation_targetInv keep tx s h.target
  have h2 := operation_within keep tx s
  by_cases hi : s.spiInited = true
  · have h3 := operation_afterTxn keep tx s ((busIdle_iff s).mpr ⟨hi, h.csn, h.dec⟩)
    cases ho : operation keep tx s with
    | ok r t =>
      rw [ho] at h1 h2 h3
      exact ⟨⟨h1, h3.1, h3.2.1, by rw [h2.par]; exact h.par, fun ha => by rw [h2.dir]; exact h.armed (h2.armed ha)⟩, h2⟩
    | err r t =>
      rw [ho] at h1 h2 h3
      exact ⟨⟨h1, h3.1, h3.2.1, by rw [h2.par]; exact h.par, fun ha => by rw [h2.dir]; exact h.armed (h2.armed ha)⟩, h2⟩
    | refused r => trivial
    | stuck r => trivial
  · simp [operation, transact, select, hi, OpResult.andThen, OpResult.ended]

/-- `t` is settled, and reached from `s` by operations alone. -/
abbrev Reached (s : State) : State → Prop := fun t => Settled t ∧ Within s t

theorem Reached.trans {s t u : State} (h : Reached s t) (k : Reached t u) : Reached s u := ⟨k.1, h.2.trans k.2⟩
theorem OpResult.ended_imp {α} {P Q : State → Prop} {x : OpResult α} (h : x.ended P)
    (k : ∀ t, P t → Q t) : x.ended Q := by
  cases x <;> first | exact k _ h | trivial
theorem ended_andThen_reached {α β} {s : State} {x : OpResult α} {f : α → State → OpResult β}
    (h : x.ended (Reached s)) (hf : ∀ a t, Settled t → (f a t).ended (Reached t)) : (x.andThen f).ended (Reached s) :=
  OpResult.ended_andThen _ _ _ h (fun a t ht => OpResult.ended_imp (hf a t ht.1) (fun _ h => Reached.trans ht h))
theorem Reached.refl {s} (h : Settled s) : Reached s s := ⟨h, .refl s⟩

theorem strobe_reached (n s) (h : Settled s) : (strobe n s).ended (Reached s) := by
  unfold strobe strobeFramed; split
  · exact operation_settled _ _ _ h
  · trivial
theorem burstWrite_reached (a vs s) (h : Settled s) : (burstWrite a vs s).ended (Reached s) := by
  unfold burstWrite; split
  · exact operation_settled _ _ _ h
  · trivial
theorem burstRead_reached (a vs s) (h : Settled s) : (burstRead a vs s).ended (Reached s) := by
  unfold burstRead; split
  · exact operation_settled _ _ _ h
  · trivial
theorem writeSingle_reached (a vs s) (h : Settled s) : (writeSingle a vs s).ended (Reached s) := by
  unfold writeSingle; split
  · exact operation_settled _ _ _ h
  · trivial
theorem raiseError_reached {α} (e s) (h : Settled s) : (raiseError e s : OpResult α).ended (Reached s) := by
  simp [raiseError, State.abort, h.csn, OpResult.ended]; exact Reached.refl h
theorem checked_reached {s x} (h : OpResult.ended (Reached s) x) : (checked x).ended (Reached s) := by
  refine ended_andThen_reached h fun a t ht => ended_andThen_reached ?_ fun _ u hu => Reached.refl hu
  unfold checkStatus; split
  · exact raiseError_reached _ _ ht
  · exact Reached.refl ht

theorem writeSingles_reached : ∀ ws s, Settled s → (writeSingles ws s).ended (Reached s) := by
  intro ws; induction ws with
  | nil => exact fun s h => Reached.refl h
  | cons w ws ih => exact fun s h => ended_andThen_reached (writeSingle_reached _ _ _ h) fun _ t ht => ih t ht

/-- The invariants at a phase boundary. -/
theorem inv_at_phase (t : State) (ph : Phase) (h : Settled t) (hs : t.sleeping = false) (hh : ph ≠ .halt)
    (he : ph = .encode → t.reading.written = true) (hp : ph.needsPayload = true → t.payload.written = true) :
    ({ t with phase := ph } : State).Inv where
  memory := h.target.memory
  bus := ⟨h.csn, h.dec⟩
  rxDepth := h.target.rxDepth
  txDepth := h.target.txDepth
  sleep := by simp [hs]
  halted := fun k => absurd k hh
  goalOnlyInTransit := h.target.goal
  armedDir := h.armed
  readingWritten := he
  payloadWritten := hp
  params := h.par

theorem State.Inv.settled {s : State} (h : s.Inv) : Settled s :=
  ⟨⟨h.memory, h.rxDepth, h.txDepth, h.goalOnlyInTransit, by rw [h.bus.2]; simp⟩, h.bus.1, h.bus.2, h.params, h.armedDir⟩

theorem dispatchError_inv {t : State} (e) (h : Settled t) : (dispatchError e t).Inv := by
  have hne : errorTarget t.par t.phase e ≠ .encode ∧ (errorTarget t.par t.phase e).needsPayload = false := by
    unfold errorTarget; split
    · simp [Phase.needsPayload]
    split
    · simp [Phase.needsPayload]
    split
    · cases t.par.role <;> simp [Phase.needsPayload, firstPhase]
    · simp [Phase.needsPayload]
    · simp [Phase.needsPayload]
  exact { memory := h.target.memory, bus := ⟨h.csn, h.dec⟩, rxDepth := h.target.rxDepth, txDepth := h.target.txDepth
          sleep := by simp [dispatchError]
          halted := by simp [dispatchError]
          goalOnlyInTransit := h.target.goal
          armedDir := by simp [dispatchError]
          readingWritten := fun k => absurd k hne.1
          payloadWritten := fun k => by simp [dispatchError] at k; rw [hne.2] at k; cases k
          params := h.par }

theorem agentStep_inv (e s) (h : State.Inv s) : (agentStep e s).Inv := by
  have ht := agentStep_targetInv e s (State.Inv.settled h).target
  obtain ⟨f, g⟩ := agentStep_frame e s
  exact { memory := ht.memory, bus := ⟨g.csn.trans h.bus.1, g.tdec.trans h.bus.2⟩, rxDepth := ht.rxDepth, txDepth := ht.txDepth,
          sleep := fun k => by rw [f.phase]; exact h.sleep (f.sleeping k)
          halted := fun k => by
            rw [f.phase] at k; obtain ⟨a, b, c⟩ := h.halted k
            refine ⟨?_, ?_, by rw [f.err]; exact c⟩
            · have := f.armed; cases hh : (agentStep e s).armed <;> simp_all
            · have := f.sleeping; cases hh : (agentStep e s).sleeping <;> simp_all
          goalOnlyInTransit := ht.goal
          armedDir := fun k => by rw [f.dir]; exact h.armedDir (f.armed k)
          readingWritten := fun k => by rw [f.reading]; exact h.readingWritten (by rw [← f.phase]; exact k)
          payloadWritten := fun k => by rw [f.payload]; exact h.payloadWritten (by rw [← f.phase]; exact k)
          params := by rw [f.par]; exact h.params }

end Sys2Proof.Machine
end

