-- ==== Sys2Proof/Laws/PerInstr.lean ====
section
/-! SUPPORT. A statement about every instruction, one lemma per constructor: the header the encoder writes decodes at the
target to the kind of transaction the instruction is (R96, R106). -/

namespace Sys2Proof.Laws.HeaderDecodes

open Sys2Proof

/-- The kind of header of an instruction (R96): the format and address of its row. -/
def kindOf : Instr → HeaderKind
  | .writeSingleCfg a _ => .access .ws a.toNat
  | .writeSinglePatable _ => .access .ws 0x3E
  | .writeSingleFifo _ => .access .ws 0x3F
  | .burstWriteCfg a _ => .access .wb a.toNat
  | .burstWriteFifo _ => .access .wb 0x3F
  | .readSingleCfg a => .access .rs a.toNat
  | .readSinglePatable => .access .rs 0x3E
  | .readSingleFifo => .access .rs 0x3F
  | .burstReadCfg a _ => .access .rb a.toNat
  | .burstReadFifo _ => .access .rb 0x3F
  | .statusRead a => .statusRead a.toNat
  | .sres r => .strobe .sres r
  | .scal r => .strobe .scal r
  | .srx r => .strobe .srx r
  | .stx r => .strobe .stx r
  | .sidle r => .strobe .sidle r
  | .sfrx r => .strobe .sfrx r
  | .sftx r => .strobe .sftx r
  | .snop r => .strobe .snop r
  | .readStatus => .strobe .snop true
  | .writeStatus => .strobe .snop false
  | .sfstxon r => .strobe .sfstxon r
  | .sxoff r => .strobe .sxoff r
  | .swor r => .strobe .swor r
  | .spwd r => .strobe .spwd r
  | .sworrst r => .strobe .sworrst r
  | .reserved2F _ _ => .reserved
  | .reservedStrobe37 _ => .reserved
  | .reservedBurstWriteStatus _ => .reserved
  | .reservedBurstPatable _ => .reserved

/-- With every `STROBE_CODE` that R95 admits, the first byte of a well-formed instruction's encoding decodes to the
instruction's kind. -/
def Statement (i : Instr) : Prop :=
  ∀ p : Params, p.strobeCode.wf = true → i.wellFormed = true →
    (encode p i).head?.map (decodeHeader p.strobeCode) = some (kindOf i)

theorem strobe_headers {c : StrobeCodes} (h : c.wf = true) (n : StrobeName) (r : Bool) :
    decodeHeader c (strobeHeader c n r) = .strobe n r := by
  rw [← Machine.strobeByte_eq_strobeHeader, Machine.decodeHeader_strobe h]

theorem status_headers (c : StrobeCodes) (a : Addr) (h : statusAddr a = true) (r : Bool) :
    decodeHeader c (headerOf r true a) = if r then .statusRead a.toNat else .reserved := by
  simp only [statusAddr, Bool.and_eq_true, decide_eq_true_eq] at h
  exact Machine.decodeHeader_burst_status c a h.1 h.2 r

theorem writeSingleCfg (a : Addr) (v : Byte) : Statement (.writeSingleCfg a v) := fun p hc h => by
  simp [encode, kindOf, Machine.decodeHeader_cfg p.strobeCode a (of_decide_eq_true h), accessKind]
theorem writeSinglePatable (v : Byte) : Statement (.writeSinglePatable v) := fun _ _ _ => rfl
theorem writeSingleFifo (v : Byte) : Statement (.writeSingleFifo v) := fun _ _ _ => rfl
theorem burstWriteCfg (a : Addr) (vs : List Byte) : Statement (.burstWriteCfg a vs) := fun p hc h => by
  have ha : a.toNat ≤ 0x2E := by
    simp only [Instr.wellFormed, cfgBurst, Bool.and_eq_true, decide_eq_true_eq] at h; omega
  simp [encode, kindOf, Machine.decodeHeader_cfg p.strobeCode a ha, accessKind]
theorem burstWriteFifo (vs : List Byte) : Statement (.burstWriteFifo vs) := fun _ _ _ => rfl
theorem readSingleCfg (a : Addr) : Statement (.readSingleCfg a) := fun p hc h => by
  simp [encode, kindOf, Machine.decodeHeader_cfg p.strobeCode a (of_decide_eq_true h), accessKind]
theorem readSinglePatable : Statement .readSinglePatable := fun _ _ _ => rfl
theorem readSingleFifo : Statement .readSingleFifo := fun _ _ _ => rfl
theorem burstReadCfg (a : Addr) (n : Nat) : Statement (.burstReadCfg a n) := fun p hc h => by
  have ha : a.toNat ≤ 0x2E := by
    simp only [Instr.wellFormed, cfgBurst, Bool.and_eq_true, decide_eq_true_eq] at h; omega
  simp [encode, kindOf, Machine.decodeHeader_cfg p.strobeCode a ha, accessKind]
theorem burstReadFifo (n : Nat) : Statement (.burstReadFifo n) := fun _ _ _ => rfl
theorem statusRead (a : Addr) : Statement (.statusRead a) := fun p hc h => by
  simp [encode, kindOf, status_headers p.strobeCode a h]
theorem sres (r : Bool) : Statement (.sres r) := fun p hc _ => by simp [encode, kindOf, strobe_headers hc]
theorem scal (r : Bool) : Statement (.scal r) := fun p hc _ => by simp [encode, kindOf, strobe_headers hc]
theorem srx (r : Bool) : Statement (.srx r) := fun p hc _ => by simp [encode, kindOf, strobe_headers hc]
theorem stx (r : Bool) : Statement (.stx r) := fun p hc _ => by simp [encode, kindOf, strobe_headers hc]
theorem sidle (r : Bool) : Statement (.sidle r) := fun p hc _ => by simp [encode, kindOf, strobe_headers hc]
theorem sfrx (r : Bool) : Statement (.sfrx r) := fun p hc _ => by simp [encode, kindOf, strobe_headers hc]
theorem sftx (r : Bool) : Statement (.sftx r) := fun p hc _ => by simp [encode, kindOf, strobe_headers hc]
theorem snop (r : Bool) : Statement (.snop r) := fun p hc _ => by simp [encode, kindOf, strobe_headers hc]
theorem readStatus : Statement .readStatus := fun p hc _ => by simp [encode, kindOf, strobe_headers hc]
theorem writeStatus : Statement .writeStatus := fun p hc _ => by simp [encode, kindOf, strobe_headers hc]
theorem sfstxon (r : Bool) : Statement (.sfstxon r) := fun p hc _ => by simp [encode, kindOf, strobe_headers hc]
theorem sxoff (r : Bool) : Statement (.sxoff r) := fun p hc _ => by simp [encode, kindOf, strobe_headers hc]
theorem swor (r : Bool) : Statement (.swor r) := fun p hc _ => by simp [encode, kindOf, strobe_headers hc]
theorem spwd (r : Bool) : Statement (.spwd r) := fun p hc _ => by simp [encode, kindOf, strobe_headers hc]
theorem sworrst (r : Bool) : Statement (.sworrst r) := fun p hc _ => by simp [encode, kindOf, strobe_headers hc]
theorem reserved2F (r b : Bool) : Statement (.reserved2F r b) := fun _ _ _ => by cases r <;> cases b <;> rfl
theorem reservedStrobe37 (r : Bool) : Statement (.reservedStrobe37 r) := fun p _ _ => by
  obtain ⟨h1, h2, h3⟩ := Machine.unassigned_spec p.strobeCode
  simp [encode, kindOf, Machine.decodeHeader_single_code p.strobeCode _ h1 h2, h3]
theorem reservedBurstWriteStatus (a : Addr) : Statement (.reservedBurstWriteStatus a) := fun p hc h => by
  simp [encode, kindOf, status_headers p.strobeCode a h]
theorem reservedBurstPatable (r : Bool) : Statement (.reservedBurstPatable r) := fun _ _ _ => by cases r <;> rfl

end Sys2Proof.Laws.HeaderDecodes
end

