-- ==== Sys2Proof/Tests/Slice0.lean ====
section
/-! SUPPORT. Tests: ill-formed terms that the well-formedness check refuses, words written out from the opcode table and
what they decode to, one step of each instruction on a small state, and for every obligation with hypotheses a state and
operands that meet them. The expected values come from the rule each comment names, or from the vector it names (V, X). -/

namespace Sys2Proof.Tests

open Sys2Proof Sys2Proof.Machine

/-! ### Helpers -/

/-- A node between two operations, with the target ready, and nothing else done yet. -/
def node : State := { State.reset with spiInited := true, ready := true }

/-- A node in phase `ph` whose turn it is. -/
def nodeAt (ph : Phase) : State := { node with phase := ph }

/-- The next state's `f`, none where there is no next state. -/
def after {α : Type} (f : State → α) (o : Host.Outcome State Fault Refusal) : Option α :=
  match o with
  | .next s => some (f s)
  | .fault _ => none
  | .refused _ => none

/-- The refusal of an outcome. -/
def refusal (o : Host.Outcome State Fault Refusal) : Option Refusal :=
  match o with
  | .next _ => none
  | .fault _ => none
  | .refused r => some r

/-- The fault of an outcome. -/
def faultOf (o : Host.Outcome State Fault Refusal) : Option Fault :=
  match o with
  | .next _ => none
  | .fault f => some f
  | .refused _ => none

/-- What the decoder reads, none where it rejects. -/
def decoded (bytes : List Byte) : Option Instr :=
  match decode Config.strobeCode bytes with
  | .ok i => some i
  | .error _ => none

/-- Why the decoder rejects. -/
def rejected (bytes : List Byte) : Option DecodeError :=
  match decode Config.strobeCode bytes with
  | .ok _ => none
  | .error e => some e

/-! ### Well-formedness smoke (R65, R61): one ill-formed term for each check -/

theorem test_wf_write_address : (Instr.writeSingleCfg 0x2F 0x00).wellFormed = false := by decide
theorem test_wf_read_address : (Instr.readSingleCfg 0x3E).wellFormed = false := by decide
theorem test_wf_burst_write_empty : (Instr.burstWriteCfg 0x00 []).wellFormed = false := by decide
theorem test_wf_burst_write_range : (Instr.burstWriteCfg 0x2E [1, 2]).wellFormed = false := by decide
theorem test_wf_burst_read_empty : (Instr.burstReadCfg 0x00 0).wellFormed = false := by decide
theorem test_wf_burst_read_range : (Instr.burstReadCfg 0x00 48).wellFormed = false := by decide
theorem test_wf_fifo_write_empty : (Instr.burstWriteFifo []).wellFormed = false := by decide
theorem test_wf_fifo_read_empty : (Instr.burstReadFifo 0).wellFormed = false := by decide
theorem test_wf_status_low : (Instr.statusRead 0x2F).wellFormed = false := by decide
theorem test_wf_status_high : (Instr.statusRead 0x3E).wellFormed = false := by decide
theorem test_wf_reserved_status : (Instr.reservedBurstWriteStatus 0x3E).wellFormed = false := by decide
theorem test_wf_whole_bank : (Instr.burstReadCfg 0x00 47).wellFormed = true := by decide

/-! ### Decoding: for every constructor, a word from the table's match and mask -/

theorem test_decode_write_single_cfg : decoded [0b00000110, 0x02] = some (.writeSingleCfg 0x06 0x02) := by decide
theorem test_decode_write_single_patable : decoded [0b00111110, 0xC0] = some (.writeSinglePatable 0xC0) := by decide
theorem test_decode_write_single_fifo : decoded [0b00111111, 0xAA] = some (.writeSingleFifo 0xAA) := by decide
theorem test_decode_burst_write_cfg : decoded [0b01010000, 0xDE, 0xAD] = some (.burstWriteCfg 0x10 [0xDE, 0xAD]) := by decide
theorem test_decode_burst_write_fifo : decoded [0b01111111, 0x01, 0x55] = some (.burstWriteFifo [0x01, 0x55]) := by decide
theorem test_decode_read_single_cfg : decoded [0b10000110, 0x00] = some (.readSingleCfg 0x06) := by decide
theorem test_decode_read_single_patable : decoded [0b10111110, 0x00] = some .readSinglePatable := by decide
theorem test_decode_read_single_fifo : decoded [0b10111111, 0x00] = some .readSingleFifo := by decide
theorem test_decode_burst_read_cfg : decoded [0b11101110, 0x00] = some (.burstReadCfg 0x2E 1) := by decide
theorem test_decode_burst_read_fifo : decoded [0b11111111, 0x00, 0x00] = some (.burstReadFifo 2) := by decide
theorem test_decode_status_read : decoded [0b11111011, 0x00] = some (.statusRead 0x3B) := by decide
theorem test_decode_sres : decoded [0b10110000] = some (.sres true) := by decide
theorem test_decode_scal : decoded [0b10110011] = some (.scal true) := by decide
theorem test_decode_srx : decoded [0b10110100] = some (.srx true) := by decide
theorem test_decode_stx : decoded [0b10110101] = some (.stx true) := by decide
theorem test_decode_sidle : decoded [0b00110110] = some (.sidle false) := by decide
theorem test_decode_sfrx : decoded [0b10111010] = some (.sfrx true) := by decide
theorem test_decode_sftx : decoded [0b10111011] = some (.sftx true) := by decide
theorem test_decode_snop : decoded [0b10111101] = some (.snop true) := by decide
theorem test_decode_write_status_word : decoded [0b00111101] = some (.snop false) := by decide
theorem test_decode_sfstxon : decoded [0b00110001] = some (.sfstxon false) := by decide
theorem test_decode_sxoff : decoded [0b10110010] = some (.sxoff true) := by decide
theorem test_decode_swor : decoded [0b10111000] = some (.swor true) := by decide
theorem test_decode_spwd : decoded [0b10111001] = some (.spwd true) := by decide
theorem test_decode_sworrst : decoded [0b10111100] = some (.sworrst true) := by decide
theorem test_decode_reserved_2f : decoded [0b11101111] = some (.reserved2F true true) := by decide
theorem test_decode_reserved_strobe_37 : decoded [0b10110111] = some (.reservedStrobe37 true) := by decide
theorem test_decode_reserved_burst_write_status : decoded [0b01111011] = some (.reservedBurstWriteStatus 0x3B) := by decide
theorem test_decode_reserved_burst_patable : decoded [0b11111110] = some (.reservedBurstPatable true) := by decide
theorem test_encode_read_status : encode Config.params .readStatus = [0xBD] := by decide
theorem test_encode_write_status : encode Config.params .writeStatus = [0x3D] := by decide

/-- Another choice of `STROBE_CODE` (R95): SRX at 37, which leaves 34 unassigned; and another `DUMMY`. -/
def otherParams : Params := { Config.params with strobeCode := { Config.strobeCode with srx := 0x37 }, dummy := 0xFF }

/-- R95: the code set is admitted; two strobes with one code, or a code outside 0x30 to 0x3D, are not. -/
theorem test_codes_admitted :
    otherParams.wf = true ∧ { Config.strobeCode with srx := 0x35 }.wf = false ∧
    { Config.strobeCode with srx := 0x2F }.wf = false ∧ { Config.strobeCode with srx := 0x3E }.wf = false := by decide

/-- R96 with the other codes: the header follows the strobe, and the code it left is reserved. -/
theorem test_decode_other_codes :
    decodeHeader otherParams.strobeCode 0xB7 = .strobe .srx true ∧
    decodeHeader otherParams.strobeCode 0x34 = .reserved ∧ encode otherParams (.srx true) = [0xB7] ∧
    encode otherParams (.reservedStrobe37 true) = [0xB4] := by decide
theorem test_reject_no_header : rejected [] = some .noHeader := by decide
theorem test_reject_missing_data : rejected [0x06] = some .missingData := by decide
theorem test_reject_extra_data : rejected [0x06, 0x02, 0x03] = some .extraData := by decide
theorem test_reject_byte_after_strobe : rejected [0xB0, 0x00] = some .extraData := by decide
theorem test_reject_leaves_range : rejected [0x6E, 0x00, 0x00] = some .leavesRange := by decide
theorem test_table_word_strobe : decodeTableWord 8 0x3A = some (.sfrx false) := by decide
theorem test_table_word_with_data : decodeTableWord 8 0x7F = some (.burstWriteFifo [0x00]) := by decide

/-! ### One step of each instruction -/

/-- R142: the byte is stored at the header's address. -/
theorem test_write_single_cfg : after (fun s => s.mem.read 0x06) (exec (.writeSingleCfg 0x06 0x02) node) = some (some 0x02) := by
  decide
/-- R25, R142. -/
theorem test_write_single_patable : after (fun s => s.mem) (exec (.writeSinglePatable 0xC0) node) = some [(0x3E, 0xC0)] := by
  decide
/-- R145: appended at the tail. -/
theorem test_write_single_fifo :
    after (fun s => s.txfifo) (exec (.writeSingleFifo 0xBB) { node with txfifo := [0xAA] }) = some [0xAA, 0xBB] := by decide
/-- R79: a full TX FIFO. -/
theorem test_write_single_fifo_full :
    refusal (exec (.writeSingleFifo 0xBB) { node with txfifo := List.replicate 64 0x00 }) = some .txFifoFull := by decide
/-- R143, R63: ascending addresses. -/
theorem test_burst_write_cfg :
    after (fun s => s.mem) (exec (.burstWriteCfg 0x2D [0xDE, 0xAD]) node) = some [(0x2D, 0xDE), (0x2E, 0xAD)] := by decide
/-- R143: in order. -/
theorem test_burst_write_fifo :
    after (fun s => s.txfifo) (exec (.burstWriteFifo [0x01, 0x55]) node) = some [0x01, 0x55] := by decide
/-- R140, R144. -/
theorem test_read_single_cfg :
    after (fun s => s.returned) (exec (.readSingleCfg 0x06) { node with mem := [(0x06, 0x02)] }) = some [0x02] := by decide
theorem test_read_single_patable :
    after (fun s => s.returned) (exec .readSinglePatable { node with mem := [(0x3E, 0xC0)] }) = some [0xC0] := by decide
/-- R144: the head is removed. -/
theorem test_read_single_fifo :
    after (fun s => (s.returned, s.rxfifo)) (exec .readSingleFifo { node with rxfifo := [1, 2] }) = some ([1], [2]) := by decide
theorem test_burst_read_cfg :
    after (fun s => s.returned) (exec (.burstReadCfg 0x10 2) { node with mem := [(0x10, 0xDE), (0x11, 0xAD)] }) =
      some [0xDE, 0xAD] := by decide
theorem test_burst_read_fifo :
    after (fun s => (s.returned, s.rxfifo)) (exec (.burstReadFifo 2) { node with rxfifo := [1, 2, 3] }) =
      some ([1, 2], [3]) := by decide
/-- R24: the exact length. -/
theorem test_status_read :
    after (fun s => s.returned) (exec (.statusRead 0x3B) { node with rxfifo := [7, 8, 9] }) = some [3] := by decide
/-- R173. -/
theorem test_sres :
    after (fun s => (s.chipState, s.ready, s.txfifo)) (exec (.sres true) { node with chipState := .tx, txfifo := [1] }) =
      some (.idle, false, []) := by decide
/-- R174. -/
theorem test_scal : after (fun s => (s.chipState, s.goal)) (exec (.scal true) node) = some (.calibrate, .toIdle) := by decide
/-- R175. -/
theorem test_srx : after (fun s => (s.chipState, s.goal)) (exec (.srx true) node) = some (.settling, .toRx) := by decide
theorem test_srx_refused : refusal (exec (.srx true) { node with chipState := .tx }) = some .concurrentStrobe := by decide
/-- R176. -/
theorem test_stx : after (fun s => (s.chipState, s.goal)) (exec (.stx true) node) = some (.settling, .toTx) := by decide
theorem test_stx_refused :
    refusal (exec (.stx true) { node with chipState := .settling, goal := .toRx }) = some .concurrentStrobe := by decide
/-- R177: the FIFOs keep what they hold. -/
theorem test_sidle :
    after (fun s => (s.chipState, s.rxfifo)) (exec (.sidle true) { node with chipState := .rx, rxfifo := [1] }) =
      some (.idle, [1]) := by decide
theorem test_sidle_error_state :
    after (fun s => s.chipState) (exec (.sidle true) { node with chipState := .rxOverflow }) = some .rxOverflow := by decide
/-- R178. -/
theorem test_sfrx :
    after (fun s => (s.chipState, s.rxfifo, s.txfifo))
      (exec (.sfrx true) { node with chipState := .rxOverflow, rxfifo := [1], txfifo := [2] }) =
      some (.idle, [], [2]) := by decide
/-- R179. -/
theorem test_sftx :
    after (fun s => (s.chipState, s.rxfifo, s.txfifo))
      (exec (.sftx true) { node with chipState := .txUnderflow, rxfifo := [1], txfifo := [2] }) =
      some (.idle, [1], []) := by decide
/-- R180. -/
theorem test_snop :
    after (fun s => (s.chipState, s.rxfifo)) (exec (.snop true) { node with chipState := .rx, rxfifo := [1] }) =
      some (.rx, [1]) := by decide
/-- R171, R32: the read-status framing carries the receive count, saturated at 15 (R105). -/
theorem test_read_status :
    fifoField 0xBD { node with rxfifo := List.replicate 20 0x00 } = 15 ∧
      after (fun s => (s.lastStatus.written, s.returned)) (exec .readStatus node) = some (true, []) := by decide
/-- R172, R32: the write-status framing carries the free bytes of the TX FIFO. -/
theorem test_write_status :
    fifoField 0x3D { node with txfifo := List.replicate 60 0x00 } = 4 ∧
      after (fun s => (s.lastStatus.written, s.returned)) (exec .writeStatus node) = some (true, []) := by decide
theorem test_sfstxon : refusal (exec (.sfstxon true) node) = some (.unnamedStrobe .sfstxon) := by decide
theorem test_sxoff : refusal (exec (.sxoff true) node) = some (.unnamedStrobe .sxoff) := by decide
theorem test_swor : refusal (exec (.swor true) node) = some (.unnamedStrobe .swor) := by decide
theorem test_spwd : refusal (exec (.spwd true) node) = some (.unnamedStrobe .spwd) := by decide
theorem test_sworrst : refusal (exec (.sworrst true) node) = some (.unnamedStrobe .sworrst) := by decide
theorem test_reserved_2f : refusal (exec (.reserved2F false true) node) = some .reservedHeader := by decide
theorem test_reserved_strobe_37 : refusal (exec (.reservedStrobe37 true) node) = some .reservedHeader := by decide
theorem test_reserved_burst_write_status :
    refusal (exec (.reservedBurstWriteStatus 0x3B) node) = some .reservedHeader := by decide
theorem test_reserved_burst_patable : refusal (exec (.reservedBurstPatable true) node) = some .reservedHeader := by decide

/-! ### Steps of the node -/

/-- R353, R98: a placed transaction runs as the first step after reset. -/
theorem test_fetch_word :
    after (fun s => (s.mem, s.request)) (step (State.reset.withFetchWord 16 0x0206)) = some ([(0x06, 0x02)], []) := by decide
/-- R97: a reserved header placed for the first step is refused. -/
theorem test_fetch_reserved : refusal (step (State.reset.withFetchWord 8 0x7B)) = some .reservedHeader := by decide
/-- R215, R120: the first step from reset. -/
theorem test_first_step :
    after (fun s => (s.phase, s.spiInited, s.wireLog)) (step State.reset) = some (.bootProfile, true, []) := by decide
/-- V40: the boot's last phase leads a BASE node to FLUSH_RX; the power byte is at 0x3E (R212). -/
theorem test_boot_tx_power :
    after (fun s => (s.phase, s.mem)) (step (nodeAt .bootTxPower)) = some (.flushRx, [(0x3E, 0xC0)]) := by decide
/-- R121, U29: with `T_READY = ∞` and no one left to make the target ready, the sequencer is stuck. -/
theorem test_stuck :
    faultOf (exec (.snop true) { node with ready := false, par := { Config.params with tReady := none } }) =
      some .stuckReadyWait := by decide
/-- R308: with a finite `T_READY` chip select is deasserted again and the error is taken. -/
theorem test_ready_timeout :
    after (fun s => (s.csn, s.err, s.wireLog)) (exec (.snop true) { node with ready := false }) =
      some (true, some { error := .hardwareTimeout .ready, phase := none }, [.select, .deselect]) := by decide
/-- R239, V-style hand calculation: 341 is 0x0155. -/
theorem test_encode_phase :
    after (fun s => (s.payload, s.phase)) (step { nodeAt .encode with reading := Datum.of 341 }) =
      some (Datum.of (0x01, 0x55), .flushTx) := by decide
/-- R246: a completion event wakes a sleeping sequencer and leaves the direction. -/
theorem test_completion_wakes :
    after (fun s => (s.sleeping, s.wakeDir, s.rxfifo))
      (step { nodeAt .sleepWaitRx with sleeping := true, waitOn := .completion, armed := true, dir := .rx,
                                       chipState := .rx, env := [.rxDone [0x01, 0x55] true] }) =
      some (false, .rx, [0x01, 0x55]) := by decide

/-! ### Witnesses: states and operands that meet the hypotheses of each obligation, at boundary values -/

theorem test_witness_DecodeReadsWhatEncodeWrites :
    Config.params.strobeCode.wf = true ∧ otherParams.strobeCode.wf = true ∧ WellFormed (.writeSingleCfg 0x2E 0xFF) ∧ WellFormed (.burstWriteCfg 0x2E [1]) ∧ WellFormed (.burstReadCfg 0x00 47) ∧
    WellFormed (.burstReadFifo 1) ∧ WellFormed (.statusRead 0x30) ∧ WellFormed (.reservedBurstWriteStatus 0x3D) := by decide

theorem test_witness_DecodedInstructionsAreWellFormed :
    decode Config.strobeCode [0x6E, 0x01] = .ok (.burstWriteCfg 0x2E [0x01]) ∧
    decode Config.strobeCode [0xFD, 0x00] = .ok (.statusRead 0x3D) := ⟨rfl, rfl⟩

/-- For every strobe's statement too: the strobe codes are admitted. -/
theorem test_witness_ready_node : node.par.strobeCode.wf = true ∧ node.busReady = true ∧ node.env = [] := by decide

theorem test_witness_ResetStrobeResetsTheTarget :
    node.par.strobeCode.wf = true ∧ node.busReady = true ∧ node.env = [] ∧ 0x2E ≤ 0x2E := by decide

/-- Both layouts of the status byte (R31). -/
theorem test_witness_StatusByteShowsTheChipState :
    node.par.stateHi = .hi7 ∧ { node with par := { Config.params with stateHi := .hi6 } }.par.stateHi = .hi6 := by decide

theorem test_witness_UnnamedAndReservedAreRefused :
    (let s := { node with csn := false, tdec := .awaitHeader }
     s.tdec = .awaitHeader ∧ s.par.strobeCode.wf = true ∧ s.par.strobeCode = Config.strobeCode) ∧
    { node with tdec := .done }.tdec = .done ∧ node.tdec = .closed ∧
    { node with tdec := .data .wb .pastEnd 47 }.tdec = .data .wb .pastEnd 47 := by decide

theorem test_witness_WriteSingleStoresTheByte :
    node.busReady = true ∧ node.env = [] ∧ (0x00 : Addr).toNat ≤ 0x2E ∧ (0x2E : Addr).toNat ≤ 0x2E := by decide

theorem test_witness_WriteSingleFifoAppendsOrIsRefused :
    (let s := { node with txfifo := List.replicate 63 0 }
     s.busReady = true ∧ s.env = [] ∧ s.txfifo.length < s.par.fifoDepth) ∧
    (let s := { node with txfifo := List.replicate 64 0 }
     s.busReady = true ∧ s.env = [] ∧ s.par.fifoDepth ≤ s.txfifo.length) := by decide

theorem test_witness_BurstWriteCfgStoresEachByte :
    node.busReady = true ∧ node.env = [] ∧ cfgBurst 0x2E [(1 : Byte)].length = true ∧
    cfgBurst 0x00 (List.replicate 47 (0 : Byte)).length = true := by decide

theorem test_witness_BurstWriteFifoAppendsOrIsRefused :
    (let s := { node with txfifo := List.replicate 62 0 }
     s.busReady = true ∧ s.env = [] ∧ 1 ≤ [(1 : Byte), 2].length ∧
       s.txfifo.length + [(1 : Byte), 2].length ≤ s.par.fifoDepth) ∧
    (let s := { node with txfifo := List.replicate 63 0 }
     s.par.fifoDepth < s.txfifo.length + [(1 : Byte), 2].length) := by decide

theorem test_witness_ReadSingleReturnsTheByte :
    (let s := { node with mem := [(0x2E, 0x09)] }
     s.busReady = true ∧ s.env = [] ∧ (0x2E : Addr).toNat ≤ 0x2E ∧ s.mem.read 0x2E = some 0x09 ∧
       s.mem.read patableAddr = none) ∧
    (let s := { node with mem := [(0x3E, 0xC0)] }
     s.busReady = true ∧ s.env = [] ∧ s.mem.read patableAddr = some 0xC0 ∧ s.mem.read 0x00 = none) := by decide

theorem test_witness_ReadSingleFifoPopsTheHead :
    (let s := { node with rxfifo := [5] }
     s.busReady = true ∧ s.env = [] ∧ s.rxfifo = 5 :: []) ∧
    (node.busReady = true ∧ node.env = [] ∧ node.rxfifo = []) := by decide

theorem test_witness_BurstReadCfgReturnsEachByte :
    (let s := { node with mem := [(0x2E, 0x09)] }
     s.busReady = true ∧ s.env = [] ∧ cfgBurst 0x2E 1 = true ∧ s.mem.read (0x2E + 0) = some 0x09 ∧
       unwrittenBefore s.mem 0x2D 2 = 1) ∧
    cfgBurst 0x00 47 = true := by decide

theorem test_witness_BurstReadFifoPopsInOrder :
    (let s := { node with rxfifo := [1, 2, 3] }
     s.busReady = true ∧ s.env = [] ∧ 1 ≤ 1 ∧ 64 ≤ s.par.fifoDepth) := by decide

theorem test_witness_StatusReadReturnsTheRegister :
    node.busReady = true ∧ node.env = [] ∧ statusAddr 0x3B = true ∧ (0x3B : Addr).toNat = node.par.rxbytesAddr ∧
    statusAddr 0x30 = true ∧ statusAddr 0x3D = true ∧ (0x3D : Addr).toNat ≠ node.par.rxbytesAddr := by decide

theorem test_witness_EnterStrobesFollowTheMatrix :
    node.par.strobeCode.wf = true ∧ node.busReady = true ∧ node.env = [] ∧ node.chipState = .idle ∧
    (let s := { node with chipState := .calibrate, goal := .toIdle }
     s.busReady = true ∧ s.env = [] ∧ isTransitional s.chipState = true ∧ s.goal ≠ .toTx ∧ s.goal ≠ .toRx) ∧
    (let s := { node with chipState := .settling, goal := .toTx }
     s.busReady = true ∧ s.env = [] ∧ isTransitional s.chipState = true ∧ s.goal = .toTx) ∧
    (let s := { node with chipState := .settling, goal := .toRx }
     s.busReady = true ∧ s.env = [] ∧ isTransitional s.chipState = true ∧ s.goal = .toRx) ∧
    (let s := { node with chipState := .rx }
     s.busReady = true ∧ s.env = []) ∧
    (let s := { node with chipState := .tx }
     s.busReady = true ∧ s.env = []) ∧
    (let s := { node with chipState := .fstxon }
     s.busReady = true ∧ s.env = []) ∧
    (let s := { node with chipState := .rxOverflow }
     s.busReady = true ∧ s.env = [] ∧ isErrorState s.chipState = true) := by decide

theorem test_witness_CalibrateAndIdleStrobes :
    node.par.strobeCode.wf = true ∧ node.busReady = true ∧ node.env = [] ∧ node.chipState = .idle ∧
    (let s := { node with chipState := .rx }
     s.busReady = true ∧ s.env = [] ∧ s.chipState ≠ .idle ∧ isErrorState s.chipState = false) ∧
    (let s := { node with chipState := .txUnderflow }
     s.busReady = true ∧ s.env = [] ∧ s.chipState ≠ .idle ∧ isErrorState s.chipState = true) := by decide

theorem test_witness_IllFormedInstructionsAreRefused :
    (Instr.burstWriteCfg 0x2E [1, 2]).wellFormed = false ∧ (∀ a, Instr.burstWriteCfg 0x2E [1, 2] ≠ .reservedBurstWriteStatus a) ∧
    node.par.fifoDepth < 65 := ⟨rfl, nofun, by decide⟩

theorem test_witness_SelectNeedsAnInitialisedIdleBus :
    bridgeAdmits State.reset (.snop true) = true ∧ State.reset.spiInited = false ∧
    (let s := { node with csn := false, tdec := .awaitHeader }
     bridgeAdmits s (.burstReadFifo 64) = true ∧ s.spiInited = true ∧ s.csn = false) := by decide

theorem test_witness_ReadyWaitExpiresOrIsStuck :
    (let s := { node with ready := false }
     bridgeAdmits s (.sres true) = true ∧ s.busIdle = true ∧ s.ready = false ∧ s.par.tReady.isSome = true ∧ s.env = []) ∧
    (let s := { node with ready := false, env := [.expire, .tick] }
     bridgeAdmits s (.sres true) = true ∧ s.busIdle = true ∧ s.ready = false ∧ s.par.tReady.isSome = true ∧
       s.env = [] ++ .expire :: [.tick]) ∧
    (let s := { node with ready := false, env := [.tick, .go, .expire, .tick] }
     bridgeAdmits s (.sres true) = true ∧ s.busIdle = true ∧ s.ready = false ∧ s.par.tReady.isSome = true ∧
       s.env = [.tick, .go] ++ .expire :: [.tick] ∧
       ∀ e ∈ ([.tick, .go] : List Event), e ≠ .becomeReady ∧ e ≠ .expire) ∧
    (let s := { node with ready := false, par := { Config.params with tReady := none }, env := [.tick, .expire] }
     bridgeAdmits s (.sres true) = true ∧ s.busIdle = true ∧ s.ready = false ∧ s.par.tReady = none ∧
       ∀ e ∈ s.env, e ≠ .becomeReady) := by decide

theorem test_witness_BecomeReadyEndsTheWait :
    (let s := { node with ready := false, env := [.becomeReady, .go] }
     s.busIdle = true ∧ s.ready = false ∧ s.env = .becomeReady :: [.go]) := by decide

theorem test_witness_ByteStallIsStuckOrTimesOut :
    (let s := { node with env := [.stall] }
     bridgeAdmits s (.scal true) = true ∧ s.busReady = true ∧ s.env = .stall :: [] ∧ s.par.tByte.isSome = true) ∧
    (let s := { node with env := [.stall], par := { Config.params with tByte := none } }
     bridgeAdmits s (.scal true) = true ∧ s.busReady = true ∧ s.env = .stall :: [] ∧ s.par.tByte = none) := by decide

theorem test_witness_ByteTimeoutLeavesAPrefix :
    (let s := { node with env := [.go, .go, .expire] }
     s.busReady = true ∧ cfgBurst 0x2D [(1 : Byte), 2].length = true ∧ 1 < [(1 : Byte), 2].length ∧
       s.par.tByte.isSome = true ∧ s.env = List.replicate (1 + 1) .go ++ .expire :: []) ∧
    (let s := { node with env := [.go, .expire] }
     s.busReady = true ∧ 0 < [(1 : Byte), 2].length ∧ s.env = List.replicate (0 + 1) .go ++ .expire :: []) := by decide

/-- For NoOperationLeavesChipSelected and InstructionsLeaveTheSequencerAlone. -/
theorem test_witness_NoOperationLeavesChipSelected :
    node.busIdle = true ∧ after (fun _ => true) (exec (.srx true) node) = some true ∧
    after (fun s => s.err.isSome) (exec (.srx true) { node with env := [.tick, .expire] }) = some true := by decide

theorem test_witness_RegisterAccessChangesNoChipState :
    (targetExchange 0x06 { node with tdec := .awaitHeader }).isOk = true ∧
    (targetExchange 0x99 { node with tdec := .data .ws (.at 0x2E) 0 }).isOk = true := by decide

theorem test_witness_header_is_no_strobe : ∀ n r, decodeHeader node.par.strobeCode 0x06 ≠ .strobe n r := by
  intro n r h
  exact absurd h (by rw [show decodeHeader node.par.strobeCode 0x06 = .access .ws 0x06 from rfl]; nofun)

theorem test_witness_CalmInstructionsComplete :
    (let s := { node with env := [.tick, .go, .rxDone [1, 2] true, .go], txfifo := List.replicate 63 0 }
     s.par.strobeCode.wf = true ∧ bridgeAdmits s (.writeSingleFifo 9) = true ∧ s.busReady = true ∧ calm s.env = true ∧
       s.txfifo.length < s.par.fifoDepth ∧ bridgeAdmits s (.burstReadFifo 64) = true) := by decide

/-- For both round trips. -/
theorem test_witness_SingleWriteThenReadReturnsTheByte :
    (let s := { node with env := [.settleGoal, .go] }
     s.busReady = true ∧ calm s.env = true ∧ calm [.go, .txDone] = true ∧ (0x2E : Addr).toNat ≤ 0x2E ∧
       cfgBurst 0x2D [(1 : Byte), 2].length = true) := by decide

theorem test_witness_StepRunsTheDecodedInstruction :
    (let s := { node with request := [0x06, 0x02] }
     s.env = [] ∧ s.sleeping = false ∧ s.phase ≠ .halt ∧ s.request ≠ []) ∧
    (let s := { node with request := [0x06], env := [.go, .tick] }
     s.env = .go :: [.tick] ∧ s.sleeping = false ∧ s.phase ≠ .halt ∧ s.request ≠ []) ∧
    decoded [0x06, 0x02] = some (.writeSingleCfg 0x06 0x02) ∧ rejected [0x06] = some .missingData := by decide

theorem test_witness_params : Config.params.wf = true := by decide

/-- The invariants of a node in a loop phase that nothing has armed. -/
theorem inv_nodeAt (ph : Phase) (h1 : ph ≠ .halt) (h2 : ph ≠ .encode) (h3 : ph.needsPayload = false) : (nodeAt ph).Inv where
  memory := rfl
  bus := ⟨rfl, rfl⟩
  rxDepth := Nat.zero_le _
  txDepth := Nat.zero_le _
  sleep h := Bool.noConfusion h
  halted h := absurd h h1
  goalOnlyInTransit h := absurd rfl h
  armedDir h := Bool.noConfusion h
  readingWritten h := absurd h h2
  payloadWritten h := absurd (show ph.needsPayload = true from h) (by simp [h3])
  params := rfl

/-- For StepKeepsTheInvariants and LoopsNeverWriteConfiguration. -/
theorem test_witness_StepKeepsTheInvariants :
    (nodeAt .sample).Inv ∧ (nodeAt .sample).request = [] ∧ (nodeAt .sample).phase.inLoop = true ∧
    after (fun s => s.waitOn) (step (nodeAt .sample)) = some .tick ∧
    (nodeAt .resync).Inv ∧ after (fun s => s.phase) (step (nodeAt .resync)) = some .flushRx ∧
    (nodeAt .sleepWaitRx).Inv ∧ after (fun s => s.sleeping) (step (nodeAt .sleepWaitRx)) = some true :=
  ⟨inv_nodeAt _ nofun nofun rfl, rfl, rfl, rfl, inv_nodeAt _ nofun nofun rfl, by decide,
    inv_nodeAt _ nofun nofun rfl, rfl⟩

/-- For ErrorsLogsAndParametersPersist: an error is already recorded, the transport initialised. -/
theorem test_witness_ErrorsLogsAndParametersPersist :
    (let s := { nodeAt .resync with err := some { error := .protocolViolation .count 3, phase := some .drainFifo } }
     s.err.isSome = true ∧ s.spiInited = true ∧ after (fun t => t.phase) (step s) = some .flushRx) := by decide

/-- A node in HALT as the dispatch of a boot error leaves it. -/
def halted : State := dispatchError (.configurationError .profileId 7) (nodeAt .bootProfile)

theorem test_witness_SleepingOrHaltedNodeIsSilent :
    halted.Inv ∧ halted.phase = .halt ∧
    (let s := { nodeAt .sleepWaitRx with sleeping := true, waitOn := .completion, request := [0xB0] }
     s.sleeping = true) :=
  ⟨{ memory := rfl, bus := ⟨rfl, rfl⟩, rxDepth := Nat.zero_le _, txDepth := Nat.zero_le _, sleep := nofun,
     halted := fun _ => ⟨rfl, rfl, rfl⟩, goalOnlyInTransit := fun h => absurd rfl h, armedDir := nofun,
     readingWritten := nofun, payloadWritten := nofun, params := rfl }, rfl, rfl⟩

theorem test_witness_RxDoneFillsFlushesOrOverflows :
    (let s := { nodeAt .sleepWaitRx with env := [.rxDone [1, 2] true] }
     s.env = .rxDone [1, 2] true :: [] ∧ s.chipState ≠ .rx) ∧
    (let s := { nodeAt .sleepWaitRx with env := [.rxDone [1, 2] true], chipState := .rx, rxfifo := List.replicate 63 0 }
     s.chipState = .rx ∧ s.par.fifoDepth < s.rxfifo.length + 2) ∧
    (let s := { nodeAt .sleepWaitRx with env := [.rxDone [1, 2] false], chipState := .rx, rxfifo := List.replicate 62 0 }
     s.chipState = .rx ∧ s.par.crcAutoflush = false ∧ s.rxfifo.length + 2 ≤ s.par.fifoDepth) ∧
    (let s := { nodeAt .sleepWaitRx with
                env := [.rxDone [1, 2] false], chipState := .rx, par := { Config.params with crcAutoflush := true } }
     s.chipState = .rx ∧ s.par.crcAutoflush = true) := by decide

theorem test_witness_TxDoneAndTxUnderflow :
    (let s := { nodeAt .sleepWaitTx with env := [.txDone], chipState := .tx, txfifo := [1, 2] }
     s.env = .txDone :: [] ∧ s.chipState = .tx ∧ s.txfifo = 1 :: 2 :: []) ∧
    (let s := { nodeAt .sleepWaitTx with env := [.txDone], chipState := .tx, txfifo := [1] }
     s.env = .txDone :: [] ∧ s.txfifo.length < 2) ∧
    (let s := { nodeAt .sleepWaitTx with env := [.txUnderflow true], chipState := .tx, txfifo := [1] }
     s.env = .txUnderflow true :: [] ∧ s.chipState = .tx ∧ s.txfifo.length < 2) ∧
    (let s := { nodeAt .sleepWaitTx with env := [.txUnderflow false], chipState := .tx, txfifo := [1, 2] }
     s.env = .txUnderflow false :: [] ∧ 2 ≤ s.txfifo.length) := by decide

theorem test_witness_SettleAndBecomeReady :
    (let s := { node with env := [.settleGoal], chipState := .calibrate, goal := .toIdle }
     s.env = .settleGoal :: [] ∧ isTransitional s.chipState = true ∧ s.goal = .toIdle) ∧
    (let s := { node with env := [.settleGoal], chipState := .settling, goal := .toRx }
     s.env = .settleGoal :: [] ∧ isTransitional s.chipState = true ∧ s.goal = .toRx) ∧
    (let s := { node with env := [.settleGoal], chipState := .settling, goal := .toTx }
     s.env = .settleGoal :: [] ∧ isTransitional s.chipState = true ∧ s.goal = .toTx) ∧
    (let s := { node with env := [.settleGoal] }
     s.env = .settleGoal :: [] ∧ isTransitional s.chipState = false) ∧
    (let s := { node with env := [.settleOther], chipState := .calibrate, goal := .toRx }
     s.env = .settleOther :: [] ∧ s.goal ≠ .none ∧ s.swapUsed = false) ∧
    (let s := { node with env := [.settleOther], chipState := .settling, goal := .toTx, swapUsed := true }
     s.env = .settleOther :: [] ∧ s.goal ≠ .none ∧ s.swapUsed = true) ∧
    (let s := { node with env := [.becomeReady], ready := false }
     s.env = .becomeReady :: []) := by decide

theorem test_witness_CompletionEventWakesOrLatches :
    State.reset.phase.booting = true ∧ (nodeAt .flushRx).phase.booting = false ∧ (nodeAt .flushRx).armed = false ∧
    (let s := { nodeAt .sleepWaitRx with armed := true, sleeping := true, dir := .rx }
     s.phase.booting = false ∧ s.armed = true ∧ s.sleeping = true) ∧
    (let s := { nodeAt .sleepWaitTx with armed := true, dir := .tx }
     s.phase.booting = false ∧ s.armed = true ∧ s.sleeping = false ∧ s.dir = .tx) ∧
    (let s := { nodeAt .sleepWaitTx with armed := true }
     s.phase.booting = false ∧ s.armed = true ∧ s.dir = .unwritten) := by decide

theorem test_witness_AirDeliversCorruptsOrDrops :
    (let t := { node with chipState := .tx, txfifo := [1, 2] }
     t.chipState = .tx ∧ t.txfifo = 1 :: 2 :: []) ∧
    (let n := { node with chipState := .rx, rxfifo := List.replicate 62 0 }
     n.chipState = .rx ∧ n.rxfifo.length + 2 ≤ n.par.fifoDepth) ∧ node.chipState ≠ .rx := by decide

theorem test_witness_ErrorDispatchFollowsThePolicy :
    State.reset.phase.booting = true ∧ (nodeAt .resync).phase = .resync ∧ (nodeAt .drainFifo).phase.booting = false ∧
    (nodeAt .drainFifo).phase ≠ .resync ∧
    policyOf (nodeAt .drainFifo).par.errPolicy (.hardwareTimeout .wait) = .restart ∧
    policyOf (nodeAt .drainFifo).par.errPolicy (.protocolViolation .count 3) = .resync ∧
    policyOf (nodeAt .drainFifo).par.errPolicy (.configurationError .powerLevel 9) = .halt := by decide

theorem test_witness_quiet (ph : Phase) : (nodeAt ph).quietAt ph := ⟨rfl, rfl, rfl, rfl, rfl⟩

theorem test_witness_SuspendWakeOrExpire :
    (let s := { nodeAt .sleepWaitRx with wakeSlot := true }
     s.quietAt .sleepWaitRx ∧ s.waitOn ≠ .completion ∧ s.wakeSlot = true) ∧
    ((nodeAt .sleepWaitTx).quietAt .sleepWaitTx ∧ (nodeAt .sleepWaitTx).waitOn ≠ .completion ∧
      (nodeAt .sleepWaitTx).wakeSlot = false) ∧
    (let s := { nodeAt .sleepWaitTx with waitOn := .completion }
     s.quietAt .sleepWaitTx ∧ s.waitOn = .completion) ∧
    (let s := { nodeAt .sleepWaitRx with sleeping := true, waitOn := .completion, env := [.expire] }
     s.env = .expire :: [] ∧ s.sleeping = true ∧ s.waitOn = .completion ∧ s.wakeSlot = false ∧ s.par.tWait.isSome = true) ∧
    (let s := { nodeAt .sleepWaitRx with env := [.expire] }
     s.env = .expire :: [] ∧ s.sleeping = false) := by
  refine ⟨⟨⟨rfl, rfl, rfl, rfl, rfl⟩, by decide, rfl⟩, ⟨⟨rfl, rfl, rfl, rfl, rfl⟩, by decide, rfl⟩,
    ⟨⟨rfl, rfl, rfl, rfl, rfl⟩, rfl⟩, by decide, by decide⟩

theorem test_witness_InvalidInputsAreRejectedBeforeTheWire :
    node.csn = true ∧ ¬ ((0 : Int) ≤ -1 ∧ (-1 : Int) < node.par.profiles.length) ∧
    ¬ ((0 : Int) ≤ 1 ∧ (1 : Int) < node.par.profiles.length) ∧ (0 : Int) < node.par.profiles.length ∧
    ∀ b, (1, b) ∉ node.par.paLevels := by decide

theorem test_witness_LoadProfileWritesTheProfile :
    (let s := { node with env := [.go, .go, .becomeReady] }
     s.par.strobeCode.wf = true ∧ s.busReady = true ∧ s.env = [.go, .go, .becomeReady] ∧ profileOf s.par 0 = some Config.profile0 ∧
       Config.profile0.length = 47) := by decide

theorem test_witness_SetupPacketModeWritesInOrder :
    node.busReady = true ∧ node.env = [] ∧ node.par.wf = true := by decide

theorem test_witness_BootReachesTheLoop :
    Config.params.wf = true ∧ profileOf Config.params Config.params.profileId = some Config.profile0 ∧
    paByte Config.params Config.params.txPowerLevel = some 0xC0 := by decide

/-- For every phase that issues a strobe: the strobe codes are admitted. -/
theorem test_witness_FlushPhases :
    (nodeAt .flushRx).par.strobeCode.wf = true ∧ (nodeAt .flushRx).quietAt .flushRx ∧ isErrorState (nodeAt .flushRx).chipState = false ∧
    (let s := { nodeAt .flushTx with chipState := .rxOverflow }
     s.quietAt .flushTx ∧ isErrorState s.chipState = true) :=
  ⟨rfl, test_witness_quiet _, rfl, ⟨rfl, rfl, rfl, rfl, rfl⟩, rfl⟩

theorem test_witness_ArmRxArmsThenStrobes :
    (nodeAt .armRx).par.strobeCode.wf = true ∧ (nodeAt .armRx).quietAt .armRx ∧ (nodeAt .armRx).chipState = .idle ∧
    (nodeAt .armRx).par.tByte.isSome = true ∧
    (let s := { nodeAt .armRx with chipState := .rx, rxfifo := List.replicate 62 0 }
     s.quietAt .armRx ∧ s.rxfifo.length + 2 ≤ s.par.fifoDepth) ∧
    (let s := { nodeAt .armRx with chipState := .calibrate, goal := .toIdle }
     s.quietAt .armRx ∧ isTransitional s.chipState = true ∧ s.goal ≠ .toTx) ∧
    (let s := { nodeAt .armRx with chipState := .txUnderflow }
     s.quietAt .armRx ∧ isErrorState s.chipState = true) ∧
    (let s := { nodeAt .armRx with chipState := .settling, goal := .toTx }
     s.quietAt .armRx ∧ isTransitional s.chipState = true ∧ s.goal = .toTx) :=
  ⟨rfl, test_witness_quiet _, rfl, rfl, ⟨⟨rfl, rfl, rfl, rfl, rfl⟩, by decide⟩, ⟨⟨rfl, rfl, rfl, rfl, rfl⟩, rfl, nofun⟩,
    ⟨⟨rfl, rfl, rfl, rfl, rfl⟩, rfl⟩, ⟨⟨rfl, rfl, rfl, rfl, rfl⟩, rfl, rfl⟩⟩

theorem test_witness_DrainFifoReadsOnePacket :
    (nodeAt .drainFifo).quietAt .drainFifo ∧ (nodeAt .drainFifo).par.wf = true ∧ (nodeAt .drainFifo).rxfifo = [] ∧
    (let s := { nodeAt .drainFifo with chipState := .rxOverflow, rxfifo := List.replicate 64 0 }
     s.quietAt .drainFifo ∧ s.rxfifo.length ≤ s.par.fifoDepth ∧ isErrorState s.chipState = true) ∧
    (let s := { nodeAt .drainFifo with rxfifo := [1, 2, 3] }
     s.quietAt .drainFifo ∧ s.rxfifo.length ≤ s.par.fifoDepth ∧ s.par.maxPktLen < s.rxfifo.length) ∧
    (let s := { nodeAt .drainFifo with rxfifo := [1, 2] }
     s.quietAt .drainFifo ∧ s.rxfifo = 1 :: 2 :: [] ∧ s.rxfifo.length ≤ s.par.maxPktLen) ∧
    (let s := { nodeAt .drainFifo with rxfifo := [1] }
     s.quietAt .drainFifo ∧ s.rxfifo = [1] ∧ 1 ≤ s.par.maxPktLen) :=
  ⟨test_witness_quiet _, rfl, rfl, ⟨⟨rfl, rfl, rfl, rfl, rfl⟩, by decide, rfl⟩,
    ⟨⟨rfl, rfl, rfl, rfl, rfl⟩, by decide, by decide⟩, ⟨⟨rfl, rfl, rfl, rfl, rfl⟩, rfl, by decide⟩,
    ⟨⟨rfl, rfl, rfl, rfl, rfl⟩, rfl, by decide⟩⟩

theorem test_witness_ForwardAndEncode :
    (let s := { nodeAt .forward with payload := Datum.of (1, 2) }
     s.quietAt .forward ∧ s.payload.written = true) ∧
    ((nodeAt .forward).quietAt .forward ∧ (nodeAt .forward).payload.written = false) ∧
    (let s := { nodeAt .encode with reading := Datum.of 1023 }
     s.quietAt .encode ∧ s.reading.written = true) ∧
    ((nodeAt .encode).quietAt .encode ∧ (nodeAt .encode).reading.written = false) :=
  ⟨⟨⟨rfl, rfl, rfl, rfl, rfl⟩, rfl⟩, ⟨test_witness_quiet _, rfl⟩, ⟨⟨rfl, rfl, rfl, rfl, rfl⟩, rfl⟩,
    ⟨test_witness_quiet _, rfl⟩⟩

theorem test_witness_SampleWaitsForTickAndConversion :
    ((nodeAt .sample).quietAt .sample ∧ (nodeAt .sample).waitOn ≠ .conversion ∧ (nodeAt .sample).tickSlot = false) ∧
    (let s := { nodeAt .sample with tickSlot := true, waitOn := .tick }
     s.quietAt .sample ∧ s.waitOn ≠ .conversion ∧ s.tickSlot = true) ∧
    (let s := { nodeAt .sample with waitOn := .conversion }
     s.quietAt .sample ∧ s.waitOn = .conversion) ∧
    (let s := { nodeAt .sample with waitOn := .tick, sleeping := true, env := [.tick] }
     s.env = .tick :: [] ∧ s.waitOn = .tick) ∧
    (let s := { nodeAt .sample with waitOn := .conversion, sleeping := true, env := [.conversionDone] }
     s.env = .conversionDone :: [] ∧ s.waitOn = .conversion) :=
  ⟨⟨test_witness_quiet _, nofun, rfl⟩, ⟨⟨rfl, rfl, rfl, rfl, rfl⟩, nofun, rfl⟩, ⟨⟨rfl, rfl, rfl, rfl, rfl⟩, rfl⟩,
    ⟨rfl, rfl⟩, ⟨rfl, rfl⟩⟩

theorem test_witness_TransmitWritesArmsThenStrobes :
    (nodeAt .transmit).par.strobeCode.wf = true ∧ ((nodeAt .transmit).quietAt .transmit ∧ (nodeAt .transmit).payload.written = false) ∧
    (let s := { nodeAt .transmit with payload := Datum.of (1, 2), txfifo := List.replicate 63 0 }
     s.quietAt .transmit ∧ s.payload = Datum.of (1, 2) ∧ s.par.fifoDepth < s.txfifo.length + 2) ∧
    (let s := { nodeAt .transmit with payload := Datum.of (1, 2), txfifo := List.replicate 62 0 }
     s.quietAt .transmit ∧ s.txfifo.length + 2 ≤ s.par.fifoDepth ∧ s.chipState = .idle ∧ s.par.tByte.isSome = true ∧
     isErrorState s.chipState = false) ∧
    (let s := { nodeAt .transmit with payload := Datum.of (1, 2), chipState := .settling, goal := .toTx }
     s.quietAt .transmit ∧ isTransitional s.chipState = true ∧ s.goal ≠ .toRx) ∧
    (let s := { nodeAt .transmit with payload := Datum.of (1, 2), chipState := .tx, txfifo := List.replicate 62 0 }
     s.quietAt .transmit ∧ s.payload = Datum.of (1, 2) ∧ s.txfifo.length + 2 ≤ s.par.fifoDepth) ∧
    (let s := { nodeAt .transmit with payload := Datum.of (1, 2), chipState := .rxOverflow }
     s.quietAt .transmit ∧ isErrorState s.chipState = true) ∧
    (let s := { nodeAt .transmit with payload := Datum.of (1, 2), chipState := .settling, goal := .toRx }
     s.quietAt .transmit ∧ isTransitional s.chipState = true ∧ s.goal = .toRx) :=
  ⟨rfl, ⟨test_witness_quiet _, rfl⟩, ⟨⟨rfl, rfl, rfl, rfl, rfl⟩, rfl, by decide⟩, ⟨⟨rfl, rfl, rfl, rfl, rfl⟩, by decide, rfl, rfl, rfl⟩,
    ⟨⟨rfl, rfl, rfl, rfl, rfl⟩, rfl, nofun⟩, ⟨⟨rfl, rfl, rfl, rfl, rfl⟩, rfl, by decide⟩,
    ⟨⟨rfl, rfl, rfl, rfl, rfl⟩, rfl⟩, ⟨⟨rfl, rfl, rfl, rfl, rfl⟩, rfl, rfl⟩⟩

/-- A node of the role `r` with *boot completed* (R354), at the first phase of its role. -/
def booted (r : Role) : State :=
  { node with phase := firstPhase r, mem := bootMemory Config.params Config.profile0 0xC0 [],
              par := { Config.params with role := r } }

theorem test_witness_LoopsCanRunForEver (r : Role) :
    let s := booted r
    s.bootCompleted ∧ s.Inv ∧ s.spiInited = true ∧ s.env = [] ∧ s.request = [] ∧ s.waitOn = .none ∧
    s.phase = firstPhase s.par.role ∧ s.goal = .none ∧ 2 ≤ s.par.maxPktLen := by
  refine ⟨⟨by cases r <;> rfl, rfl, rfl, rfl, rfl, rfl, rfl, rfl, rfl, rfl, Config.profile0, 0xC0, rfl, rfl, fun _ _ => rfl⟩,
    { memory := by cases r <;> decide, bus := ⟨rfl, rfl⟩, rxDepth := Nat.zero_le _, txDepth := Nat.zero_le _,
      sleep := nofun, halted := fun h => ?_, goalOnlyInTransit := fun h => absurd rfl h, armedDir := nofun,
      readingWritten := fun h => ?_, payloadWritten := fun h => ?_, params := by cases r <;> decide },
    rfl, rfl, rfl, rfl, rfl, rfl, by cases r <;> decide⟩ <;> cases r <;> cases h

theorem test_witness_ResyncRestoresIdle : (nodeAt .resync).quietAt .resync ∧ (nodeAt .resync).Inv :=
  ⟨test_witness_quiet _, inv_nodeAt _ nofun nofun rfl⟩

end Sys2Proof.Tests
end

section
/-! PROOFS of the statements about the state of the node, first part: the power-on state, and the layout of the status byte
(R31). -/

namespace Sys2Proof.Machine

/-- Settles O35: every power-on value is a field of `State.resetWith`. -/
theorem powerOnState : Obligations.PowerOnState := by
  unfold Obligations.PowerOnState
  intro p
  exact ⟨fun _ => rfl, rfl, rfl, rfl, rfl, rfl, rfl, rfl, rfl, rfl, rfl, rfl, rfl, rfl, rfl, rfl, rfl, rfl, rfl, rfl, rfl,
    rfl, rfl⟩

/-- Both queues are empty, no goal is set and the sequencer is awake in a boot phase, so only the parameters matter. -/
theorem resetWith_inv (p : Params) (c : ChipState) (hp : p.wf = true) :
    ({ State.resetWith p with chipState := c } : State).Inv where
  memory := rfl
  bus := ⟨rfl, rfl⟩
  rxDepth := Nat.zero_le _
  txDepth := Nat.zero_le _
  sleep := nofun
  halted := nofun
  goalOnlyInTransit h := absurd rfl h
  armedDir := nofun
  readingWritten := nofun
  payloadWritten := nofun
  params := hp

/-- Settles O36: `State.reset` is the case of the default parameters in IDLE. -/
theorem resetSatisfiesTheInvariants : Obligations.ResetSatisfiesTheInvariants := by
  unfold Obligations.ResetSatisfiesTheInvariants
  exact ⟨resetWith_inv Config.params .idle rfl, resetWith_inv⟩

/-- The fields of a status byte with the state in its top bits (R31). -/
theorem packStatus_hi7_toNat (code : BitVec 3) (spare : BitVec 1) (count : BitVec 4) :
    (packStatus .hi7 code spare count).toNat = 32 * code.toNat + 16 * spare.toNat + count.toNat := by
  have hs := spare.isLt
  have hc := count.isLt
  simp only [packStatus, BitVec.toNat_append]
  rw [← Nat.shiftLeft_add_eq_or_of_lt hs, ← Nat.shiftLeft_add_eq_or_of_lt hc]
  simp only [Nat.shiftLeft_eq]
  omega

/-- The fields of a status byte with the spare bit on top (R31). -/
theorem packStatus_hi6_toNat (code : BitVec 3) (spare : BitVec 1) (count : BitVec 4) :
    (packStatus .hi6 code spare count).toNat = 128 * spare.toNat + 16 * code.toNat + count.toNat := by
  have hs := code.isLt
  have hc := count.isLt
  simp only [packStatus, BitVec.toNat_append]
  rw [← Nat.shiftLeft_add_eq_or_of_lt hs, ← Nat.shiftLeft_add_eq_or_of_lt hc]
  simp only [Nat.shiftLeft_eq]
  omega

/-- The low four bits are the count in both layouts (R31). -/
theorem packStatus_toNat_mod (hi : StateHi) (code : BitVec 3) (spare : BitVec 1) (count : BitVec 4) :
    (packStatus hi code spare count).toNat % 16 = count.toNat := by
  have hc := count.isLt
  cases hi
  · rw [packStatus_hi7_toNat]; omega
  · rw [packStatus_hi6_toNat]; omega

/-- The code of a chip state is its position in the list of R29. -/
theorem chipStatesInOrder_chipCode (c : ChipState) : chipStatesInOrder[(chipCode c).toNat]? = some c := by
  cases c <;> rfl

theorem statusByte_toNat_mod (h : Byte) (s : State) : (statusByte h s).toNat % 16 = (fifoField h s).toNat :=
  packStatus_toNat_mod _ _ _ _

/-- The master decodes the count field of a status byte (R31). -/
theorem countOf_statusByte (h : Byte) (s : State) : countOf (statusByte h s) = fifoField h s := by
  apply BitVec.eq_of_toNat_eq
  rw [← statusByte_toNat_mod, countOf, BitVec.extractLsb'_toNat]
  rfl

/-- The state field and the spare bit of a status byte with the state in its top bits (R31). -/
theorem statusByte_hi7 {h : Byte} {s : State} (hl : s.par.stateHi = .hi7) :
    (statusByte h s).toNat / 32 = (chipCode s.chipState).toNat ∧
      (statusByte h s).toNat / 16 % 2 = (Config.drawBit s.draws).toNat := by
  have hs := (Config.drawBit s.draws).isLt
  have hc := (fifoField h s).isLt
  rw [statusByte, hl, packStatus_hi7_toNat]
  omega

/-- The state field and the spare bit of a status byte with the spare bit on top (R31). -/
theorem statusByte_hi6 {h : Byte} {s : State} (hl : s.par.stateHi = .hi6) :
    (statusByte h s).toNat / 16 % 8 = (chipCode s.chipState).toNat ∧
      (statusByte h s).toNat / 128 = (Config.drawBit s.draws).toNat := by
  have hs := (chipCode s.chipState).isLt
  have hc := (fifoField h s).isLt
  rw [statusByte, hl, packStatus_hi6_toNat]
  omega

/-- Settles O19: the byte as a sum of its fields, in each layout. -/
theorem statusByteShowsTheChipState : Obligations.StatusByteShowsTheChipState := by
  unfold Obligations.StatusByteShowsTheChipState
  intro h s
  refine ⟨fun hl => ?_, fun hl => ?_, statusByte_toNat_mod h s, stateOf_statusByte h s, countOf_statusByte h s⟩
  · obtain ⟨hstate, hspare⟩ := statusByte_hi7 (h := h) hl
    exact ⟨hstate ▸ chipStatesInOrder_chipCode _, hspare⟩
  · obtain ⟨hstate, hspare⟩ := statusByte_hi6 (h := h) hl
    exact ⟨hstate ▸ chipStatesInOrder_chipCode _, hspare⟩

end Sys2Proof.Machine
end

section
/-! PROOFS of the statements about the state of the node, second part: what one instruction does to the registers of the
bridge and of the sequencer (R35, R54, R121, R182). -/

namespace Sys2Proof.Machine

theorem operation_not_initialised (keep : Bool) (tx : List Byte) {s : State} (hi : s.spiInited = false) :
    operation keep tx s = .refused .notInitialised := by
  simp [operation, transact, select, hi, OpResult.andThen]

theorem operation_selected (keep : Bool) (tx : List Byte) {s : State} (hi : s.spiInited = true) (hc : s.csn = false) :
    operation keep tx s = .refused .alreadySelected := by
  simp [operation, transact, select, hi, hc, OpResult.andThen]

/-- Settles O23: an admitted instruction begins with `select`. -/
theorem selectNeedsAnInitialisedIdleBus : Obligations.SelectNeedsAnInitialisedIdleBus := by
  unfold Obligations.SelectNeedsAnInitialisedIdleBus
  intro i s ha
  obtain ⟨keep, hexec⟩ := exec_admitted i
  rw [hexec s ha]
  refine ⟨fun hi => ?_, fun hi hc => ?_⟩
  · rw [operation_not_initialised _ _ hi]; rfl
  · rw [operation_selected _ _ hi hc]; rfl

/-- What an instruction adds to its operation: the values returned to the caller, or the error recorded with no phase (R46,
R140, V41). -/
theorem exec_cases (P : State → Prop) {i : Instr} {s t : State} (hop : ∀ keep tx, (operation keep tx s).ended P)
    (h : exec i s = .next t) :
    ∃ u, P u ∧ ((∃ vs, t = { u with returned := vs }) ∨ ∃ e, t = surfaceToCaller e u) := by
  obtain ⟨keep, hf⟩ := exec_next i s t h
  have hP := hop keep (encode s.par i)
  cases hx : operation keep (encode s.par i) s with
  | ok r u => rw [hx] at hf hP; cases hf; exact ⟨u, hP, .inl ⟨_, rfl⟩⟩
  | err e u => rw [hx] at hf hP; cases hf; exact ⟨u, hP, .inr ⟨e, rfl⟩⟩
  | refused r => rw [hx] at hf; cases hf
  | stuck f => rw [hx] at hf; cases hf

/-- Settles O30: an operation stays `Within`, and an instruction adds what its caller is told. -/
theorem instructionsLeaveTheSequencerAlone : Obligations.InstructionsLeaveTheSequencerAlone := by
  unfold Obligations.InstructionsLeaveTheSequencerAlone
  intro i s t h
  obtain ⟨u, w, ⟨vs, rfl⟩ | ⟨e, rfl⟩⟩ := exec_cases (Within s) (fun keep tx => operation_within keep tx s) h
  · exact ⟨w.dir, w.phase, w.reading, w.payload, w.rxcount, w.hostOut, w.spiInited, w.par, w.armed, w.sleeping,
      .inl w.err⟩
  · exact ⟨w.dir, w.phase, w.reading, w.payload, w.rxcount, w.hostOut, w.spiInited, w.par, w.armed, w.sleeping,
      .inr ⟨e, rfl⟩⟩

end Sys2Proof.Machine
end

section
/-! PROOFS of the statements about the state of the node, third part: what one step can be, said once (`StepCase`), and from
it that a sleeping or halted node is silent (R41, R245, R311). -/

namespace Sys2Proof.Machine

/-- What a step from `s` that answers a next state has been: a step of another agent, the expiry of the wait, no action of a
suspended or halted sequencer, a caller's transaction, or a phase that ended with `Ok` or with an error. `es` are the
environment's choices that were left. -/
inductive StepCase (s : State) : State → Prop
  | agent (e : Event) (es : List Event) : StepCase s (agentStep e (s.withEnv es))
  | expiry (es : List Event) : StepCase s (waitExpires (s.withEnv es))
  | silent (es : List Event) : StepCase s (s.withEnv es)
  | caller (es : List Event) (i : Instr) (t : State) (awake : s.sleeping = false) (running : s.phase ≠ .halt)
      (run : exec i { s.withEnv es with request := [] } = .next t) : StepCase s t
  | phaseOk (es : List Event) (t : State) (awake : s.sleeping = false) (running : s.phase ≠ .halt)
      (run : runPhase (s.withEnv es) = .ok () t) : StepCase s t
  | phaseErr (es : List Event) (e : OpError) (t : State) (awake : s.sleeping = false) (running : s.phase ≠ .halt)
      (run : runPhase (s.withEnv es) = .err e t) : StepCase s (dispatchError e t)

/-- The state after a turn (`step`, from the turn). -/
def runTurn : Turn → Host.Outcome State Fault Refusal
  | .other t => .next t
  | .phase t => phaseStep t
  | .fetch bytes t =>
    match decode t.par.strobeCode bytes with
    | .ok i => exec i t
    | .error e => .refused (.badTransaction e)

theorem step_eq_runTurn (s : State) : step s = runTurn (nextTurn s) := by
  unfold step
  cases nextTurn s <;> rfl

theorem sequencerTurn_silent {s : State} (h : s.sleeping = true ∨ s.phase = .halt) : sequencerTurn s = .other s := by
  rcases h with h | h <;> simp [sequencerTurn, h]

theorem sequencerTurn_awake {s : State} (awake : s.sleeping = false) (running : s.phase ≠ .halt) :
    sequencerTurn s = if s.request.isEmpty then .phase s else .fetch s.request { s with request := [] } := by
  simp [sequencerTurn, awake, running]

theorem phaseStep_case {s t : State} {es : List Event} (awake : s.sleeping = false) (running : s.phase ≠ .halt)
    (h : phaseStep (s.withEnv es) = .next t) : StepCase s t := by
  unfold phaseStep at h
  split at h <;> cases h
  · exact .phaseOk es _ awake running ‹_›
  · exact .phaseErr es _ _ awake running ‹_›

theorem sequencerTurn_case {s t : State} (es : List Event) (h : runTurn (sequencerTurn (s.withEnv es)) = .next t) :
    StepCase s t := by
  by_cases hq : s.sleeping = true ∨ s.phase = .halt
  · rw [sequencerTurn_silent (s := s.withEnv es) hq] at h
    cases h
    exact .silent es
  · obtain ⟨awake, running⟩ : s.sleeping = false ∧ s.phase ≠ .halt := by simpa using hq
    rw [sequencerTurn_awake (s := s.withEnv es) awake running] at h
    split at h
    · exact phaseStep_case awake running h
    · simp only [runTurn] at h
      split at h
      · exact .caller es _ _ awake running h
      · cases h

/-- Every step that answers a next state is one of the cases. -/
theorem step_case {s t : State} (h : step s = .next t) : StepCase s t := by
  rw [step_eq_runTurn] at h
  unfold nextTurn at h
  split at h
  · exact sequencerTurn_case s.env h
  · split at h
    · exact sequencerTurn_case _ h
    split at h <;> cases h
    · exact .expiry _
    · exact .agent _ _

/-- A suspended or halted sequencer has no action that could be refused or stuck (R41, R311). -/
theorem step_silent_answers {s : State} (h : s.sleeping = true ∨ s.phase = .halt) : ∃ t, step s = .next t := by
  rw [step_eq_runTurn]
  unfold nextTurn
  split
  · exact ⟨_, by rw [sequencerTurn_silent h]; rfl⟩
  · split
    · exact ⟨_, by rw [sequencerTurn_silent (by exact h)]; rfl⟩
    split <;> exact ⟨_, rfl⟩

/-- The bound of a wait expires only on a sequencer that sleeps (R245 (b)). -/
theorem waitExpires_cases (s : State) :
    waitExpires s = s ∨ (s.sleeping = true ∧ waitExpires s = dispatchError (.hardwareTimeout .wait) s) := by
  unfold waitExpires
  split
  · rename_i h
    simp only [Bool.and_eq_true] at h
    exact .inr ⟨h.1.1.1, rfl⟩
  · exact .inl rfl

/-- What every step of a suspended or halted node leaves alone (R41, R311): the wire, memory, a placed transaction, the data
registers and the direction flag. -/
structure SilentFrame (s t : State) : Prop where
  wireLog : t.wireLog = s.wireLog
  mem : t.mem = s.mem
  request : t.request = s.request
  csn : t.csn = s.csn
  dir : t.dir = s.dir
  reading : t.reading = s.reading
  payload : t.payload = s.payload
  rxcount : t.rxcount = s.rxcount
  lastStatus : t.lastStatus = s.lastStatus
  hostOut : t.hostOut = s.hostOut

theorem withEnv_silentFrame (s : State) (es : List Event) : SilentFrame s (s.withEnv es) := by
  constructor <;> rfl

theorem agentStep_silentFrame (e : Event) (es : List Event) (s : State) :
    SilentFrame s (agentStep e (s.withEnv es)) := by
  obtain ⟨w, f⟩ := agentStep_frame e (s.withEnv es)
  exact ⟨f.wireLog, f.mem, w.request, f.csn, w.dir, w.reading, w.payload, w.rxcount, f.lastStatus, w.hostOut⟩

theorem waitExpires_silentFrame (es : List Event) (s : State) : SilentFrame s (waitExpires (s.withEnv es)) := by
  obtain h | ⟨_, h⟩ := waitExpires_cases (s.withEnv es) <;> rw [h]
  · exact withEnv_silentFrame s es
  · constructor <;> rfl

/-- The three cases of a step of a suspended or halted node. -/
theorem step_silentFrame {s t : State} (h : s.sleeping = true ∨ s.phase = .halt) (hs : step s = .next t) :
    SilentFrame s t := by
  have noTurn : s.sleeping = false → s.phase ≠ .halt → SilentFrame s t := fun awake running => by
    simp [awake, running] at h
  cases step_case hs with
  | agent e es => exact agentStep_silentFrame e es s
  | expiry es => exact waitExpires_silentFrame es s
  | silent es => exact withEnv_silentFrame s es
  | caller es i t awake running run => exact noTurn awake running
  | phaseOk es t awake running run => exact noTurn awake running
  | phaseErr es e t awake running run => exact noTurn awake running

/-- HALT is never left, nothing arms or suspends a node there, and its error stays as it is (R311): nothing is asleep there,
so no wait expires. -/
theorem step_halt {s t : State} (hh : s.phase = .halt) (hsl : s.sleeping = false) (hs : step s = .next t) :
    t.phase = .halt ∧ t.err = s.err ∧ (t.armed = true → s.armed = true) ∧ (t.sleeping = true → s.sleeping = true) := by
  cases step_case hs with
  | agent e es =>
    have w := (agentStep_frame e (s.withEnv es)).1
    exact ⟨w.phase.trans hh, w.err, w.armed, w.sleeping⟩
  | expiry es =>
    obtain h | ⟨asleep, _⟩ := waitExpires_cases (s.withEnv es)
    · rw [h]; exact ⟨hh, rfl, id, id⟩
    · exact absurd (hsl.symm.trans asleep) Bool.false_ne_true
  | silent es => exact ⟨hh, rfl, id, id⟩
  | caller es i t awake running run => exact absurd hh running
  | phaseOk es t awake running run => exact absurd hh running
  | phaseErr es e t awake running run => exact absurd hh running

/-- Settles O39: by the cases of a step, none of which is the sequencer's. -/
theorem sleepingOrHaltedNodeIsSilent : Obligations.SleepingOrHaltedNodeIsSilent := by
  unfold Obligations.SleepingOrHaltedNodeIsSilent
  intro s h
  obtain ⟨t, ht⟩ := step_silent_answers h
  have f := step_silentFrame h ht
  refine ⟨t, ht, f.wireLog, f.mem, f.request, f.csn, f.dir, f.reading, f.payload, f.rxcount, f.lastStatus, f.hostOut,
    fun inv hh => ?_⟩
  obtain ⟨disarmed, awake, recorded⟩ := inv.halted hh
  obtain ⟨hphase, herr, harmed, hsleep⟩ := step_halt hh awake ht
  exact ⟨hphase, by simpa [disarmed] using harmed, by simpa [awake] using hsleep, f.csn.trans inv.bus.1, herr, recorded⟩

end Sys2Proof.Machine
end

section
/-! PROOFS of the statements about the state of the node, fourth part: what no step undoes (`Persists`), kept by every
operation, by every phase and by every case of a step (R46, R47, R49, R51). -/

namespace Sys2Proof.Machine

/-- What no step undoes (R46, R47, R49, R51): a recorded error, an entry of a log, the initialisation of the transport; and
no step writes a parameter. -/
structure Persists (s t : State) : Prop where
  err : s.err.isSome = true → t.err.isSome = true
  wireLog : ∃ l, t.wireLog = s.wireLog ++ l
  hostOut : ∃ l, t.hostOut = s.hostOut ++ l
  par : t.par = s.par
  spiInited : s.spiInited = true → t.spiInited = true

/-- A state that differs from `s` in other fields persists. -/
theorem persists_of_eq {s t : State} (err : t.err = s.err) (wireLog : t.wireLog = s.wireLog) (hostOut : t.hostOut = s.hostOut)
    (par : t.par = s.par) (spiInited : t.spiInited = s.spiInited) : Persists s t :=
  ⟨by simp [err], ⟨[], by simp [wireLog]⟩, ⟨[], by simp [hostOut]⟩, par, by simp [spiInited]⟩

theorem Persists.refl (s : State) : Persists s s := persists_of_eq rfl rfl rfl rfl rfl

theorem Persists.trans {s t u : State} (h : Persists s t) (k : Persists t u) : Persists s u where
  err := k.err ∘ h.err
  wireLog := by
    obtain ⟨l, hl⟩ := h.wireLog
    obtain ⟨m, hm⟩ := k.wireLog
    exact ⟨l ++ m, by rw [hm, hl, List.append_assoc]⟩
  hostOut := by
    obtain ⟨l, hl⟩ := h.hostOut
    obtain ⟨m, hm⟩ := k.hostOut
    exact ⟨l ++ m, by rw [hm, hl, List.append_assoc]⟩
  par := k.par.trans h.par
  spiInited := k.spiInited ∘ h.spiInited

theorem Within.persists {s t : State} (h : Within s t) : Persists s t :=
  ⟨fun k => h.err ▸ k, h.wireLog, ⟨[], by simp [h.hostOut]⟩, h.par, fun k => h.spiInited.trans k⟩

/-- One action after another. -/
theorem ended_andThen_persists {α β : Type} {s : State} {x : OpResult α} {f : α → State → OpResult β}
    (h : x.ended (Persists s)) (hf : ∀ a t, (f a t).ended (Persists t)) : (x.andThen f).ended (Persists s) :=
  OpResult.ended_andThen _ _ _ h fun a t ht => OpResult.ended_imp (hf a t) fun _ hu => ht.trans hu

/-- An action that begins by writing the sequencer's registers. -/
theorem ended_persists_after {α : Type} {s t : State} {x : OpResult α} (hst : Persists s t) (h : x.ended (Persists t)) :
    x.ended (Persists s) :=
  OpResult.ended_imp h fun _ hu => hst.trans hu

theorem operation_persists (keep : Bool) (tx : List Byte) (s : State) : (operation keep tx s).ended (Persists s) :=
  OpResult.ended_imp (operation_within keep tx s) fun _ w => w.persists

theorem raiseError_persists {α : Type} (e : OpError) (s : State) : (raiseError e s : OpResult α).ended (Persists s) :=
  (abort_preserves _ (within_kept s) s (.refl s)).persists

theorem strobe_persists (n : StrobeName) (s : State) : (strobe n s).ended (Persists s) := by
  unfold strobe strobeFramed
  split
  · exact operation_persists _ _ s
  · trivial

theorem burstRead_persists (a n : Nat) (s : State) : (burstRead a n s).ended (Persists s) := by
  unfold burstRead
  split
  · exact operation_persists _ _ s
  · trivial

theorem burstWrite_persists (a : Nat) (vs : List Byte) (s : State) : (burstWrite a vs s).ended (Persists s) := by
  unfold burstWrite
  split
  · exact operation_persists _ _ s
  · trivial

theorem writeSingle_persists (a : Nat) (v : Byte) (s : State) : (writeSingle a v s).ended (Persists s) := by
  unfold writeSingle
  split
  · exact operation_persists _ _ s
  · trivial

theorem writeSingles_persists : ∀ ws s, (writeSingles ws s).ended (Persists s)
  | [], s => .refl s
  | _ :: ws, s => ended_andThen_persists (writeSingle_persists _ _ s) fun _ t => writeSingles_persists ws t

theorem checkStatus_persists (st : Byte) (s : State) : (checkStatus st s).ended (Persists s) := by
  unfold checkStatus
  split
  · exact raiseError_persists _ s
  · exact .refl s

theorem checked_persists {s : State} {x : OpResult Reply} (h : x.ended (Persists s)) : (checked x).ended (Persists s) :=
  ended_andThen_persists h fun _ t => ended_andThen_persists (checkStatus_persists _ t) fun _ u => .refl u

theorem spiInit_persists (s : State) : (spiInit s).ended (Persists s) := by
  unfold spiInit
  split
  · trivial
  · exact ⟨id, ⟨[], by simp⟩, ⟨[], by simp⟩, rfl, fun _ => rfl⟩

theorem loadProfile_persists (id : Int) (s : State) : (loadProfile id s).ended (Persists s) := by
  unfold loadProfile
  split
  · exact raiseError_persists _ s
  · exact ended_andThen_persists (strobe_persists _ s) fun _ t =>
      ended_andThen_persists (burstWrite_persists _ _ t) fun _ u => .refl u

theorem setTxPower_persists (level : Nat) (s : State) : (setTxPower level s).ended (Persists s) := by
  unfold setTxPower
  split
  · exact raiseError_persists _ s
  · exact ended_andThen_persists (writeSingle_persists _ _ s) fun _ t => .refl t

/-- Control transfer writes the phase alone (R42). -/
theorem goto_persists (ph : Phase) (s : State) : (goto ph s).ended (Persists s) := persists_of_eq rfl rfl rfl rfl rfl

theorem suspendCompletion_persists (next : Phase) (s : State) : Persists s (suspendCompletion next s) := by
  unfold suspendCompletion
  split
  · exact persists_of_eq rfl rfl rfl rfl rfl
  split <;> exact persists_of_eq rfl rfl rfl rfl rfl

theorem drainCount_persists (c : Byte) (s : State) : (drainCount c s).ended (Persists s) := by
  unfold drainCount
  split
  · exact raiseError_persists _ s
  split
  · exact goto_persists _ s
  refine ended_andThen_persists (checked_persists (burstRead_persists _ _ s)) fun vs t => ?_
  split
  · exact persists_of_eq rfl rfl rfl rfl rfl
  · trivial

theorem phaseDrainFifo_persists (s : State) : (phaseDrainFifo s).ended (Persists s) := by
  refine ended_andThen_persists (checked_persists (burstRead_persists _ _ s)) fun vs t => ?_
  split
  · exact ended_persists_after (t := { t with rxcount := Datum.of _ }) (persists_of_eq rfl rfl rfl rfl rfl)
      (drainCount_persists _ _)
  · trivial

/-- FORWARD only adds to the host's list (R47, R236). -/
theorem phaseForward_persists (s : State) : (phaseForward s).ended (Persists s) := by
  unfold phaseForward
  split
  · exact ⟨id, ⟨[], by simp⟩, ⟨_, rfl⟩, rfl, id⟩
  · trivial

theorem phaseSample_persists (s : State) : (phaseSample s).ended (Persists s) := by
  unfold phaseSample
  split
  · exact persists_of_eq rfl rfl rfl rfl rfl
  split <;> exact persists_of_eq rfl rfl rfl rfl rfl

theorem phaseEncode_persists (s : State) : (phaseEncode s).ended (Persists s) := by
  unfold phaseEncode
  split
  · exact persists_of_eq rfl rfl rfl rfl rfl
  · trivial

/-- A direction flag written, the detector armed and an enter strobe issued, in that order (R233, R241, R249). -/
theorem enter_persists (n : StrobeName) (d : Dir) (ph : Phase) (s : State) :
    ((checked (strobe n (armDetector { s with dir := d }))).andThen fun _ => goto ph).ended (Persists s) :=
  ended_persists_after (t := armDetector { s with dir := d }) (persists_of_eq rfl rfl rfl rfl rfl)
    (ended_andThen_persists (checked_persists (strobe_persists _ _)) fun _ => goto_persists _)

theorem phaseTransmit_persists (s : State) : (phaseTransmit s).ended (Persists s) := by
  unfold phaseTransmit
  split
  · exact ended_andThen_persists (checked_persists (burstWrite_persists _ _ s)) fun _ t => enter_persists _ _ _ t
  · trivial

theorem phaseResync_persists (s : State) : (phaseResync s).ended (Persists s) :=
  ended_andThen_persists (strobe_persists _ s) fun _ t => ended_andThen_persists (strobe_persists _ t) fun _ u =>
    ended_andThen_persists (strobe_persists _ u) fun _ => goto_persists _

/-- No phase undoes what persists, with `Ok` or with `Err`. -/
theorem runPhase_persists (s : State) : (runPhase s).ended (Persists s) := by
  cases hp : s.phase <;> simp only [runPhase, hp]
  case bootInit => exact ended_andThen_persists (spiInit_persists s) fun _ => goto_persists _
  case bootProfile => exact ended_andThen_persists (loadProfile_persists _ s) fun _ => goto_persists _
  case bootPktMode => exact ended_andThen_persists (writeSingles_persists _ s) fun _ => goto_persists _
  case bootTxPower => exact ended_andThen_persists (setTxPower_persists _ s) fun _ => goto_persists _
  case flushRx => exact ended_andThen_persists (checked_persists (strobe_persists _ s)) fun _ => goto_persists _
  case armRx => exact enter_persists _ _ _ s
  case sleepWaitRx => exact suspendCompletion_persists _ s
  case drainFifo => exact phaseDrainFifo_persists s
  case forward => exact phaseForward_persists s
  case sample => exact phaseSample_persists s
  case encode => exact phaseEncode_persists s
  case flushTx => exact ended_andThen_persists (checked_persists (strobe_persists _ s)) fun _ => goto_persists _
  case transmit => exact phaseTransmit_persists s
  case sleepWaitTx => exact suspendCompletion_persists _ s
  case resync => exact phaseResync_persists s
  case halt => exact .refl s

theorem withEnv_persists (s : State) (es : List Event) : Persists s (s.withEnv es) := persists_of_eq rfl rfl rfl rfl rfl

theorem dispatchError_persists (e : OpError) (s : State) : Persists s (dispatchError e s) :=
  ⟨fun _ => rfl, ⟨[], by simp [dispatchError]⟩, ⟨[], by simp [dispatchError]⟩, rfl, id⟩

theorem exec_persists {i : Instr} {s t : State} (h : exec i s = .next t) : Persists s t := by
  obtain ⟨u, hu, ⟨vs, rfl⟩ | ⟨e, rfl⟩⟩ := exec_cases (Persists s) (fun keep tx => operation_persists keep tx s) h
  · exact hu.trans (persists_of_eq rfl rfl rfl rfl rfl)
  · exact ⟨fun _ => rfl, hu.wireLog, hu.hostOut, hu.par, hu.spiInited⟩

theorem step_persists {s t : State} (h : step s = .next t) : Persists s t := by
  cases step_case h with
  | agent e es => exact (withEnv_persists s es).trans (agentStep_frame e _).1.persists
  | expiry es =>
    obtain k | ⟨_, k⟩ := waitExpires_cases (s.withEnv es) <;> rw [k]
    · exact withEnv_persists s es
    · exact (withEnv_persists s es).trans (dispatchError_persists _ _)
  | silent es => exact withEnv_persists s es
  | caller es i t awake running run =>
    exact (persists_of_eq rfl rfl rfl rfl rfl : Persists s { s.withEnv es with request := [] }).trans (exec_persists run)
  | phaseOk es t awake running run =>
    have hp := runPhase_persists (s.withEnv es)
    rw [run] at hp
    exact (withEnv_persists s es).trans hp
  | phaseErr es e t awake running run =>
    have hp := runPhase_persists (s.withEnv es)
    rw [run] at hp
    exact ((withEnv_persists s es).trans hp).trans (dispatchError_persists e t)

/-- Settles O38: every case of a step persists. -/
theorem errorsLogsAndParametersPersist : Obligations.ErrorsLogsAndParametersPersist := by
  unfold Obligations.ErrorsLogsAndParametersPersist
  intro s t h
  have p := step_persists h
  exact ⟨p.err, p.wireLog, p.hostOut, p.par, p.spiInited⟩

end Sys2Proof.Machine
end

section
/-! PROOFS of the statements about the state of the node, fifth part: every step keeps the invariants (R53, R36, R125, R311,
R30, R37, R44). A phase that ends with `Ok` ends with the invariants; one that ends with an error ends settled, which is what
the dispatch of the error needs (`Concludes`). -/

namespace Sys2Proof.Machine

/-- How a phase ends: with `Ok` where the invariants hold, with `Err` in a settled state. -/
abbrev Concludes {α : Type} (x : OpResult α) : Prop := x.ends State.Inv Settled

/-- The phase `ph` can begin at `t`: the sequencer is awake, `ph` is not HALT, and what `ph` needs is written (R52). -/
structure Enterable (ph : Phase) (t : State) : Prop where
  awake : t.sleeping = false
  running : ph ≠ .halt
  reading : ph = .encode → t.reading.written = true
  payload : ph.needsPayload = true → t.payload.written = true

/-- The phases but HALT at whose start no data register need be written. -/
def Phase.needsNoDatum (ph : Phase) : Bool := !decide (ph = .halt) && !decide (ph = .encode) && !ph.needsPayload

theorem enterable_of_needsNoDatum {ph : Phase} {t : State} (h : ph.needsNoDatum = true) (awake : t.sleeping = false) :
    Enterable ph t := by
  simp only [Phase.needsNoDatum, Bool.and_eq_true, Bool.not_eq_true', decide_eq_false_iff_not] at h
  obtain ⟨⟨running, notEncode⟩, noPayload⟩ := h
  exact ⟨awake, running, fun k => absurd k notEncode, fun k => by simp [noPayload] at k⟩

theorem firstPhase_needsNoDatum (r : Role) : (firstPhase r).needsNoDatum = true := by cases r <;> rfl

theorem goto_inv {ph : Phase} {t : State} (h : Settled t) (he : Enterable ph t) : ({ t with phase := ph } : State).Inv :=
  inv_at_phase t ph h he.awake he.running he.reading he.payload

theorem Within.awake {s t : State} (w : Within s t) (h : s.sleeping = false) : t.sleeping = false := by
  simpa [h] using w.sleeping

/-- A phase that has only called operations so far goes on from a settled state. -/
theorem concludes_andThen {α β : Type} {s : State} {x : OpResult α} {f : α → State → OpResult β}
    (h : x.ended (Reached s)) (hf : ∀ a t, Reached s t → Concludes (f a t)) : Concludes (x.andThen f) := by
  cases x with
  | ok a t => exact hf a t h
  | err e t => exact h.1
  | refused r => trivial
  | stuck k => trivial

/-- A phase whose last action hands control to a phase that needs no data register. -/
theorem concludes_goto {α : Type} {s : State} {x : OpResult α} {ph : Phase} (h : x.ended (Reached s))
    (awake : s.sleeping = false) (hp : ph.needsNoDatum = true) : Concludes (x.andThen fun _ => goto ph) :=
  concludes_andThen h fun _ _ r => goto_inv r.1 (enterable_of_needsNoDatum hp (r.2.awake awake))

theorem raiseError_concludes {α : Type} (e : OpError) {s : State} (h : Settled s) :
    Concludes (raiseError e s : OpResult α) := (raiseError_reached (α := α) e s h).1

/-- The operations leave the phase and its data registers as they are, so the invariants of a running node survive them. -/
theorem Reached.inv {s t : State} (h : s.Inv) (awake : s.sleeping = false) (running : s.phase ≠ .halt) (r : Reached s t) :
    t.Inv := by
  obtain ⟨settled, w⟩ := r
  have he : Enterable t.phase t := by
    rw [w.phase]
    exact ⟨w.awake awake, running, fun k => w.reading ▸ h.readingWritten k, fun k => w.payload ▸ h.payloadWritten k⟩
  exact goto_inv settled he

/-- The detector armed after the direction flag is written (R37, R249). -/
theorem settled_arm {s : State} {d : Dir} (h : Settled s) (hd : d ≠ .unwritten) :
    Settled (armDetector { s with dir := d }) :=
  ⟨⟨h.target.memory, h.target.rxDepth, h.target.txDepth, h.target.goal, h.target.dec⟩, h.csn, h.dec, h.par, fun _ => hd⟩

/-- The settled state does not speak of the sequencer's data registers and signals. -/
theorem settled_withData {s : State} {reading : Datum Reading} {payload : Datum (Byte × Byte)} {rxcount : Datum Byte}
    {hostOut : List Byte} {wakeSlot tickSlot : Bool} {waitOn : WaitOn} {draws : Nat} (h : Settled s) :
    Settled { s with reading := reading, payload := payload, rxcount := rxcount, hostOut := hostOut, wakeSlot := wakeSlot,
                     tickSlot := tickSlot, waitOn := waitOn, draws := draws } :=
  ⟨⟨h.target.memory, h.target.rxDepth, h.target.txDepth, h.target.goal, h.target.dec⟩, h.csn, h.dec, h.par, h.armed⟩

/-! ### Suspension -/

theorem Phase.needsNoDatum_of_maySleep {ph : Phase} (h : ph.maySleep = true) : ph.needsNoDatum = true := by
  cases ph
  case sleepWaitRx | sleepWaitTx | sample => rfl
  all_goals cases h

/-- The sequencer is suspended in the three waiting phases (R53 (f)), and these need no data register. -/
theorem sleepOn_inv {s : State} {w : WaitOn} (h : Settled s) (hp : s.phase.maySleep = true) : (sleepOn w s).Inv := by
  have free : Enterable s.phase { s with sleeping := false } :=
    enterable_of_needsNoDatum (Phase.needsNoDatum_of_maySleep hp) rfl
  exact
    { memory := h.target.memory
      bus := ⟨h.csn, h.dec⟩
      rxDepth := h.target.rxDepth
      txDepth := h.target.txDepth
      sleep := fun _ => hp
      halted := fun k => absurd k free.running
      goalOnlyInTransit := h.target.goal
      armedDir := h.armed
      readingWritten := free.reading
      payloadWritten := free.payload
      params := h.par }

theorem suspendCompletion_inv {s : State} {next : Phase} (h : Settled s) (awake : s.sleeping = false)
    (hp : s.phase.maySleep = true) (hn : next.needsNoDatum = true) : (suspendCompletion next s).Inv := by
  unfold suspendCompletion
  split
  · exact goto_inv (t := { s with waitOn := .none }) (settled_withData h) (enterable_of_needsNoDatum hn awake)
  split
  · exact goto_inv (t := { s with wakeSlot := false, waitOn := .none }) (settled_withData h)
      (enterable_of_needsNoDatum hn awake)
  · exact sleepOn_inv h hp

/-! ### The phases -/

theorem loadProfile_reached (id : Int) {s : State} (h : Settled s) : (loadProfile id s).ended (Reached s) := by
  unfold loadProfile
  split
  · exact raiseError_reached _ s h
  · exact ended_andThen_reached (strobe_reached _ s h) fun _ t ht =>
      ended_andThen_reached (burstWrite_reached _ _ t ht) fun _ _ hu => Reached.refl hu

theorem setTxPower_reached (level : Nat) {s : State} (h : Settled s) : (setTxPower level s).ended (Reached s) := by
  unfold setTxPower
  split
  · exact raiseError_reached _ s h
  · exact ended_andThen_reached (writeSingle_reached _ _ s h) fun _ _ ht => Reached.refl ht

theorem phaseBootInit_concludes {s : State} (h : Settled s) (awake : s.sleeping = false) : Concludes (phaseBootInit s) := by
  unfold phaseBootInit spiInit
  split
  · trivial
  · have settled : Settled { s with spiInited := true, csn := true } :=
      ⟨⟨h.target.memory, h.target.rxDepth, h.target.txDepth, h.target.goal, h.target.dec⟩, rfl, h.dec, h.par, h.armed⟩
    exact goto_inv settled (enterable_of_needsNoDatum rfl awake)

/-- A direction flag written, the detector armed and an enter strobe issued, in that order (R233, R241, R249). -/
theorem enter_concludes (n : StrobeName) {d : Dir} {ph : Phase} {s : State} (h : Settled s) (awake : s.sleeping = false)
    (hd : d ≠ .unwritten) (hp : ph.needsNoDatum = true) :
    Concludes ((checked (strobe n (armDetector { s with dir := d }))).andThen fun _ => goto ph) :=
  concludes_goto (checked_reached (strobe_reached n _ (settled_arm h hd))) awake hp

theorem drainCount_concludes (c : Byte) {s : State} (h : Settled s) (awake : s.sleeping = false) :
    Concludes (drainCount c s) := by
  unfold drainCount
  split
  · exact raiseError_concludes _ h
  split
  · exact goto_inv h (enterable_of_needsNoDatum rfl awake)
  refine concludes_andThen (checked_reached (burstRead_reached _ _ s h)) fun vs t r => ?_
  split
  · exact goto_inv (settled_withData r.1) ⟨r.2.awake awake, nofun, nofun, fun _ => rfl⟩
  · trivial

theorem phaseDrainFifo_concludes {s : State} (h : Settled s) (awake : s.sleeping = false) : Concludes (phaseDrainFifo s) := by
  refine concludes_andThen (checked_reached (burstRead_reached _ _ s h)) fun vs t r => ?_
  split
  · exact drainCount_concludes _ (settled_withData r.1) (r.2.awake awake)
  · trivial

theorem phaseForward_concludes {s : State} (h : Settled s) (awake : s.sleeping = false) : Concludes (phaseForward s) := by
  unfold phaseForward
  split
  · exact goto_inv (settled_withData h) (enterable_of_needsNoDatum rfl awake)
  · trivial

theorem phaseSample_concludes {s : State} (h : Settled s) (awake : s.sleeping = false) (hp : s.phase = .sample) :
    Concludes (phaseSample s) := by
  have maySleep : s.phase.maySleep = true := by rw [hp]; rfl
  unfold phaseSample
  split
  · exact goto_inv (settled_withData (s := s) h) ⟨awake, nofun, fun _ => rfl, nofun⟩
  split
  · exact sleepOn_inv (settled_withData h) maySleep
  · exact sleepOn_inv h maySleep

theorem phaseEncode_concludes {s : State} (h : Settled s) (awake : s.sleeping = false) : Concludes (phaseEncode s) := by
  unfold phaseEncode
  split
  · exact goto_inv (settled_withData h) ⟨awake, nofun, nofun, fun _ => rfl⟩
  · trivial

/-- FLUSH_TX hands on the payload that ENCODE has written (R240, R44). -/
theorem phaseFlushTx_concludes {s : State} (h : Settled s) (awake : s.sleeping = false) (hw : s.payload.written = true) :
    Concludes (phaseFlushTx s) :=
  concludes_andThen (checked_reached (strobe_reached .sftx s h)) fun _ _ r =>
    goto_inv r.1 ⟨r.2.awake awake, nofun, nofun, fun _ => r.2.payload ▸ hw⟩

theorem phaseTransmit_concludes {s : State} (h : Settled s) (awake : s.sleeping = false) : Concludes (phaseTransmit s) := by
  unfold phaseTransmit
  split
  · exact concludes_andThen (checked_reached (burstWrite_reached _ _ s h)) fun _ _ r =>
      enter_concludes .stx r.1 (r.2.awake awake) nofun rfl
  · trivial

theorem phaseResync_concludes {s : State} (h : Settled s) (awake : s.sleeping = false) : Concludes (phaseResync s) :=
  concludes_andThen (strobe_reached .sidle s h) fun _ _ r1 =>
    concludes_andThen (strobe_reached .sfrx _ r1.1) fun _ _ r2 =>
      concludes_goto (strobe_reached .sftx _ r2.1) (r2.2.awake (r1.2.awake awake)) (firstPhase_needsNoDatum _)

/-- The turn of an awake sequencer that has the invariants. -/
theorem runPhase_concludes {s : State} (h : s.Inv) (awake : s.sleeping = false) : Concludes (runPhase s) := by
  have settled : Settled s := h.settled
  cases hp : s.phase <;> simp only [runPhase, hp]
  case bootInit => exact phaseBootInit_concludes settled awake
  case bootProfile => exact concludes_goto (loadProfile_reached _ settled) awake rfl
  case bootPktMode => exact concludes_goto (writeSingles_reached _ s settled) awake rfl
  case bootTxPower => exact concludes_goto (setTxPower_reached _ settled) awake (firstPhase_needsNoDatum _)
  case flushRx => exact concludes_goto (checked_reached (strobe_reached _ s settled)) awake rfl
  case armRx => exact enter_concludes .srx settled awake nofun rfl
  case sleepWaitRx => exact suspendCompletion_inv settled awake (by rw [hp]; rfl) rfl
  case drainFifo => exact phaseDrainFifo_concludes settled awake
  case forward => exact phaseForward_concludes settled awake
  case sample => exact phaseSample_concludes settled awake hp
  case encode => exact phaseEncode_concludes settled awake
  case flushTx => exact phaseFlushTx_concludes settled awake (h.payloadWritten (by rw [hp]; rfl))
  case transmit => exact phaseTransmit_concludes settled awake
  case sleepWaitTx => exact suspendCompletion_inv settled awake (by rw [hp]; rfl) rfl
  case resync => exact phaseResync_concludes settled awake
  case halt => exact h

/-! ### The step -/

/-- The invariants do not speak of a caller's transaction, of the returned bytes or of the environment's choices. -/
theorem inv_withInputs {s : State} {request returned : List Byte} {env : List Event} (h : s.Inv) :
    ({ s with request := request, returned := returned, env := env } : State).Inv :=
  ⟨h.memory, h.bus, h.rxDepth, h.txDepth, h.sleep, h.halted, h.goalOnlyInTransit, h.armedDir, h.readingWritten,
    h.payloadWritten, h.params⟩

/-- An error surfaced to a caller is recorded, which no invariant forbids (R46, R311). -/
theorem surfaceToCaller_inv {s : State} {e : OpError} (h : s.Inv) : (surfaceToCaller e s).Inv where
  memory := h.memory
  bus := h.bus
  rxDepth := h.rxDepth
  txDepth := h.txDepth
  sleep := h.sleep
  halted k := ⟨(h.halted k).1, (h.halted k).2.1, rfl⟩
  goalOnlyInTransit := h.goalOnlyInTransit
  armedDir := h.armedDir
  readingWritten := h.readingWritten
  payloadWritten := h.payloadWritten
  params := h.params

/-- An instruction of a running node keeps the invariants. -/
theorem exec_inv {i : Instr} {s t : State} (h : s.Inv) (awake : s.sleeping = false) (running : s.phase ≠ .halt)
    (hx : exec i s = .next t) : t.Inv := by
  obtain ⟨u, r, ⟨vs, rfl⟩ | ⟨e, rfl⟩⟩ :=
    exec_cases (Reached s) (fun keep tx => operation_settled keep tx s h.settled) hx
  · exact inv_withInputs (Reached.inv h awake running r)
  · exact surfaceToCaller_inv (Reached.inv h awake running r)

theorem waitExpires_inv {s : State} (h : s.Inv) : (waitExpires s).Inv := by
  obtain k | ⟨_, k⟩ := waitExpires_cases s <;> rw [k]
  · exact h
  · exact dispatchError_inv _ h.settled

/-- Settles O37: each case of a step keeps the invariants. -/
theorem stepKeepsTheInvariants : Obligations.StepKeepsTheInvariants := by
  unfold Obligations.StepKeepsTheInvariants
  intro s t h hs
  cases step_case hs with
  | agent e es => exact agentStep_inv e _ (inv_withInputs h)
  | expiry es => exact waitExpires_inv (inv_withInputs h)
  | silent es => exact inv_withInputs h
  | caller es i t awake running run =>
    exact exec_inv (s := { s.withEnv es with request := [] }) (inv_withInputs (s := s) h) awake running run
  | phaseOk es t awake running run =>
    have hc := runPhase_concludes (s := s.withEnv es) (inv_withInputs h) awake
    rw [run] at hc
    exact hc
  | phaseErr es e t awake running run =>
    have hc := runPhase_concludes (s := s.withEnv es) (inv_withInputs h) awake
    rw [run] at hc
    exact dispatchError_inv e hc

end Sys2Proof.Machine
end

section
/-! PROOFS of the statements about register accesses, first part: the decoder reads well-formed instructions only (R65, R96,
R98). -/

namespace Sys2Proof.Machine

/-- A transaction with one data byte is the row its header selects (R98). -/
theorem oneData_eq_ok {f : Byte → Instr} {data : List Byte} {i : Instr} (h : oneData f data = .ok i) : ∃ v, i = f v := by
  match data, h with
  | [v], h => cases h; exact ⟨v, rfl⟩

/-- The row of a strobe has no operand that could be ill-formed. -/
theorem ofStrobe_wellFormed (n : StrobeName) (r : Bool) : WellFormed (Instr.ofStrobe n r) := by cases n <;> rfl

/-- The address classes of the headers that carry an address for R65 to check: a status read and a reserved burst write lie
in 0x30 to 0x3D, and no other header selects a status read (R96, R97). -/
structure HeaderClass (h : Byte) (kind : HeaderKind) : Prop where
  statusRead : ∀ a, kind = .statusRead a → statusAddr (headerAddr h) = true
  access : ∀ a, kind ≠ .access .sr a
  reserved : kind = .reserved → headerBurst h = true → (headerAddr h).toNat ≠ 0x2F → (headerAddr h).toNat ≠ 0x3E →
    statusAddr (headerAddr h) = true

theorem decodeHeader_class (c : StrobeCodes) (h : Byte) : HeaderClass h (decodeHeader c h) := by
  have noStatus : ∀ r b, accessKind r b ≠ .sr := by decide
  simp only [decodeHeader]
  split
  · exact ⟨nofun, fun _ e => noStatus _ _ (HeaderKind.access.inj e).1, nofun⟩
  split
  · exact ⟨nofun, nofun, fun _ _ hne _ => absurd ‹_› hne⟩
  split
  · have status : statusAddr (headerAddr h) = true := by simp [statusAddr]; omega
    refine ⟨fun _ _ => status, ?_, fun _ _ _ _ => status⟩
    split
    · split <;> exact nofun
    · split <;> exact nofun
  split
  · split
    · exact ⟨nofun, nofun, fun _ _ _ hne => absurd ‹_› hne⟩
    · exact ⟨nofun, fun _ e => noStatus _ _ (HeaderKind.access.inj e).1, nofun⟩
  · exact ⟨nofun, fun _ e => noStatus _ _ (HeaderKind.access.inj e).1, nofun⟩

/-- A reserved header's row is well-formed: the only row with an operand is the burst write at a status address (R97). -/
theorem ofReserved_wellFormed {c : StrobeCodes} {h : Byte} (hd : decodeHeader c h = .reserved) :
    WellFormed (Instr.ofReserved h) := by
  simp only [Instr.ofReserved]
  split
  · rfl
  split
  · rfl
  split
  · exact (decodeHeader_class c h).reserved hd ‹_› ‹_› ‹_›
  · rfl

/-- The decoder admits a burst only inside its region and with a data byte (R65, R91). -/
theorem decodeAccess_wellFormed {k : TxnKind} {a : Addr} {data : List Byte} {i : Instr}
    (hs : k = .sr → statusAddr a = true) (h : decodeAccess k a data = .ok i) : WellFormed i := by
  cases k with
  | ws =>
    obtain ⟨v, rfl⟩ := oneData_eq_ok h
    split
    · exact decide_eq_true ‹_›
    · split <;> rfl
  | rs =>
    obtain ⟨v, rfl⟩ := oneData_eq_ok h
    split
    · exact decide_eq_true ‹_›
    · split <;> rfl
  | sr =>
    obtain ⟨v, rfl⟩ := oneData_eq_ok h
    exact hs rfl
  | wb =>
    cases data with
    | nil => cases h
    | cons v vs =>
      simp only [decodeAccess, List.isEmpty_cons, Bool.false_eq_true, if_false] at h
      split at h
      · split at h
        · cases h; assumption
        · cases h
      · cases h; simp [WellFormed, Instr.wellFormed]
  | rb =>
    cases data with
    | nil => cases h
    | cons v vs =>
      simp only [decodeAccess, List.isEmpty_cons, Bool.false_eq_true, if_false] at h
      split at h
      · split at h
        · cases h; assumption
        · cases h
      · cases h; simp [WellFormed, Instr.wellFormed]

/-- Settles O2: each kind of header leads to a well-formed row. -/
theorem decodedInstructionsAreWellFormed : Obligations.DecodedInstructionsAreWellFormed := by
  unfold Obligations.DecodedInstructionsAreWellFormed
  intro c bytes i h
  cases bytes with
  | nil => cases h
  | cons b data =>
    simp only [decode] at h
    split at h
    · cases h; exact ofReserved_wellFormed ‹_›
    · split at h
      · cases h; exact ofStrobe_wellFormed _ _
      · cases h
    · rename_i a hd
      exact decodeAccess_wellFormed (fun _ => (decodeHeader_class c b).statusRead a hd) h
    · rename_i k a hd
      refine decodeAccess_wellFormed ?_ h
      rintro rfl
      exact absurd hd ((decodeHeader_class c b).access a)

end Sys2Proof.Machine
end

section
/-! PROOFS of the statements about register accesses, second part: what the other agents can do between two bytes, said once
(`Interleaved`), and the waits of a transaction that no timeout and no stall ends (R66, R72, R301). -/

namespace Sys2Proof.Machine

theorem calm_cons {e : Event} {es : List Event} :
    calm (e :: es) = true ↔ (e ≠ .expire ∧ e ≠ .stall) ∧ calm es = true := by simp [calm]

/-- No agent puts a byte into the transmit queue (R282 to R285). -/
theorem agentStep_txfifo_length (e : Event) (s : State) : (agentStep e s).txfifo.length ≤ s.txfifo.length := by
  have event (t : State) : (completionEvent t).txfifo = t.txfifo := (completionEvent_target t).2.2.2.1
  cases e with
  | settleOther => simp only [agentStep, settleOther]; split <;> exact Nat.le_refl _
  | settleGoal =>
    simp only [agentStep, settleGoal]
    split
    · split <;> exact Nat.le_refl _
    · exact Nat.le_refl _
  | rxDone p ok =>
    simp only [agentStep, rxDone]
    split
    · split
      · split
        · exact Nat.le_refl _
        · rw [event]
      · rw [event]
    · exact Nat.le_refl _
  | txDone =>
    simp only [agentStep, txDone]
    split
    · rw [event]; simp
    · exact Nat.le_refl _
  | txUnderflow raise =>
    simp only [agentStep, txUnderflow]
    split
    · split
      · rw [event]
      · exact Nat.le_refl _
    · exact Nat.le_refl _
  | becomeReady | tick | conversionDone | expire | stall | go => exact Nat.le_refl _

/-- `t` differs from `s` by steps of other agents and by the environment's choices left: memory, the bus and the target's
decoder are as they were, a ready target is ready, and the transmit queue has no less room. -/
structure Interleaved (s t : State) : Prop where
  within : Within s t
  mem : t.mem = s.mem
  tdec : t.tdec = s.tdec
  csn : t.csn = s.csn
  ready : s.ready = true → t.ready = true
  txfifo : t.txfifo.length ≤ s.txfifo.length

theorem Interleaved.refl (s : State) : Interleaved s s := ⟨.refl s, rfl, rfl, rfl, id, Nat.le_refl _⟩

theorem Interleaved.agentStep {s t : State} (h : Interleaved s t) (e : Event) : Interleaved s (agentStep e t) := by
  obtain ⟨w, f⟩ := agentStep_frame e t
  exact ⟨h.within.trans w, f.mem.trans h.mem, f.tdec.trans h.tdec, f.csn.trans h.csn, f.ready ∘ h.ready,
    Nat.le_trans (agentStep_txfifo_length e t) h.txfifo⟩

theorem Interleaved.withEnv {s t : State} (h : Interleaved s t) (es : List Event) : Interleaved s (t.withEnv es) :=
  ⟨(within_kept s).env es t h.within, h.mem, h.tdec, h.csn, h.ready, h.txfifo⟩

/-- A calm per-byte wait holds (R123, R301). -/
theorem byteWait_calm {es : List Event} {s : State} (hc : calm es = true) :
    ∃ t, byteWait es s = .holds t ∧ Interleaved s t ∧ calm t.env = true := by
  have holds : ∀ es s, calm es = true → ∃ t, byteWait es s = .holds t ∧ calm t.env = true := by
    intro es
    induction es with
    | nil => exact fun s _ => ⟨_, rfl, rfl⟩
    | cons e es ih =>
      intro s hc
      obtain ⟨⟨hexpire, hstall⟩, hcalm⟩ := calm_cons.mp hc
      simp only [byteWait, hexpire, hstall, false_and, if_false]
      split
      · exact ⟨_, rfl, hcalm⟩
      · exact ih _ hcalm
  obtain ⟨t, ht, hcalm⟩ := holds es s hc
  have interleaved := byteWait_preserves (Interleaved s) (fun e _ h => h.agentStep e) (fun es _ h => h.withEnv es) es s
    (.refl s)
  rw [ht] at interleaved
  exact ⟨t, ht, interleaved, hcalm⟩

theorem agentsAct_calm : ∀ (es : List Event) (s : State), calm es = true → calm (agentsAct es s).env = true := by
  intro es
  induction es with
  | nil => exact fun _ _ => rfl
  | cons e es ih =>
    intro s hc
    obtain ⟨_, hcalm⟩ := calm_cons.mp hc
    simp only [agentsAct]
    split
    · exact hcalm
    · exact ih _ hcalm

theorem agentsAct_interleaved (es : List Event) (s : State) : Interleaved s (agentsAct es s) :=
  agentsAct_preserves (Interleaved s) (fun e _ h => h.agentStep e) (fun es _ h => h.withEnv es) es s (.refl s)

/-- One byte of a calm exchange: the target receives it in a state that the other agents have made of `s` (R123, R127). -/
theorem exchangeBytes_calm (b : Byte) (bs : List Byte) {s : State} (hc : calm s.env = true) :
    ∃ t, Interleaved s t ∧ calm t.env = true ∧ ∀ v u, targetExchange b t = .ok (v, u) →
      exchangeBytes (b :: bs) s = (exchangeBytes bs (u.logWire (.byte b v))).andThen fun vs w => .ok (v :: vs) w := by
  obtain ⟨t, ht, interleaved, hcalm⟩ := byteWait_calm (s := s) hc
  exact ⟨t, interleaved, hcalm, fun v u hx => by simp only [exchangeBytes, ht, hx]⟩

/-- The target's exchange of a byte moves neither chip select nor the environment's choices (R66). -/
theorem targetExchange_bus {b v : Byte} {s t : State} (h : targetExchange b s = .ok (v, t)) :
    t.csn = s.csn ∧ t.env = s.env := by
  obtain ⟨m, rx, tx, cs, g, rd, td, sw, dr, _, rfl⟩ := targetExchange_shape h
  exact ⟨rfl, rfl⟩

/-- `t` is a state in which an operation has returned `Ok` without a timeout or a stall, its last byte exchanged in `u`: the
bus idle again, the status byte recorded, and memory and the ready line as that byte left them. -/
structure Completed (u t : State) : Prop where
  err : t.err = u.err
  busIdle : t.busIdle = true
  ready : u.ready = true → t.ready = true
  mem : t.mem = u.mem
  lastStatus : t.lastStatus.written = true
  calm : calm t.env = true

/-- A whole operation on a ready target, from what the exchange of its bytes does (R125). -/
theorem operation_calm {keep : Bool} {tx : List Byte} {s u : State} {st : Byte} {vs : List Byte} (hb : s.busReady = true)
    (htx : tx ≠ []) (hx : exchangeBytes tx (s.openBus.logWire .select) = .ok (st :: vs) u)
    (hw : Within (s.openBus.logWire .select) u) (hcsn : u.csn = false) (hc : calm u.env = true) :
    ∃ t, operation keep tx s = .ok { status := st, values := if keep then vs else [] } t ∧ Completed u t := by
  obtain ⟨inited, _, _, _⟩ := (busReady_iff s).mp hb
  have exchanged : exchange tx (s.openBus.logWire .select) = .ok (st :: vs) u := by
    simp [exchange, inited, htx, hx]
  have later := agentsAct_interleaved u.env u
  have hi : (agentsAct u.env u).spiInited = true := by rw [later.within.spiInited, hw.spiInited]; exact inited
  have deselected : deselect (agentsAct u.env u) = .ok () ((agentsAct u.env u).closeBus.logWire .deselect) := by
    simp [deselect, hi, later.csn, hcsn]
  refine ⟨{ (agentsAct u.env u).closeBus.logWire .deselect with lastStatus := Datum.of st },
    by simp only [operation, transact, select_ready hb, OpResult.andThen, exchanged, deselected], ?_⟩
  exact ⟨later.within.err, (busIdle_iff _).mpr ⟨hi, rfl, rfl⟩, later.ready, later.mem, rfl, agentsAct_calm _ _ hc⟩

end Sys2Proof.Machine
end

section
/-! PROOFS of the statements about register accesses, third part: what the target does with the bytes of an access whose data
bytes stay inside their region and find room (`Fits`), whatever the other agents do between them (R65, R79, R144 to R147). -/

namespace Sys2Proof.Machine

/-- The kinds of access whose data bytes the target stores (R145). -/
def StoresBytes (k : TxnKind) : Prop := k = .ws ∨ k = .wb

/-- The kinds of access whose data bytes come from memory or from the receive queue (R144). -/
def ReadsBytes (k : TxnKind) : Prop := k = .rs ∨ k = .rb

theorem ReadsBytes.not_stores {k : TxnKind} (h : ReadsBytes k) : ¬ StoresBytes k := by
  rcases h with rfl | rfl <;> simp [StoresBytes]

/-- The header kind that selects an access of kind `k` at `a` (R96). -/
def accessHeader : TxnKind → Nat → HeaderKind
  | .sr, a => .statusRead a
  | .rs, a => .access .rs a
  | .rb, a => .access .rb a
  | .ws, a => .access .ws a
  | .wb, a => .access .wb a

/-- An access of kind `k` may still move `n` data bytes from `a` on: at most one, or a burst inside the configuration
registers or at the FIFO address (R65); and a write to the FIFO address finds room for them all (R79). -/
structure Fits (k : TxnKind) (a n : Nat) (t : State) : Prop where
  region : n ≤ 1 ∨ (k = .rb ∨ k = .wb) ∧ (a + n ≤ 0x2F ∨ a = fifoAddr)
  room : StoresBytes k → a = fifoAddr → n ≠ 0 → t.txfifo.length + n ≤ t.par.fifoDepth

/-- The target stands inside an access of kind `k`, with `n` data bytes to come from `a` on. -/
structure Receiving (k : TxnKind) (a n : Nat) (t : State) : Prop extends Fits k a n t where
  decoder : n ≠ 0 → ∃ j, t.tdec = .data k (.at a) j

/-- No other agent takes room from an access (R282 to R285). -/
theorem Fits.interleaved {k : TxnKind} {a n : Nat} {s t : State} (h : Fits k a n s) (i : Interleaved s t) :
    Fits k a n t where
  region := h.region
  room hk ha hn := by
    rw [i.within.par]
    exact Nat.le_trans (Nat.add_le_add_right i.txfifo n) (h.room hk ha hn)

theorem Receiving.interleaved {k : TxnKind} {a n : Nat} {s t : State} (h : Receiving k a n s) (i : Interleaved s t) :
    Receiving k a n t :=
  ⟨h.toFits.interleaved i, i.tdec ▸ h.decoder⟩

theorem Receiving.logWire {k : TxnKind} {a n : Nat} {s : State} (h : Receiving k a n s) (e : WireEvent) :
    Receiving k a n (s.logWire e) :=
  ⟨⟨h.region, h.room⟩, h.decoder⟩

/-- The address of the byte after the one at `a` in a burst: the FIFO address stays where it is (R146). -/
def following (a : Nat) : Nat := if a = fifoAddr then fifoAddr else a + 1

theorem nextAddr_of_fits {k : TxnKind} {a n : Nat} {t : State} (h : Fits k a (n + 1) t) (hn : n ≠ 0) :
    nextAddr a = .at (following a) := by
  obtain ⟨_, hcfg | rfl⟩ := h.region.resolve_left (by omega)
  · have hne : a ≠ fifoAddr := by simp only [fifoAddr]; omega
    rw [nextAddr, if_pos (by omega), following, if_neg hne]
  · rfl

/-- After a data byte the decoder stands where the next one goes, if there is one (R127). -/
theorem afterData_of_fits {k : TxnKind} {a n : Nat} {t : State} (h : Fits k a (n + 1) t) (j : Nat) (hn : n ≠ 0) :
    afterData k a j = .data k (.at (following a)) (j + 1) := by
  have hk : k = .rb ∨ k = .wb := (h.region.resolve_left (by omega)).1
  rcases hk with rfl | rfl <;> simp only [afterData, nextAddr_of_fits h hn]

/-- A read byte is the stored one where there is one, and reading changes neither memory nor the transmit queue (R144). -/
theorem readByte_spec (a : Nat) (s : State) :
    (readByte a s).2.mem = s.mem ∧ (readByte a s).2.txfifo = s.txfifo ∧ (readByte a s).2.par = s.par ∧
      (readByte a s).2.ready = s.ready ∧ (a ≠ fifoAddr → ∀ x, s.mem.read a = some x → (readByte a s).1 = x) := by
  unfold readByte
  split
  · split <;> exact ⟨rfl, rfl, rfl, rfl, fun h => absurd ‹_› h⟩
  · split
    · rename_i v hv; exact ⟨rfl, rfl, rfl, rfl, fun _ x hx => Option.some.inj (hv.symm.trans hx)⟩
    · rename_i hv; exact ⟨rfl, rfl, rfl, rfl, fun _ x hx => absurd (hv.symm.trans hx) nofun⟩

theorem statusReg_spec (a : Nat) (s : State) :
    (statusReg a s).2.par = s.par ∧ (statusReg a s).2.ready = s.ready := by
  unfold statusReg
  split <;> exact ⟨rfl, rfl⟩

/-- The target answered `v` and passed from `t` to `u` by the data byte `b` of an access of kind `k` at `a`, with `n` more to
come. -/
structure TookByte (k : TxnKind) (a n : Nat) (b : Byte) (t : State) (v : Byte) (u : State) : Prop where
  receiving : Receiving k (following a) n u
  ready : u.ready = t.ready
  stored : StoresBytes k → a ≠ fifoAddr → u.mem = t.mem.write a b
  kept : ReadsBytes k → u.mem = t.mem
  read : ReadsBytes k → a ≠ fifoAddr → ∀ x, t.mem.read a = some x → v = x

/-- The next data byte fits where this one did, if a write still finds room for it. -/
theorem Receiving.next {k : TxnKind} {a n j : Nat} {t u : State} (h : Receiving k a (n + 1) t)
    (ht : u.tdec = afterData k a j) (hp : u.par = t.par)
    (hroom : StoresBytes k → a = fifoAddr → u.txfifo.length ≤ t.txfifo.length + 1) : Receiving k (following a) n u where
  region := by
    obtain _ | ⟨hburst, hcfg | rfl⟩ := h.region
    · left; omega
    · right; refine ⟨hburst, .inl ?_⟩; rw [following, if_neg (by simp only [fifoAddr]; omega)]; omega
    · exact .inr ⟨hburst, .inr rfl⟩
  room hk ha hn := by
    obtain ⟨_, hcfg | rfl⟩ := h.region.resolve_left (by omega)
    · rw [following, if_neg (by simp only [fifoAddr]; omega)] at ha
      simp only [fifoAddr] at ha; omega
    · have := h.room hk rfl (by omega)
      have := hroom hk rfl
      rw [hp]; omega
  decoder hn := ⟨j + 1, by rw [ht, afterData_of_fits h.toFits j hn]⟩

theorem exchangeData_reads {k : TxnKind} (hk : ReadsBytes k) (a j : Nat) (b : Byte) (t : State) :
    exchangeData k a j b t = .ok ((readByte a t).1, (readByte a t).2.withTdec (afterData k a j)) := by
  rcases hk with rfl | rfl <;> rfl

theorem exchangeData_writes {k : TxnKind} (hk : StoresBytes k) {a j : Nat} {b : Byte} {t u : State}
    (hw : writeByte a b t = .ok u) :
    exchangeData k a j b t = .ok (Config.drawByte u.draws, (u.bumpDraws 1).withTdec (afterData k a j)) := by
  rcases hk with rfl | rfl
  · exact exchangeData_ws hw
  · exact exchangeData_wb hw

/-- The target takes every data byte that fits (R127). -/
theorem targetExchange_receiving {k : TxnKind} {a n : Nat} {t : State} (h : Receiving k a (n + 1) t) (b : Byte) :
    ∃ v u, targetExchange b t = .ok (v, u) ∧ TookByte k a n b t v u := by
  obtain ⟨j, hj⟩ := h.decoder (by omega)
  rw [targetExchange_data hj]
  have kind : ReadsBytes k ∨ StoresBytes k ∨ k = .sr := by cases k <;> simp [ReadsBytes, StoresBytes]
  rcases kind with hk | hk | rfl
  · obtain ⟨hmem, htx, hp, hready, hread⟩ := readByte_spec a t
    refine ⟨_, _, exchangeData_reads hk a j b t, h.next rfl hp fun _ _ => ?_, hready,
      fun hw => absurd hw hk.not_stores, fun _ => hmem, fun _ => hread⟩
    simp [htx]
  · have noRead : ¬ ReadsBytes k := fun hr => hr.not_stores hk
    by_cases ha : a = fifoAddr
    · subst ha
      have hroom := h.room hk rfl (by omega)
      refine ⟨_, _, exchangeData_writes hk (writeByte_fifo (by omega)), h.next rfl rfl fun _ _ => ?_, rfl,
        fun _ hne => absurd rfl hne, fun hr => absurd hr noRead, fun hr => absurd hr noRead⟩
      simp
    · exact ⟨_, _, exchangeData_writes hk (writeByte_mem ha), h.next rfl rfl fun _ he => absurd he ha, rfl,
        fun _ _ => rfl, fun hr => absurd hr noRead, fun hr => absurd hr noRead⟩
  · obtain ⟨hp, hready⟩ := statusReg_spec a t
    have noStore : ¬ StoresBytes .sr := by simp [StoresBytes]
    have noRead : ¬ ReadsBytes .sr := by simp [ReadsBytes]
    exact ⟨_, _, exchangeData_sr a j b t, h.next (j := j) rfl hp fun hs => absurd hs noStore, hready,
      fun hs => absurd hs noStore, fun hr => absurd hr noRead, fun hr => absurd hr noRead⟩

/-- The bytes `rs` are the stored ones of the addresses from `a` on, wherever something has been stored. -/
def Returns (m : Memory) (a : Nat) (rs : List Byte) : Prop :=
  ∀ i (h : i < rs.length) x, m.read (a + i) = some x → rs[i] = x

theorem returns_nil (m : Memory) (a : Nat) : Returns m a [] := fun _ h => absurd h (Nat.not_lt_zero _)

theorem returns_cons {m : Memory} {a : Nat} {v : Byte} {rs : List Byte} (hv : ∀ x, m.read a = some x → v = x)
    (hrs : Returns m (a + 1) rs) : Returns m a (v :: rs) := by
  intro i h x hx
  cases i with
  | zero => exact hv x hx
  | succ i => exact hrs i (by simpa using h) x (by rwa [Nat.add_right_comm])

/-- Where every byte read is stored, the bytes returned are the stored ones. -/
theorem Returns.eq {m : Memory} {a : Nat} {rs vs : List Byte} (h : Returns m a rs) (hl : rs.length = vs.length)
    (hm : ∀ i (hi : i < vs.length), m.read (a + i) = some vs[i]) : rs = vs :=
  List.ext_getElem hl fun i hr hv => h i hr _ (hm i hv)

/-- The target answered `rs` and passed from `t` to `u` by the data bytes `bs` of an access of kind `k` from `a` on, other
agents acting between them. What is said of memory concerns the accesses that stay below the FIFO address. -/
structure TookBytes (k : TxnKind) (a : Nat) (bs : List Byte) (t : State) (rs : List Byte) (u : State) : Prop where
  within : Within t u
  csn : u.csn = t.csn
  ready : t.ready = true → u.ready = true
  length : rs.length = bs.length
  stored : StoresBytes k → a + bs.length ≤ fifoAddr → u.mem = t.mem.writeList a bs
  read : ReadsBytes k → a + bs.length ≤ fifoAddr → Returns t.mem a rs

/-- Any number of data bytes that fit are exchanged under any calm interleaving (R66, R123). -/
theorem exchangeBytes_receiving (k : TxnKind) : ∀ (bs : List Byte) (a : Nat) (t : State), Receiving k a bs.length t →
    calm t.env = true → ∃ rs u, exchangeBytes bs t = .ok rs u ∧ calm u.env = true ∧ TookBytes k a bs t rs u := by
  intro bs
  induction bs with
  | nil =>
    intro a t _ hc
    exact ⟨[], t, rfl, hc, .refl t, rfl, id, rfl, fun _ _ => rfl, fun _ _ => returns_nil _ _⟩
  | cons b bs ih =>
    intro a t h hc
    obtain ⟨t', acted, hc', exchange⟩ := exchangeBytes_calm b bs hc
    obtain ⟨v, u, hx, took⟩ := targetExchange_receiving (h.interleaved acted) b
    obtain ⟨hcsn, henv⟩ := targetExchange_bus hx
    obtain ⟨rs, w, hw, hcw, rest⟩ := ih _ _ (took.receiving.logWire (.byte b v)) ((congrArg calm henv).trans hc')
    refine ⟨v :: rs, w, by rw [exchange v u hx, hw]; rfl, hcw,
      ((within_kept t).byte b v t' u acted.within hx).trans rest.within,
      rest.csn.trans (hcsn.trans acted.csn), fun hr => rest.ready (took.ready.trans (acted.ready hr)),
      by simp [rest.length], fun hk hl => ?_, fun hk hl => ?_⟩
    all_goals
      rw [List.length_cons] at hl
      have ha : a ≠ fifoAddr := by omega
      have hnext : following a = a + 1 := if_neg ha
    · rw [rest.stored hk (by omega), hnext, State.logWire_mem, took.stored hk ha, acted.mem, Memory.writeList]
    · have hrest := rest.read hk (by omega)
      rw [hnext, State.logWire_mem, took.kept hk, acted.mem] at hrest
      exact returns_cons (acted.mem ▸ took.read hk ha) hrest

end Sys2Proof.Machine
end

section
/-! PROOFS of the statements about register accesses, fourth part: a whole operation under any calm interleaving, from what
its bytes are (R66, R72, R125), and that every admitted instruction completes. -/

namespace Sys2Proof.Machine

/-- The header of an access, while the decoder awaits it, opens the access for the data bytes that fit (R127). -/
theorem targetExchange_accessHeader {k : TxnKind} {a n : Nat} {h : Byte} {t : State} (ht : t.tdec = .awaitHeader)
    (hd : decodeHeader t.par.strobeCode h = accessHeader k a) (hf : Fits k a n t) :
    ∃ v u, targetExchange h t = .ok (v, u) ∧ Receiving k a n u ∧ u.ready = t.ready ∧ u.mem = t.mem := by
  refine ⟨statusByte h t, (t.bumpDraws 1).withTdec (.data k (.at a) 0), ?_, ⟨⟨hf.region, hf.room⟩, fun _ => ⟨0, rfl⟩⟩, rfl,
    rfl⟩
  cases k with
  | sr => exact targetExchange_status ht hd
  | rs | rb | ws | wb => exact targetExchange_access ht hd

/-- What an access of kind `k` with the data bytes `bs` from `a` on leads to from `s`, if it is calm: the values `rs` read,
and the state `t` after it. What is said of memory concerns the accesses that stay below the FIFO address. -/
structure Accessed (k : TxnKind) (a : Nat) (bs : List Byte) (s : State) (rs : List Byte) (t : State) : Prop where
  err : t.err = s.err
  busReady : t.busReady = true
  calm : calm t.env = true
  lastStatus : t.lastStatus.written = true
  length : rs.length = bs.length
  stored : StoresBytes k → a + bs.length ≤ fifoAddr → t.mem = s.mem.writeList a bs
  read : ReadsBytes k → a + bs.length ≤ fifoAddr → Returns s.mem a rs

/-- An access whose data bytes fit completes on a ready target under any calm interleaving (R66, R72, R125). -/
theorem operation_access_calm (keep : Bool) {k : TxnKind} {a : Nat} {h : Byte} {bs : List Byte} {s : State}
    (hb : s.busReady = true) (hc : calm s.env = true) (hd : decodeHeader s.par.strobeCode h = accessHeader k a)
    (hf : Fits k a bs.length s) :
    ∃ st rs t, operation keep (h :: bs) s = .ok { status := st, values := if keep then rs else [] } t ∧
      Accessed k a bs s rs t := by
  obtain ⟨_, _, _, hready⟩ := (busReady_iff s).mp hb
  obtain ⟨t, acted, hct, exchange⟩ := exchangeBytes_calm h bs (s := s.openBus.logWire .select) hc
  have fits : Fits k a bs.length t := Fits.interleaved (s := s.openBus.logWire .select) ⟨hf.region, hf.room⟩ acted
  obtain ⟨st, u, hx, receiving, hru, hmu⟩ := targetExchange_accessHeader (h := h) acted.tdec
    (by rw [acted.within.par]; exact hd) fits
  obtain ⟨hcsn, henv⟩ := targetExchange_bus hx
  obtain ⟨rs, w, hw, hcw, took⟩ := exchangeBytes_receiving k bs a (u.logWire (.byte h st))
    (receiving.logWire _) ((congrArg calm henv).trans hct)
  have within := ((within_kept _).byte h st t u acted.within hx).trans took.within
  have mem : (u.logWire (.byte h st)).mem = s.mem := hmu.trans acted.mem
  obtain ⟨v, hv, done⟩ := operation_calm (keep := keep) (tx := h :: bs) hb (by simp) (by rw [exchange st u hx, hw]; rfl)
    within (took.csn.trans (hcsn.trans acted.csn)) hcw
  refine ⟨st, rs, v, hv, done.err.trans within.err, ?_, done.calm, done.lastStatus, took.length, fun hk hl => ?_,
    fun hk hl => ?_⟩
  · rw [State.busReady, done.busIdle, done.ready (took.ready (hru.trans (acted.ready hready)))]; rfl
  · rw [done.mem, took.stored hk hl, mem]
  · exact mem ▸ took.read hk hl

/-- A strobe whose effect no chip state refuses: every one the bridge admits but the two enter strobes (R152, R175, R176). -/
def alwaysTaken (n : StrobeName) : Prop := ∀ s, ∃ t, applyStrobe n s = .ok t

/-- A strobe that no chip state refuses completes on a ready target under any calm interleaving (R66, R72, R125). -/
theorem operation_strobe_calm (keep : Bool) {n : StrobeName} {r : Bool} {s : State} (hp : s.par.strobeCode.wf = true)
    (hb : s.busReady = true) (hc : calm s.env = true) (hn : alwaysTaken n) :
    ∃ reply t, operation keep [strobeByte s.par.strobeCode n r] s = .ok reply t ∧ t.err = s.err ∧
      t.lastStatus.written = true ∧ calm t.env = true := by
  obtain ⟨t, acted, hct, exchange⟩ := exchangeBytes_calm (strobeByte s.par.strobeCode n r) []
    (s := s.openBus.logWire .select) hc
  obtain ⟨t', effect⟩ := hn (t.bumpDraws 1)
  have hx := targetExchange_strobe (r := r) (c := s.par.strobeCode) (by rw [acted.within.par]; rfl) hp acted.tdec effect
  obtain ⟨hcsn, henv⟩ := targetExchange_bus hx
  have within := (within_kept _).byte _ _ t _ acted.within hx
  obtain ⟨v, hv, done⟩ := operation_calm (keep := keep) (tx := [strobeByte s.par.strobeCode n r]) hb (by simp)
    (by rw [exchange _ _ hx]; rfl) within (hcsn.trans acted.csn) ((congrArg calm henv).trans hct)
  exact ⟨_, v, hv, done.err.trans within.err, done.lastStatus, done.calm⟩

/-- The bytes of an operation that completes on a ready target in every calm interleaving from `s`: an access whose data bytes
fit, or a strobe that no chip state refuses. -/
inductive Completing (s : State) : List Byte → Prop
  | access {k : TxnKind} {a : Nat} {h : Byte} {bs : List Byte}
      (selects : decodeHeader s.par.strobeCode h = accessHeader k a) (fits : Fits k a bs.length s) : Completing s (h :: bs)
  | strobe {n : StrobeName} {r : Bool} (taken : alwaysTaken n) : Completing s [strobeByte s.par.strobeCode n r]

theorem operation_completing (keep : Bool) {tx : List Byte} {s : State} (h : Completing s tx)
    (hp : s.par.strobeCode.wf = true) (hb : s.busReady = true) (hc : calm s.env = true) :
    ∃ reply t, operation keep tx s = .ok reply t ∧ t.err = s.err ∧ t.lastStatus.written = true ∧ calm t.env = true := by
  cases h with
  | access selects fits =>
    obtain ⟨st, rs, t, hop, accessed⟩ := operation_access_calm keep hb hc selects fits
    exact ⟨_, t, hop, accessed.err, accessed.lastStatus, accessed.calm⟩
  | strobe taken => exact operation_strobe_calm keep hp hb hc taken

/-- A single access below the FIFO address needs no room in the transmit queue. -/
theorem fits_single {k : TxnKind} {a : Nat} (s : State) (ha : a ≤ 0x3E) : Fits k a 1 s :=
  ⟨.inl (Nat.le_refl 1), fun _ h => by simp only [fifoAddr] at h; omega⟩

/-- Nor does a burst inside the configuration registers. -/
theorem fits_burst {k : TxnKind} {a n : Nat} (s : State) (hk : k = .rb ∨ k = .wb) (ha : a + n ≤ 0x2F) : Fits k a n s :=
  ⟨.inr ⟨hk, .inl ha⟩, fun _ h => by simp only [fifoAddr] at h; omega⟩

theorem cfgBurst_iff {a : Addr} {n : Nat} : cfgBurst a n = true ↔ 1 ≤ n ∧ a.toNat + n ≤ 0x2F := by
  simp only [cfgBurst, Bool.and_eq_true, decide_eq_true_eq]; omega

theorem completing_strobeHeader {s : State} {n : StrobeName} (r : Bool) (hn : alwaysTaken n) :
    Completing s [strobeHeader s.par.strobeCode n r] := by
  rw [← strobeByte_eq_strobeHeader]; exact .strobe hn

/-- Every admitted instruction's bytes are of a completing form, apart from the enter strobes and a single write to a full
queue (R152). -/
theorem encode_completing {i : Instr} {s : State} (ha : bridgeAdmits s i = true) (hsrx : ∀ r, i ≠ .srx r)
    (hstx : ∀ r, i ≠ .stx r) (hroom : ∀ v, i = .writeSingleFifo v → s.txfifo.length < s.par.fifoDepth) :
    Completing s (encode s.par i) := by
  cases i with
  | writeSingleCfg a v =>
    have ha : a.toNat ≤ 0x2E := of_decide_eq_true ha
    exact .access (k := .ws) (decodeHeader_cfg _ a ha false false) (fits_single s (by omega))
  | writeSinglePatable v =>
    exact .access (k := .ws) (decodeHeader_write_patable _) (fits_single s (by decide))
  | writeSingleFifo v =>
    exact .access (k := .ws) (decodeHeader_write_fifo _) ⟨.inl (Nat.le_refl 1), fun _ _ _ => hroom v rfl⟩
  | burstWriteCfg a vs =>
    obtain ⟨h1, hl⟩ := cfgBurst_iff.mp ha
    exact .access (k := .wb) (decodeHeader_cfg _ a (by omega) false true) (fits_burst s (.inr rfl) hl)
  | burstWriteFifo vs =>
    simp only [bridgeAdmits, Bool.and_eq_true, decide_eq_true_eq] at ha
    exact .access (k := .wb) (decodeHeader_burst_write_fifo _) ⟨.inr ⟨.inr rfl, .inr rfl⟩, fun _ _ _ => ha.2⟩
  | readSingleCfg a =>
    have ha : a.toNat ≤ 0x2E := of_decide_eq_true ha
    exact .access (k := .rs) (decodeHeader_cfg _ a ha true false) (fits_single s (by omega))
  | readSinglePatable =>
    exact .access (k := .rs) (decodeHeader_read_patable _) (fits_single s (by decide))
  | readSingleFifo =>
    exact .access (k := .rs) (decodeHeader_read_fifo _) ⟨.inl (Nat.le_refl 1), fun h => absurd h (by simp [StoresBytes])⟩
  | burstReadCfg a n =>
    obtain ⟨h1, hl⟩ := cfgBurst_iff.mp ha
    refine .access (k := .rb) (decodeHeader_cfg _ a (by omega) true true) ?_
    rw [List.length_replicate]
    exact fits_burst s (.inl rfl) hl
  | burstReadFifo n =>
    exact .access (k := .rb) (decodeHeader_burst_read_fifo _)
      ⟨.inr ⟨.inl rfl, .inr rfl⟩, fun h => absurd h (by simp [StoresBytes])⟩
  | statusRead a =>
    simp only [bridgeAdmits, statusAddr, Bool.and_eq_true, decide_eq_true_eq] at ha
    exact .access (k := .sr) (decodeHeader_burst_status _ a ha.1 ha.2 true) (fits_single s (by omega))
  | srx r => exact absurd rfl (hsrx r)
  | stx r => exact absurd rfl (hstx r)
  | sres r | scal r | sidle r | sfrx r | sftx r | snop r => exact completing_strobeHeader r fun _ => ⟨_, rfl⟩
  | readStatus => exact completing_strobeHeader true fun _ => ⟨_, rfl⟩
  | writeStatus => exact completing_strobeHeader false fun _ => ⟨_, rfl⟩
  | _ => cases ha

/-- Settles O31: an admitted instruction is one operation over the bytes the encoder writes, and these are of a completing
form. -/
theorem calmInstructionsComplete : Obligations.CalmInstructionsComplete := by
  unfold Obligations.CalmInstructionsComplete
  intro i s hp ha hb hc hsrx hstx hroom
  obtain ⟨keep, hexec⟩ := exec_admitted i
  obtain ⟨reply, t, hop, herr, hlast, hct⟩ := operation_completing keep (encode_completing ha hsrx hstx hroom) hp hb hc
  exact ⟨{ t with returned := reply.values }, by rw [hexec s ha, hop]; rfl, herr, hlast, hct⟩

end Sys2Proof.Machine
end

section
/-! PROOFS of the statements about register accesses, fifth part: a write followed by a read of the same registers, under any
calm interleaving (R69, R70). -/

namespace Sys2Proof.Machine

/-- An access of kind `k` below the FIFO address, whose header `h` selects it under every `STROBE_CODE` and whose `n` data bytes
fit in every state. -/
structure MemoryAccess (k : TxnKind) (h : Byte) (a n : Nat) : Prop where
  selects : ∀ c, decodeHeader c h = accessHeader k a
  fits : ∀ s, Fits k a n s
  below : a + n ≤ fifoAddr

/-- What a write stores a read of the same addresses returns (R69, R70). -/
theorem write_then_read_returns {kw kr : TxnKind} {hw hr : Byte} {a : Nat} {vs : List Byte} {s : State} (es : List Event)
    (write : MemoryAccess kw hw a vs.length) (read : MemoryAccess kr hr a vs.length) (hkw : StoresBytes kw)
    (hkr : ReadsBytes kr) (hb : s.busReady = true) (hc : calm s.env = true) (hes : calm es = true) :
    ∃ t u, finish (operation false (hw :: vs) s) = .next t ∧
      finish (operation true (hr :: List.replicate vs.length t.par.dummy) { t with env := es }) = .next u ∧
      u.returned = vs := by
  obtain ⟨st, ws, t, hop, written⟩ := operation_access_calm false hb hc (write.selects _) (write.fits s)
  have hl : (List.replicate vs.length t.par.dummy).length = vs.length := List.length_replicate
  obtain ⟨st', rs, u, hop', accessed⟩ := operation_access_calm true (s := { t with returned := [], env := es })
    written.busReady hes (read.selects _) (hl.symm ▸ read.fits _)
  have returns : Returns (s.mem.writeList a vs) a rs := by
    rw [← written.stored hkw write.below]; exact accessed.read hkr (hl.symm ▸ read.below)
  have hrs : rs = vs := returns.eq (accessed.length.trans hl) (Memory.read_writeList vs s.mem a)
  exact ⟨{ t with returned := [] }, { u with returned := rs }, by rw [hop]; rfl, by rw [hop']; rfl, hrs⟩

theorem memoryAccess_single_cfg {k : TxnKind} {h : Byte} {a : Nat} (ha : a ≤ 0x2E)
    (hd : ∀ c, decodeHeader c h = accessHeader k a) : MemoryAccess k h a 1 :=
  ⟨hd, fun s => fits_single s (by omega), by simp only [fifoAddr]; omega⟩

theorem memoryAccess_single_patable {k : TxnKind} {h : Byte} (hd : ∀ c, decodeHeader c h = accessHeader k patableAddr) :
    MemoryAccess k h patableAddr 1 :=
  ⟨hd, fun s => fits_single s (by decide), by decide⟩

theorem memoryAccess_burst {k : TxnKind} {h : Byte} {a n : Nat} (hk : k = .rb ∨ k = .wb) (hl : a + n ≤ 0x2F)
    (hd : ∀ c, decodeHeader c h = accessHeader k a) : MemoryAccess k h a n :=
  ⟨hd, fun s => fits_burst s hk hl, by simp only [fifoAddr]; omega⟩

theorem exec_writeSingleCfg {a : Addr} (h : a.toNat ≤ 0x2E) (v : Byte) (s : State) :
    exec (.writeSingleCfg a v) s = finish (operation false [header a.toNat kWriteSingle, v] s) := by
  simp [exec, execWriteSingleCfg, writeSingle, admitsSingle, isCfg, h]

theorem exec_readSingleCfg {a : Addr} (h : a.toNat ≤ 0x2E) (s : State) :
    exec (.readSingleCfg a) s = finish (operation true [header a.toNat kReadSingle, s.par.dummy] s) := by
  simp [exec, execReadSingleCfg, readSingle, admitsSingle, isCfg, h]

theorem exec_writeSinglePatable (v : Byte) (s : State) :
    exec (.writeSinglePatable v) s = finish (operation false [header patableAddr kWriteSingle, v] s) := rfl

theorem exec_readSinglePatable (s : State) :
    exec .readSinglePatable s = finish (operation true [header patableAddr kReadSingle, s.par.dummy] s) := rfl

theorem exec_burstWriteCfg {a : Addr} {vs : List Byte} (h : cfgBurst a vs.length = true) (s : State) :
    exec (.burstWriteCfg a vs) s = finish (operation false (header a.toNat kBurstWrite :: vs) s) := by
  obtain ⟨h1, hl⟩ := cfgBurst_iff.mp h
  have ha : a.toNat ≤ 0x2E := by omega
  have admitted : admitsBurstWrite s a.toNat vs.length = true := by simp [admitsBurstWrite, isCfg]; omega
  simp [exec, execBurstWriteCfg, burstWrite, admitted, isCfg, ha]

theorem exec_burstReadCfg {a : Addr} {n : Nat} (h : cfgBurst a n = true) (s : State) :
    exec (.burstReadCfg a n) s =
      finish (operation true (header a.toNat kBurstRead :: List.replicate n s.par.dummy) s) := by
  obtain ⟨h1, hl⟩ := cfgBurst_iff.mp h
  have ha : a.toNat ≤ 0x2E := by omega
  have admitted : admitsBurstRead s.par a.toNat n = true := by simp [admitsBurstRead, isCfg]; omega
  simp [exec, execBurstReadCfg, burstRead, admitted, isCfg, ha]

/-- Settles O32: both operations are one access of one data byte each, at the same address below the FIFO address. -/
theorem singleWriteThenReadReturnsTheByte : Obligations.SingleWriteThenReadReturnsTheByte := by
  unfold Obligations.SingleWriteThenReadReturnsTheByte
  intro v s es hb hc hes
  refine ⟨fun a ha => ?_, ?_⟩
  · have write : MemoryAccess .ws _ a.toNat 1 := memoryAccess_single_cfg ha fun c => decodeHeader_write_cfg c _ ha
    have read : MemoryAccess .rs _ a.toNat 1 := memoryAccess_single_cfg ha fun c => decodeHeader_read_cfg c _ ha
    obtain ⟨t, u, ht, hu, returned⟩ := write_then_read_returns (vs := [v]) es write read (.inl rfl) (.inl rfl) hb hc hes
    exact ⟨t, u, (exec_writeSingleCfg ha v s).trans ht, (exec_readSingleCfg ha _).trans hu, returned⟩
  · have write : MemoryAccess .ws _ patableAddr 1 := memoryAccess_single_patable decodeHeader_write_patable
    have read : MemoryAccess .rs _ patableAddr 1 := memoryAccess_single_patable decodeHeader_read_patable
    obtain ⟨t, u, ht, hu, returned⟩ := write_then_read_returns (vs := [v]) es write read (.inl rfl) (.inl rfl) hb hc hes
    exact ⟨t, u, (exec_writeSinglePatable v s).trans ht, (exec_readSinglePatable _).trans hu, returned⟩

/-- Settles O33: both operations are one burst each, over the same configuration registers. -/
theorem burstWriteThenReadReturnsTheData : Obligations.BurstWriteThenReadReturnsTheData := by
  unfold Obligations.BurstWriteThenReadReturnsTheData
  intro a vs s es hb hc hes hburst
  obtain ⟨h1, hl⟩ := cfgBurst_iff.mp hburst
  have ha : a.toNat ≤ 0x2E := by omega
  have write : MemoryAccess .wb _ a.toNat vs.length :=
    memoryAccess_burst (.inr rfl) hl fun c => decodeHeader_burst_write_cfg c _ ha
  have read : MemoryAccess .rb _ a.toNat vs.length :=
    memoryAccess_burst (.inl rfl) hl fun c => decodeHeader_burst_read_cfg c _ ha
  obtain ⟨t, u, ht, hu, returned⟩ := write_then_read_returns es write read (.inr rfl) (.inr rfl) hb hc hes
  exact ⟨t, u, (exec_burstWriteCfg hburst s).trans ht, (exec_burstReadCfg hburst _).trans hu, returned⟩

end Sys2Proof.Machine
end

section
/-! PROOFS of the statements about the encoding: the decoder reads what the encoder writes (R91 to R99, R106), the words of
the encoding tables, the payload (R100), and the refusal of what the encoding names no meaning for (R97, R98, R127, R181). -/

namespace Sys2Proof.Machine

/-! ### The fields of an assembled header (R90) -/

@[simp] theorem headerRead_headerOf (r b : Bool) (a : Addr) : headerRead (headerOf r b a) = r := (headerOf_fields r b a).1

@[simp] theorem headerBurst_headerOf (r b : Bool) (a : Addr) : headerBurst (headerOf r b a) = b :=
  (headerOf_fields r b a).2.1

@[simp] theorem headerAddr_headerOf (r b : Bool) (a : Addr) : headerAddr (headerOf r b a) = a :=
  (headerOf_fields r b a).2.2

/-! ### The decoder by kind of header (R96, R98) -/

theorem decode_of_access {c : StrobeCodes} {h : Byte} {k : TxnKind} {n : Nat} (hd : decodeHeader c h = .access k n)
    (data : List Byte) : decode c (h :: data) = decodeAccess k (headerAddr h) data := by
  simp only [decode, hd]

theorem decode_of_statusRead {c : StrobeCodes} {h : Byte} {n : Nat} (hd : decodeHeader c h = .statusRead n) (v : Byte) :
    decode c [h, v] = .ok (.statusRead (headerAddr h)) := by
  simp only [decode, hd, decodeAccess, oneData]

theorem decode_of_reserved {c : StrobeCodes} {h : Byte} (hd : decodeHeader c h = .reserved) (data : List Byte) :
    decode c (h :: data) = .ok (Instr.ofReserved h) := by
  simp only [decode, hd]

/-- A strobe's header is read as the strobe's row, with either value of bit 7 (R93, R94). -/
theorem decode_strobeHeader {c : StrobeCodes} (hc : c.wf = true) (n : StrobeName) (r : Bool) :
    decode c [strobeHeader c n r] = .ok (Instr.ofStrobe n r) := by
  simp [decode, ← strobeByte_eq_strobeHeader, decodeHeader_strobe hc]

/-- An access to the configuration registers, by the two free bits of its header (R92, R96). -/
theorem decode_cfg (c : StrobeCodes) {a : Addr} (ha : a.toNat ≤ 0x2E) (r b : Bool) (data : List Byte) :
    decode c (headerOf r b a :: data) = decodeAccess (accessKind r b) a data := by
  rw [decode_of_access (decodeHeader_cfg c a ha r b), headerAddr_headerOf]

/-! ### The rows of the accesses (R91, R98) -/

theorem decodeAccess_single_cfg {a : Addr} (ha : a.toNat ≤ 0x2E) (v : Byte) :
    decodeAccess .ws a [v] = .ok (.writeSingleCfg a v) ∧ decodeAccess .rs a [v] = .ok (.readSingleCfg a) := by
  simp [decodeAccess, oneData, ha]

/-- A burst that stays inside the configuration registers has a data byte and is read as the burst (R65). -/
theorem decodeAccess_burst_cfg {a : Addr} {data : List Byte} {n : Nat} (hl : data.length = n) (h : cfgBurst a n = true) :
    decodeAccess .wb a data = .ok (.burstWriteCfg a data) ∧ decodeAccess .rb a data = .ok (.burstReadCfg a n) := by
  subst hl
  obtain ⟨hpos, hend⟩ := cfgBurst_iff.mp h
  have ha : a.toNat ≤ 0x2E := by omega
  have hne : data ≠ [] := List.ne_nil_of_length_pos hpos
  simp [decodeAccess, hne, ha, h]

theorem decodeAccess_burst_fifo {data : List Byte} {n : Nat} (hl : data.length = n) (h : 1 ≤ n) :
    decodeAccess .wb 0x3F data = .ok (.burstWriteFifo data) ∧ decodeAccess .rb 0x3F data = .ok (.burstReadFifo n) := by
  subst hl
  have hne : data ≠ [] := List.ne_nil_of_length_pos h
  simp [decodeAccess, hne]

/-! ### The rows of the reserved headers (R97) -/

theorem decode_2F (c : StrobeCodes) (r b : Bool) : decode c [headerOf r b 0x2F] = .ok (.reserved2F r b) := by
  have hd : decodeHeader c (headerOf r b 0x2F) = .reserved := by simp [decodeHeader]
  rw [decode_of_reserved hd]
  simp [Instr.ofReserved]

theorem decode_burst_patable (c : StrobeCodes) (r : Bool) :
    decode c [headerOf r true 0x3E] = .ok (.reservedBurstPatable r) := by
  have hd : decodeHeader c (headerOf r true 0x3E) = .reserved := by simp [decodeHeader]
  rw [decode_of_reserved hd]
  simp [Instr.ofReserved]

theorem ofReserved_status {a : Addr} (ha : statusAddr a = true) (r b : Bool) :
    Instr.ofReserved (headerOf r b a) = if b then .reservedBurstWriteStatus a else .reservedStrobe37 r := by
  simp only [statusAddr, Bool.and_eq_true, decide_eq_true_eq] at ha
  simp only [Instr.ofReserved, headerAddr_headerOf, headerBurst_headerOf, headerRead_headerOf]
  rw [if_neg (by omega), if_neg (by omega)]

theorem decode_burst_write_status (c : StrobeCodes) {a : Addr} (ha : statusAddr a = true) :
    decode c [headerOf false true a] = .ok (.reservedBurstWriteStatus a) := by
  rw [decode_of_reserved (Laws.HeaderDecodes.status_headers c a ha false), ofReserved_status ha]
  rfl

/-- The code that `STROBE_CODE` leaves over is read as the reserved strobe (R95, R97). -/
theorem decode_unassigned (c : StrobeCodes) (r : Bool) :
    decode c [headerOf r false c.unassigned] = .ok (.reservedStrobe37 r) := by
  obtain ⟨low, high, free⟩ := unassigned_spec c
  have hd := decodeHeader_single_code c _ low high r
  rw [free] at hd
  rw [decode_of_reserved hd, ofReserved_status (by simp [statusAddr, low, high])]
  rfl

/-! ### The round trip -/

/-- Settles O1: by the rows of the table, each through the kind of its header. -/
theorem decodeReadsWhatEncodeWrites : Obligations.DecodeReadsWhatEncodeWrites := by
  unfold Obligations.DecodeReadsWhatEncodeWrites
  intro p i hc hi
  cases i with
  | writeSingleCfg a v =>
    have ha : a.toNat ≤ 0x2E := of_decide_eq_true hi
    exact (decode_cfg _ ha false false _).trans (decodeAccess_single_cfg ha v).1
  | readSingleCfg a =>
    have ha : a.toNat ≤ 0x2E := of_decide_eq_true hi
    exact (decode_cfg _ ha true false _).trans (decodeAccess_single_cfg ha p.dummy).2
  | burstWriteCfg a vs =>
    have ha : a.toNat ≤ 0x2E := by have := cfgBurst_iff.mp hi; omega
    exact (decode_cfg _ ha false true _).trans (decodeAccess_burst_cfg rfl hi).1
  | burstReadCfg a n =>
    have ha : a.toNat ≤ 0x2E := by have := cfgBurst_iff.mp hi; omega
    exact (decode_cfg _ ha true true _).trans (decodeAccess_burst_cfg List.length_replicate hi).2
  | writeSinglePatable v => exact decode_of_access (decodeHeader_write_patable _) [v]
  | readSinglePatable => exact decode_of_access (decodeHeader_read_patable _) [p.dummy]
  | writeSingleFifo v => exact decode_of_access (decodeHeader_write_fifo _) [v]
  | readSingleFifo => exact decode_of_access (decodeHeader_read_fifo _) [p.dummy]
  | burstWriteFifo vs =>
    have hpos : 1 ≤ vs.length := of_decide_eq_true hi
    exact (decode_of_access (decodeHeader_burst_write_fifo _) vs).trans (decodeAccess_burst_fifo rfl hpos).1
  | burstReadFifo n =>
    have hpos : 1 ≤ n := of_decide_eq_true hi
    exact (decode_of_access (decodeHeader_burst_read_fifo _) _).trans (decodeAccess_burst_fifo List.length_replicate hpos).2
  | statusRead a =>
    have hd := decode_of_statusRead (Laws.HeaderDecodes.status_headers p.strobeCode a hi true) p.dummy
    rwa [headerAddr_headerOf] at hd
  | sres r | scal r | srx r | stx r | sidle r | sfrx r | sftx r | snop r | sfstxon r | sxoff r | swor r | spwd r
  | sworrst r => exact decode_strobeHeader hc _ r
  | readStatus => exact decode_strobeHeader hc .snop true
  | writeStatus => exact decode_strobeHeader hc .snop false
  | reserved2F r b => exact decode_2F p.strobeCode r b
  | reservedStrobe37 r => exact decode_unassigned p.strobeCode r
  | reservedBurstWriteStatus a => exact decode_burst_write_status p.strobeCode hi
  | reservedBurstPatable r => exact decode_burst_patable p.strobeCode r

/-! ### The reserved headers (R97) -/

/-- The headers that are reserved for every choice of `STROBE_CODE` (R97): address 0x2F, a burst at PATABLE, a burst write
at a status register. -/
def reservedForEveryCode (h : Byte) : Bool :=
  headerAddr h == 0x2F || (headerBurst h && (headerAddr h == 0x3E || (statusAddr (headerAddr h) && !headerRead h)))

/-- A reserved header is one of these, or the header of a code that stands for no strobe (R96, R97). -/
theorem decodeHeader_eq_reserved_iff (c : StrobeCodes) (h : Byte) :
    decodeHeader c h = .reserved ↔ reservedForEveryCode h = true ∨
      (headerBurst h = false ∧ statusAddr (headerAddr h) = true ∧ strobeOfCode c (headerAddr h) = none) := by
  have addr_eq (k : Addr) : headerAddr h = k ↔ (headerAddr h).toNat = k.toNat := BitVec.toNat_inj.symm
  have fields : reservedForEveryCode h = true ↔ (headerAddr h).toNat = 0x2F ∨ (headerBurst h = true ∧
      ((headerAddr h).toNat = 0x3E ∨ (statusAddr (headerAddr h) = true ∧ headerRead h = false))) := by
    simp [reservedForEveryCode, addr_eq]
  have status : statusAddr (headerAddr h) = true ↔ 0x30 ≤ (headerAddr h).toNat ∧ (headerAddr h).toNat ≤ 0x3D := by
    simp [statusAddr]
  rw [fields, status]
  simp only [decodeHeader]
  split
  case isTrue cfg => simp; omega
  split
  case isTrue gap => simp [gap]
  split
  case isTrue high =>
    have low : 0x30 ≤ (headerAddr h).toNat := by omega
    have notPatable : (headerAddr h).toNat ≠ 0x3E := by omega
    cases headerBurst h
    · cases strobeOfCode c (headerAddr h) <;> simp [*]
    · cases headerRead h <;> simp [*]
  split
  case isTrue patable => cases headerBurst h <;> simp [patable]
  case isFalse notPatable => simp; omega

/-- With the default codes 0x37 alone of the strobe codes stands for no strobe (R95). -/
theorem strobeOfCode_default_eq_none_iff (a : Addr) :
    statusAddr a = true ∧ strobeOfCode Config.strobeCode a = none ↔ a = 0x37 := by
  revert a; decide

/-- The headers of R97 that are no strobe headers, written out: with 37 and B7 they are the 22 of V6. -/
def reservedHeaders : List Byte :=
  [0x2F, 0x6F, 0xAF, 0xEF, 0x70, 0x71, 0x72, 0x73, 0x74, 0x75, 0x76, 0x77, 0x78, 0x79, 0x7A, 0x7B, 0x7C, 0x7D, 0x7E, 0xFE]

theorem reservedForEveryCode_iff_mem (h : Byte) : reservedForEveryCode h = true ↔ h ∈ reservedHeaders := by
  revert h; decide

/-- Two of the 256 headers are the strobe headers of the code 0x37 (R93, R97). -/
theorem strobe_header_37_iff (h : Byte) : (headerBurst h = false ∧ headerAddr h = 0x37) ↔ h = 0x37 ∨ h = 0xB7 := by
  revert h; decide

/-! ### Words written out (R92 to R97) -/

theorem defaultCodes_wf : Config.params.strobeCode.wf = true := by decide

/-- With the default parameters the bytes of a row are read as the row. -/
theorem decode_word (i : Instr) (hi : WellFormed i) : decode Config.strobeCode (encode Config.params i) = .ok i.canon :=
  decodeReadsWhatEncodeWrites Config.params i defaultCodes_wf hi

/-- Settles O3: each word is what the encoder writes for its row, so the round trip (O1) reads it; the reserved headers are
those of every `STROBE_CODE` and the two of the code 0x37. -/
theorem writtenWordsDecode : Obligations.WrittenWordsDecode := by
  unfold Obligations.WrittenWordsDecode
  refine ⟨decode_word (.writeSingleCfg 0x06 0x02) rfl, decode_word (.writeSinglePatable 0xC0) rfl,
    decode_word (.writeSingleFifo 0x5A) rfl, decode_word (.burstWriteCfg 0x10 [0xDE, 0xAD]) rfl,
    decode_word (.burstWriteFifo [0x01, 0x55]) rfl, decode_word (.readSingleCfg 0x06) rfl,
    decode_word .readSinglePatable rfl, decode_word .readSingleFifo rfl, decode_word (.burstReadCfg 0x10 2) rfl,
    decode_word (.burstReadFifo 2) rfl, decode_word (.statusRead 0x3B) rfl, decode_word (.sres true) rfl,
    decode_word (.sfstxon true) rfl, decode_word (.sxoff true) rfl, decode_word (.scal true) rfl,
    decode_word (.srx true) rfl, decode_word (.stx true) rfl, decode_word (.sidle true) rfl,
    decode_word (.swor true) rfl, decode_word (.spwd true) rfl, decode_word (.sfrx true) rfl,
    decode_word (.sftx true) rfl, decode_word (.sworrst true) rfl, decode_word .readStatus rfl,
    decode_word .writeStatus rfl, decode_word (.sftx false) rfl, decode_word (.reservedBurstWriteStatus 0x3B) rfl, ?_⟩
  intro h
  rw [decodeHeader_eq_reserved_iff, strobeOfCode_default_eq_none_iff, reservedForEveryCode_iff_mem,
    strobe_header_37_iff]
  refine Iff.trans ?_ (List.Perm.mem_iff (l₁ := reservedHeaders ++ [0x37, 0xB7]) (by decide))
  simp

/-! ### The payload (R100) -/

theorem encodePayload_high_toNat (r : Reading) : (encodePayload r).1.toNat = r.toNat / 256 := by
  have := r.isLt
  simp only [encodePayload, BitVec.toNat_setWidth, BitVec.toNat_ushiftRight, Nat.shiftRight_eq_div_pow]
  omega

theorem encodePayload_low_toNat (r : Reading) : (encodePayload r).2.toNat = r.toNat % 256 := by
  simp only [encodePayload, BitVec.toNat_setWidth]

theorem decodePayload_toNat (h l : Byte) : (decodePayload h l).toNat = (h.toNat * 256 + l.toNat) % 1024 := by
  rw [decodePayload, BitVec.toNat_setWidth, BitVec.toNat_append, ← Nat.shiftLeft_add_eq_or_of_lt l.isLt, Nat.shiftLeft_eq]

theorem decodePayload_encodePayload (r : Reading) : decodePayload (encodePayload r).1 (encodePayload r).2 = r := by
  have := r.isLt
  apply BitVec.eq_of_toNat_eq
  rw [decodePayload_toNat, encodePayload_high_toNat, encodePayload_low_toNat]
  omega

/-- Settles O4: a sample is below 1024, and the pair holds its quotient and remainder by 256. -/
theorem payloadRoundTrip : Obligations.PayloadRoundTrip := by
  unfold Obligations.PayloadRoundTrip
  refine ⟨fun r => ?_, decodePayload_toNat, rfl⟩
  have high_le : (encodePayload r).1.toNat ≤ 3 := by
    have := r.isLt
    rw [encodePayload_high_toNat]
    omega
  exact ⟨encodePayload_high_toNat r, encodePayload_low_toNat r, high_le, decodePayload_encodePayload r⟩

/-! ### Refusals at the bridge and at the target (R97, R127, R152, R181) -/

theorem finish_strobeFramed_unnamed {n : StrobeName} (hn : admitsStrobe n = false) (r : Bool) (s : State) :
    finish (strobeFramed n r s) = .refused (.unnamedStrobe n) := by
  simp [strobeFramed, hn, finish]

/-- The target refuses every strobe outside the admission table of the bridge (R152, R181). -/
theorem applyStrobe_unnamed {n : StrobeName} (hn : admitsStrobe n = false) (s : State) :
    applyStrobe n s = .error (.unnamedStrobe n) := by
  cases n with
  | sfstxon | sxoff | swor | spwd | sworrst => rfl
  | _ => cases hn

theorem targetExchange_header {s : State} (ht : s.tdec = .awaitHeader) (h : Byte) :
    targetExchange h s = exchangeHeader h s := by
  simp only [targetExchange, ht]

theorem targetExchange_reserved {s : State} (ht : s.tdec = .awaitHeader) {h : Byte}
    (hd : decodeHeader s.par.strobeCode h = .reserved) : targetExchange h s = .error .reservedHeader := by
  simp only [targetExchange_header ht, exchangeHeader, hd]

theorem targetExchange_unnamed {s : State} (ht : s.tdec = .awaitHeader) (hc : s.par.strobeCode.wf = true) {n : StrobeName}
    (hn : admitsStrobe n = false) (r : Bool) :
    targetExchange (strobeByte s.par.strobeCode n r) s = .error (.unnamedStrobe n) := by
  simp only [targetExchange_header ht, exchangeHeader, decodeHeader_strobe hc, applyStrobe_unnamed hn]

/-- Settles O20: the bridge by the row's name, the target by the kind of the header and the place of its decoder. -/
theorem unnamedAndReservedAreRefused : Obligations.UnnamedAndReservedAreRefused := by
  unfold Obligations.UnnamedAndReservedAreRefused
  intro s r b a
  have unnamed (n : StrobeName) (hn : admitsStrobe n = false) := finish_strobeFramed_unnamed hn r s
  refine ⟨unnamed .sfstxon rfl, unnamed .sxoff rfl, unnamed .swor rfl, unnamed .spwd rfl, unnamed .sworrst rfl,
    rfl, rfl, rfl, rfl, fun ht => ⟨?_, ?_, ?_⟩, fun v => ⟨?_, ?_, ?_⟩⟩
  · intro hc n hn
    have hn : admitsStrobe n = false := by revert n; decide
    exact targetExchange_unnamed ht hc hn r
  · intro hdefault
    refine targetExchange_reserved ht ((decodeHeader_eq_reserved_iff _ _).mpr (.inr ⟨headerBurst_headerOf r false _, ?_⟩))
    rw [hdefault, headerAddr_headerOf]
    exact (strobeOfCode_default_eq_none_iff _).mpr rfl
  · intro h hmem
    have hres := (reservedForEveryCode_iff_mem h).mpr hmem
    exact targetExchange_reserved ht ((decodeHeader_eq_reserved_iff _ h).mpr (.inl hres))
  · intro ht
    simp only [targetExchange, ht]
  · intro ht
    simp only [targetExchange, ht]
  · intro k n ht
    simp only [targetExchange, ht]

end Sys2Proof.Machine
end

section
/-! PROOFS of the statements about the SPI transport, first part: the framing of every operation (R125, R308, R367), and the
ready wait of `select` (R121, R288, R301). -/

namespace Sys2Proof.Machine

/-! ### The framing of an operation (R125) -/

theorem OpResult.ended_of_ends {α : Type} {P : State → Prop} {x : OpResult α} (h : x.ends P P) : x.ended P := by
  cases x <;> exact h

/-- Settles O28: an operation on an idle bus is framed, and an instruction adds only what its caller is told. -/
theorem noOperationLeavesChipSelected : Obligations.NoOperationLeavesChipSelected := by
  unfold Obligations.NoOperationLeavesChipSelected
  intro i s t hb h
  have framed (keep : Bool) (tx : List Byte) : (operation keep tx s).ended (fun u => ∃ tx, AfterTxn s tx u) :=
    OpResult.ended_imp (OpResult.ended_of_ends (operation_afterTxn keep tx s hb)) fun _ hu => ⟨tx, hu⟩
  obtain ⟨u, ⟨tx, hcsn, hdec, hinit, l, _, hlog⟩, ⟨vs, rfl⟩ | ⟨e, rfl⟩⟩ := exec_cases _ framed h
  · exact ⟨(busIdle_iff _).mpr ⟨hinit, hcsn, hdec⟩, l, hlog⟩
  · exact ⟨(busIdle_iff _).mpr ⟨hinit, hcsn, hdec⟩, l, hlog⟩

/-! ### The ready wait (R121) -/

/-- The line is looked at first: on a ready target the wait is over, whatever the environment would still do. -/
theorem readyWait_ready (es : List Event) {s : State} (h : s.ready = true) : readyWait es s = .holds (s.withEnv es) := by
  cases es <;> simp [readyWait, readyLineLow, h]

/-- Only `become_ready` moves the ready line (R33, R288). -/
theorem agentStep_ready {e : Event} (he : e ≠ .becomeReady) (s : State) : (agentStep e s).ready = s.ready := by
  have event (t : State) : (completionEvent t).ready = t.ready := by
    obtain ⟨_, _, _, _, ready, _⟩ := completionEvent_target t
    exact ready
  cases e with
  | settleOther => simp only [agentStep, settleOther]; split <;> rfl
  | settleGoal =>
    simp only [agentStep, settleGoal]
    split
    · split <;> rfl
    · rfl
  | rxDone p ok =>
    simp only [agentStep, rxDone]
    split
    · split
      · split
        · rfl
        · rw [event]
      · rw [event]
    · rfl
  | txDone =>
    simp only [agentStep, txDone]
    split
    · rw [event]
    · rfl
  | txUnderflow raise =>
    simp only [agentStep, txUnderflow]
    split
    · split
      · rw [event]
      · rfl
    · rfl
  | becomeReady => exact absurd rfl he
  | tick | conversionDone | expire | stall | go => rfl

theorem readyWait_agent {e : Event} {es : List Event} {s : State} (hr : s.ready = false)
    (he : e = .expire → s.par.tReady = none) : readyWait (e :: es) s = readyWait es (agentStep e s) := by
  have no_expiry : ¬ (e = .expire ∧ s.par.tReady.isSome = true) := fun ⟨h, hf⟩ => by simp [he h] at hf
  simp [readyWait, readyLineLow, hr, no_expiry]

theorem readyWait_expire {es : List Event} {s : State} (hr : s.ready = false) (hf : s.par.tReady.isSome = true) :
    readyWait (.expire :: es) s = .expired (s.withEnv es) := by
  simp [readyWait, readyLineLow, hr, hf]

theorem readyWait_nil_finite {s : State} (hr : s.ready = false) (hf : s.par.tReady.isSome = true) :
    readyWait [] s = .expired (s.withEnv []) := by
  simp [readyWait, readyLineLow, hr, hf]

theorem readyWait_nil_infinite {s : State} (hr : s.ready = false) (hf : s.par.tReady = none) :
    readyWait [] s = .forever := by
  simp [readyWait, readyLineLow, hr, hf]

/-! ### Steps of other agents, one after the other -/

/-- The node after the steps `es` of other agents. -/
def afterAgents (es : List Event) (s : State) : State := es.foldl (fun u e => agentStep e u) s

theorem afterAgents_cons (e : Event) (es : List Event) (s : State) :
    afterAgents (e :: es) s = afterAgents es (agentStep e s) := rfl

theorem afterAgents_frame : ∀ (es : List Event) (s : State),
    Within s (afterAgents es s) ∧ AgentFrame s (afterAgents es s) := by
  intro es
  induction es with
  | nil => exact fun s => ⟨.refl s, rfl, rfl, rfl, rfl, rfl, rfl, rfl, id⟩
  | cons e es ih =>
    intro s
    obtain ⟨w, f⟩ := agentStep_frame e s
    obtain ⟨w', f'⟩ := ih (agentStep e s)
    exact ⟨w.trans w', f'.mem.trans f.mem, f'.tdec.trans f.tdec, f'.csn.trans f.csn, f'.lastStatus.trans f.lastStatus,
      f'.wireLog.trans f.wireLog, f'.env.trans f.env, f'.draws.trans f.draws, f'.ready ∘ f.ready⟩

theorem afterAgents_busIdle {s : State} (es : List Event) (hb : s.busIdle = true) : (afterAgents es s).busIdle = true := by
  obtain ⟨hinit, hcsn, hdec⟩ := (busIdle_iff s).mp hb
  obtain ⟨w, f⟩ := afterAgents_frame es s
  exact (busIdle_iff _).mpr ⟨w.spiInited.trans hinit, f.csn.trans hcsn, f.tdec.trans hdec⟩

theorem afterAgents_ready : ∀ (es : List Event) (s : State), (∀ e ∈ es, e ≠ .becomeReady) →
    (afterAgents es s).ready = s.ready := by
  intro es
  induction es with
  | nil => exact fun _ _ => rfl
  | cons e es ih =>
    intro s h
    obtain ⟨he, hes⟩ := List.forall_mem_cons.mp h
    rw [afterAgents_cons, ih _ hes, agentStep_ready he]

theorem afterAgents_withBus (c : Bool) (td : Tdec) (w : List WireEvent) (later : List Event) :
    ∀ (es : List Event) (s : State),
      afterAgents es (s.withBus c td w later) = (afterAgents es s).withBus c td w later := by
  intro es
  induction es with
  | nil => exact fun _ => rfl
  | cons e es ih =>
    intro s
    rw [afterAgents_cons, agentStep_withBus, ih, afterAgents_cons]

/-- A choice of the environment that does not end the ready wait with the parameters `p`: no `become_ready`, and no expiry of
a finite bound (R301). -/
def keepsWaiting (p : Params) (e : Event) : Prop := e ≠ .becomeReady ∧ (e = .expire → p.tReady = none)

/-- The wait goes on through the choices that do not end it, and takes the agents' steps among them. -/
theorem readyWait_append (rest : List Event) : ∀ (before : List Event) (s : State), s.ready = false →
    (∀ e ∈ before, keepsWaiting s.par e) → readyWait (before ++ rest) s = readyWait rest (afterAgents before s) := by
  intro before
  induction before with
  | nil => exact fun _ _ _ => rfl
  | cons e before ih =>
    intro s hr h
    obtain ⟨he, hbefore⟩ := List.forall_mem_cons.mp h
    have hp : (agentStep e s).par = s.par := (agentStep_frame e s).1.par
    rw [List.cons_append, readyWait_agent hr he.2, afterAgents_cons]
    exact ih _ ((agentStep_ready he.1 s).trans hr) (hp.symm ▸ hbefore)

/-! ### From `select` to the instruction -/

theorem operation_of_select_eq {keep : Bool} {tx : List Byte} {s t : State} (h : select s = select t) :
    operation keep tx s = operation keep tx t := by
  simp only [operation, transact, h]

theorem operation_of_select_err {keep : Bool} {tx : List Byte} {s t : State} {e : OpError} (h : select s = .err e t) :
    operation keep tx s = .err e t := by
  simp [operation, transact, h, OpResult.andThen]

theorem operation_of_select_stuck {keep : Bool} {tx : List Byte} {s : State} {f : Fault} (h : select s = .stuck f) :
    operation keep tx s = .stuck f := by
  simp [operation, transact, h, OpResult.andThen]

/-- The abort actions inside a transaction (R308). -/
theorem raiseError_selected {α : Type} (e : OpError) {s : State} (h : s.csn = false) :
    (raiseError e s : OpResult α) = .err e (s.withBus true .closed (s.wireLog ++ [.deselect]) s.env) := by
  simp only [raiseError, State.abort, h]; rfl

/-- What a caller is told of an error that ended with the bus idle (R46, R308). -/
theorem finish_err_withBus {e : OpError} {u : State} {events : List WireEvent} (hb : u.busIdle = true) :
    finish (.err e (u.withBus true .closed (u.wireLog ++ events) u.env)) = .next (u.afterErr e events) := by
  obtain ⟨_, hcsn, hdec⟩ := (busIdle_iff u).mp hb
  cases u
  cases hcsn
  cases hdec
  rfl

/-- A ready wait that expires with the node, the bus aside, in the idle state `u` ends the instruction (R121, R301, R308). -/
theorem exec_readyWait_expired {i : Instr} {s u : State} (ha : bridgeAdmits s i = true) (hb : s.busIdle = true)
    (hu : u.busIdle = true) (hlog : u.wireLog = s.wireLog)
    (hw : readyWait s.env (s.openBus.logWire .select) =
      .expired (u.withBus false .awaitHeader (s.wireLog ++ [.select]) u.env)) :
    exec i s = .next (u.afterErr (.hardwareTimeout .ready) [.select, .deselect]) := by
  obtain ⟨keep, hexec⟩ := exec_admitted i
  obtain ⟨hinit, hcsn, _⟩ := (busIdle_iff s).mp hb
  have selected : select s =
      .err (.hardwareTimeout .ready) (u.withBus true .closed (u.wireLog ++ [.select, .deselect]) u.env) := by
    simp only [select, hinit, hcsn, if_true, hw]
    rw [raiseError_selected _ rfl, hlog]
    simp [State.withBus]
  rw [hexec s ha, operation_of_select_err selected, finish_err_withBus hu]

/-- A ready wait that never ends makes the instruction stuck (R11, R121). -/
theorem exec_readyWait_forever {i : Instr} {s : State} (ha : bridgeAdmits s i = true) (hb : s.busIdle = true)
    (hw : readyWait s.env (s.openBus.logWire .select) = .forever) : exec i s = .fault .stuckReadyWait := by
  obtain ⟨keep, hexec⟩ := exec_admitted i
  obtain ⟨hinit, hcsn, _⟩ := (busIdle_iff s).mp hb
  have selected : select s = .stuck .stuckReadyWait := by simp only [select, hinit, hcsn, if_true, hw]
  rw [hexec s ha, operation_of_select_stuck selected]
  rfl

/-- The ready wait expires where the environment says so (R121, R301). -/
theorem exec_expires_before_ready {i : Instr} {s : State} {before es : List Event} (ha : bridgeAdmits s i = true)
    (hb : s.busIdle = true) (hr : s.ready = false) (hf : s.par.tReady.isSome = true)
    (henv : s.env = before ++ .expire :: es) (hbefore : ∀ e ∈ before, e ≠ .becomeReady ∧ e ≠ .expire) :
    exec i s =
      .next ((afterAgents before (s.withEnv es)).afterErr (.hardwareTimeout .ready) [.select, .deselect]) := by
  obtain ⟨w, f⟩ := afterAgents_frame before (s.withEnv es)
  have notReady := (afterAgents_ready before (s.withEnv es) fun e he => (hbefore e he).1).trans hr
  have finite : (afterAgents before (s.withEnv es)).par.tReady.isSome = true := by rw [w.par]; exact hf
  have opened : afterAgents before (s.openBus.logWire .select) =
      (afterAgents before (s.withEnv es)).withBus false .awaitHeader (s.wireLog ++ [.select]) s.env :=
    afterAgents_withBus _ _ _ _ before (s.withEnv es)
  refine exec_readyWait_expired ha hb (afterAgents_busIdle before hb) f.wireLog ?_
  calc readyWait s.env (s.openBus.logWire .select)
      = readyWait (.expire :: es) (afterAgents before (s.openBus.logWire .select)) := by
        rw [henv]
        exact readyWait_append _ before _ hr fun e he => ⟨(hbefore e he).1, fun h => absurd h (hbefore e he).2⟩
    _ = .expired ((afterAgents before (s.withEnv es)).withBus false .awaitHeader (s.wireLog ++ [.select]) es) := by
        rw [opened]; exact readyWait_expire notReady finite
    _ = _ := by rw [f.env]; rfl

/-- Settles O24: the wait goes on through every choice that does not end it, then expires, or finds no choice left. -/
theorem readyWaitExpiresOrIsStuck : Obligations.ReadyWaitExpiresOrIsStuck := by
  unfold Obligations.ReadyWaitExpiresOrIsStuck
  intro i s ha hb hr
  refine ⟨fun hfinite => ⟨fun henv => ?_, fun before es henv hbefore => ?_⟩, fun hinfinite hnever => ?_⟩
  · refine exec_readyWait_expired ha hb hb rfl ?_
    rw [henv]
    exact readyWait_nil_finite hr hfinite
  · exact exec_expires_before_ready ha hb hr hfinite henv hbefore
  · have notReady := (afterAgents_ready s.env (s.openBus.logWire .select) hnever).trans hr
    have infinite := (congrArg Params.tReady (afterAgents_frame s.env (s.openBus.logWire .select)).1.par).trans hinfinite
    have waits := readyWait_append [] s.env (s.openBus.logWire .select) hr fun e he => ⟨hnever e he, fun _ => hinfinite⟩
    rw [List.append_nil, readyWait_nil_infinite notReady infinite] at waits
    exact exec_readyWait_forever ha hb waits

/-- `become_ready` while `select` waits: `select` returns what it returns on the ready target (R121, R288). -/
theorem select_becomeReady {s : State} {es : List Event} (hb : s.busIdle = true) (hr : s.ready = false)
    (henv : s.env = .becomeReady :: es) : select s = select (becomeReady (s.withEnv es)) := by
  obtain ⟨hinit, hcsn, hdec⟩ := (busIdle_iff s).mp hb
  have line : readyWait s.env (s.openBus.logWire .select) =
      .holds ((becomeReady (s.openBus.logWire .select)).withEnv es) := by
    rw [henv, readyWait_agent (e := .becomeReady) (s := s.openBus.logWire .select) hr nofun]
    exact readyWait_ready es rfl
  rw [select_ready ((busReady_iff (becomeReady (s.withEnv es))).mpr ⟨hinit, hcsn, hdec, rfl⟩), select, if_pos hinit,
    if_pos hcsn, line]
  rfl

/-- Settles O25: an instruction looks at the ready line in `select` alone; the bridge's admission does not (R152). -/
theorem becomeReadyEndsTheWait : Obligations.BecomeReadyEndsTheWait := by
  unfold Obligations.BecomeReadyEndsTheWait
  intro i s es hb hr henv
  have admission : bridgeAdmits { s with ready := true, env := es } i = bridgeAdmits s i := by cases i <;> rfl
  cases ha : bridgeAdmits s i with
  | false =>
    obtain ⟨r, hrefused⟩ := exec_not_admitted i
    rw [hrefused s ha, hrefused _ (admission.trans ha)]
  | true =>
    obtain ⟨keep, hexec⟩ := exec_admitted i
    rw [hexec s ha, hexec _ (admission.trans ha), operation_of_select_eq (select_becomeReady hb hr henv)]
    rfl

end Sys2Proof.Machine
end

section
/-! PROOFS of the statements about the SPI transport, second part: the per-byte wait of `exchange` that does not end with its
byte (R123, R124, R301, R308). -/

namespace Sys2Proof.Machine

/-! ### A byte that is not exchanged -/

/-- The bound expires before the byte (R301). -/
theorem byteWait_expire {es : List Event} {s : State} (henv : s.env = .expire :: es) (hf : s.par.tByte.isSome = true) :
    byteWait s.env s = .expired (s.withEnv es) := by
  simp [henv, byteWait, hf]

/-- A byte that never completes is noticed where the bound is finite (R123, R301). -/
theorem byteWait_stall_finite {es : List Event} {s : State} (henv : s.env = .stall :: es)
    (hf : s.par.tByte.isSome = true) : byteWait s.env s = .expired (s.withEnv es) := by
  simp [henv, byteWait, hf]

theorem byteWait_stall_infinite {es : List Event} {s : State} (henv : s.env = .stall :: es) (hf : s.par.tByte = none) :
    byteWait s.env s = .forever := by
  simp [henv, byteWait, hf]

/-- The abort actions where the wait for a byte expires (R308). -/
theorem exchangeBytes_expired {b : Byte} {bs : List Byte} {s t : State} (hw : byteWait s.env s = .expired t)
    (hc : t.csn = false) : exchangeBytes (b :: bs) s =
      .err (.hardwareTimeout .byte) (t.withBus true .closed (t.wireLog ++ [.deselect]) t.env) := by
  rw [exchangeBytes, hw]
  exact raiseError_selected _ hc

theorem exchangeBytes_forever {b : Byte} {bs : List Byte} {s : State} (hw : byteWait s.env s = .forever) :
    exchangeBytes (b :: bs) s = .stuck .stuckByteWait := by
  rw [exchangeBytes, hw]

theorem operation_of_exchange_err {keep : Bool} {tx : List Byte} {s t : State} {e : OpError} (hb : s.busReady = true)
    (htx : tx ≠ []) (hx : exchangeBytes tx (s.openBus.logWire .select) = .err e t) : operation keep tx s = .err e t := by
  obtain ⟨hinit, _, _, _⟩ := (busReady_iff s).mp hb
  simp [operation, transact, select_ready hb, OpResult.andThen, exchange, hinit, htx, hx]

theorem operation_of_exchange_stuck {keep : Bool} {tx : List Byte} {s : State} {f : Fault} (hb : s.busReady = true)
    (htx : tx ≠ []) (hx : exchangeBytes tx (s.openBus.logWire .select) = .stuck f) : operation keep tx s = .stuck f := by
  obtain ⟨hinit, _, _, _⟩ := (busReady_iff s).mp hb
  simp [operation, transact, select_ready hb, OpResult.andThen, exchange, hinit, htx, hx]

theorem busIdle_of_busReady {s : State} (h : s.busReady = true) : s.busIdle = true := by
  obtain ⟨hinit, hcsn, hdec, _⟩ := (busReady_iff s).mp h
  exact (busIdle_iff s).mpr ⟨hinit, hcsn, hdec⟩

/-- Settles O26: the header byte's wait is forever or expires, and the target has seen no byte. -/
theorem byteStallIsStuckOrTimesOut : Obligations.ByteStallIsStuckOrTimesOut := by
  unfold Obligations.ByteStallIsStuckOrTimesOut
  intro i s es ha hb henv
  obtain ⟨keep, hexec⟩ := exec_admitted i
  have nonempty : encode s.par i ≠ [] := encode_ne_nil s.par i
  obtain ⟨b, bs, bytes⟩ := List.exists_cons_of_ne_nil nonempty
  have stalled : (s.openBus.logWire .select).env = .stall :: es := henv
  refine ⟨fun hinfinite => ?_, fun hfinite => ?_⟩
  · have stuck : exchangeBytes (encode s.par i) (s.openBus.logWire .select) = .stuck .stuckByteWait :=
      bytes ▸ exchangeBytes_forever (byteWait_stall_infinite stalled hinfinite)
    rw [hexec s ha, operation_of_exchange_stuck hb nonempty stuck]
    rfl
  · have expired : exchangeBytes (encode s.par i) (s.openBus.logWire .select) = .err (.hardwareTimeout .byte)
        ((s.withEnv es).withBus true .closed (s.wireLog ++ [.select, .deselect]) es) := by
      rw [bytes, exchangeBytes_expired (byteWait_stall_finite stalled hfinite) rfl]
      simp [State.withBus, State.withEnv, State.openBus, State.logWire]
    rw [hexec s ha, operation_of_exchange_err hb nonempty expired]
    exact finish_err_withBus (u := s.withEnv es) (busIdle_of_busReady hb)

/-! ### A burst write that is cut short -/

theorem burstWriteEvents_cons (n : Nat) (v : Byte) (vs : List Byte) :
    burstWriteEvents n (v :: vs) = .byte v (Config.drawByte n) :: burstWriteEvents (n + 1) vs := rfl

/-- A data byte of a burst write to a configuration register (R127, R145). -/
theorem targetExchange_writeCfg {a n : Nat} {s : State} (hd : s.tdec = .data .wb (.at a) n) (ha : a ≤ 0x2E) (v : Byte) :
    targetExchange v s = .ok (Config.drawByte s.draws,
      ({ s with mem := s.mem.write a v }.bumpDraws 1).withTdec (.data .wb (nextAddr a) (n + 1))) := by
  have notFifo : a ≠ fifoAddr := by simp only [fifoAddr]; omega
  rw [targetExchange_data hd, exchangeData_wb (writeByte_mem notFifo)]

/-- `s` with the bytes `vs` of a burst written from `a` on, the bus aside, and `es` left of the environment's choices (R65,
R124). -/
def State.afterWrites (s : State) (a : Nat) (vs : List Byte) (es : List Event) : State :=
  { s with mem := s.mem.writeList a vs, draws := s.draws + vs.length, env := es }

theorem afterWrites_nil (s : State) (a : Nat) (es : List Event) : s.afterWrites a [] es = s.withEnv es := rfl

/-- The data bytes before the one whose wait expires are written, and no other (R124). -/
theorem exchangeBytes_writeCfg_expires (es : List Event) : ∀ (vs : List Byte) (k a n : Nat) (s : State),
    s.csn = false → s.par.tByte.isSome = true → s.env = List.replicate k .go ++ .expire :: es → k < vs.length →
    a + vs.length ≤ 0x2F → s.tdec = .data .wb (.at a) n →
    exchangeBytes vs s = .err (.hardwareTimeout .byte) ((s.afterWrites a (vs.take k) es).withBus true .closed
      (s.wireLog ++ (burstWriteEvents s.draws (vs.take k) ++ [.deselect])) es) := by
  intro vs
  induction vs with
  | nil => exact fun k _ _ _ _ _ _ hk => absurd hk (Nat.not_lt_zero k)
  | cons v vs ih =>
    intro k a n s hcsn hf henv hk hl hd
    simp only [List.length_cons] at hk hl
    cases k with
    | zero =>
      rw [exchangeBytes_expired (byteWait_expire henv hf) hcsn, List.take_zero, afterWrites_nil]
      rfl
    | succ k =>
      have hx := targetExchange_writeCfg (s := s.withEnv (List.replicate k .go ++ .expire :: es)) hd (by omega) v
      have next : nextAddr a = .at (a + 1) := if_pos (by omega)
      rw [next] at hx
      rw [exchangeBytes_go henv hx, ih k (a + 1) (n + 1) _ (by exact hcsn) (by exact hf) rfl (by omega) (by omega) rfl]
      simp [OpResult.andThen, State.afterWrites, State.withBus, State.withEnv, State.bumpDraws, State.withTdec,
        State.logWire, Memory.writeList, burstWriteEvents_cons, Nat.add_assoc, Nat.add_comm 1]

/-- The header of the burst goes on the wire first, and uses one draw (R31, R127). -/
theorem exchangeBytes_burstWriteCfg_expires {a : Nat} {vs : List Byte} {k : Nat} {s : State} {es : List Event}
    (hf : s.par.tByte.isSome = true) (henv : s.env = List.replicate (k + 1) .go ++ .expire :: es) (hk : k < vs.length)
    (hl : a + vs.length ≤ 0x2F) :
    let h := header a kBurstWrite
    exchangeBytes (h :: vs) (s.openBus.logWire .select) = .err (.hardwareTimeout .byte)
      (((s.bumpDraws 1).afterWrites a (vs.take k) es).withBus true .closed
        (s.wireLog ++ (.select :: .byte h (statusByte h s) :: burstWriteEvents (s.draws + 1) (vs.take k) ++ [.deselect]))
        es) := by
  intro h
  have hx : targetExchange h ((s.openBus.logWire .select).withEnv (List.replicate k .go ++ .expire :: es)) =
      .ok (statusByte h s, _) :=
    targetExchange_access rfl (decodeHeader_burst_write_cfg _ a (by omega))
  rw [exchangeBytes_go (s := s.openBus.logWire .select) henv hx,
    exchangeBytes_writeCfg_expires es vs k a 0 _ rfl (by exact hf) rfl hk hl rfl]
  simp [OpResult.andThen, State.afterWrites, State.withBus, State.withEnv, State.bumpDraws, State.withTdec,
    State.logWire, State.openBus]

/-- Settles O27: the first `go` lets the header through, and the `k` after it as many data bytes. -/
theorem byteTimeoutLeavesAPrefix : Obligations.ByteTimeoutLeavesAPrefix := by
  unfold Obligations.ByteTimeoutLeavesAPrefix
  intro a vs k s es hb hburst hk hf henv h
  obtain ⟨_, hl⟩ := cfgBurst_iff.mp hburst
  have written : (vs.take k).length = k := List.length_take_of_le hk.le
  have idle : ((s.bumpDraws 1).afterWrites a.toNat (vs.take k) es).busIdle = true := busIdle_of_busReady hb
  have cut := exchangeBytes_burstWriteCfg_expires hf henv hk hl
  rw [exec_burstWriteCfg hburst, operation_of_exchange_err hb (List.cons_ne_nil _ _) cut]
  refine (finish_err_withBus idle).trans ?_
  simp only [State.afterWrites, written]
  rfl

end Sys2Proof.Machine
end

section
/-! PROOFS of the statements about register accesses, sixth part: the bridge's admission table (R152), and that nothing below
the bridge gives the bridge's own reasons for a refusal. -/

namespace Sys2Proof.Machine

/-! ### Refusals below the bridge -/

/-- A reason that the transport or the target may refuse for: not the two reasons of the admission check, `notAdmitted` and
the name of a strobe outside the table. The target refuses an unnamed strobe too (R181), but never a named one as unnamed. -/
def Refusal.belowBridge : Refusal → Bool
  | .notAdmitted => false
  | .unnamedStrobe n => !admitsStrobe n
  | _ => true

/-- If the operation is refused, then for a reason of the transport or of the target. -/
def OpResult.passesBridge {α : Type} (x : OpResult α) : Prop := ∀ r, x = .refused r → r.belowBridge = true

theorem passesBridge_ok {α : Type} (a : α) (s : State) : (OpResult.ok a s).passesBridge := nofun

theorem passesBridge_raiseError {α : Type} (e : OpError) (s : State) : (raiseError e s : OpResult α).passesBridge := nofun

theorem passesBridge_stuck {α : Type} (f : Fault) : (OpResult.stuck f : OpResult α).passesBridge := nofun

theorem passesBridge_refused {α : Type} {r : Refusal} (h : r.belowBridge = true) :
    (OpResult.refused r : OpResult α).passesBridge := by
  rintro _ ⟨⟩
  exact h

theorem passesBridge_andThen {α β : Type} {x : OpResult α} {f : α → State → OpResult β} (hx : x.passesBridge)
    (hf : ∀ a s, (f a s).passesBridge) : (x.andThen f).passesBridge := by
  cases x with
  | ok a s => exact hf a s
  | err e s => nofun
  | refused r => exact passesBridge_refused (hx r rfl)
  | stuck k => nofun

theorem applyStrobe_error {n : StrobeName} {s : State} {r : Refusal} (h : applyStrobe n s = .error r) :
    r.belowBridge = true := by
  cases n with
  | srx | stx =>
    simp only [applyStrobe, strobeSrx, strobeStx] at h
    split at h
    -- in a transitional state, by the goal
    case h_2 | h_3 =>
      split at h
      · cases h; rfl
      · cases h
    -- while the other operation or FSTXON is in progress
    case h_7 | h_8 => cases h; rfl
    all_goals cases h
  | sfstxon | sxoff | swor | spwd | sworrst => cases h; rfl
  | sres | scal | sidle | sfrx | sftx | snop => cases h

theorem writeByte_error {a : Nat} {b : Byte} {s : State} {r : Refusal} (h : writeByte a b s = .error r) :
    r = .txFifoFull := by
  unfold writeByte at h
  split at h
  · split at h
    · cases h
    · cases h; rfl
  · cases h

theorem exchangeHeader_error {b : Byte} {s : State} {r : Refusal} (h : exchangeHeader b s = .error r) :
    r.belowBridge = true := by
  simp only [exchangeHeader] at h
  split at h
  · cases h; rfl
  · split at h
    · cases h
    · rename_i hs; cases h; exact applyStrobe_error hs
  · cases h
  · cases h

theorem exchangeData_error {k : TxnKind} {a n : Nat} {b : Byte} {s : State} {r : Refusal}
    (h : exchangeData k a n b s = .error r) : r = .txFifoFull := by
  cases k with
  | rs | rb | sr => cases h
  | ws | wb =>
    simp only [exchangeData] at h
    split at h
    · cases h
    · rename_i hw; cases h; exact writeByte_error hw

theorem targetExchange_error {b : Byte} {s : State} {r : Refusal} (h : targetExchange b s = .error r) :
    r.belowBridge = true := by
  unfold targetExchange at h
  split at h
  · cases h; rfl
  · exact exchangeHeader_error h
  · rw [exchangeData_error h]; rfl
  · cases h; rfl
  · cases h; rfl

theorem exchangeBytes_passesBridge : ∀ (bs : List Byte) (s : State), (exchangeBytes bs s).passesBridge := by
  intro bs
  induction bs with
  | nil => exact fun s => passesBridge_ok [] s
  | cons b bs ih =>
    intro s
    rw [exchangeBytes]
    split
    · exact passesBridge_stuck _
    · exact passesBridge_raiseError _ _
    · split
      · rename_i hx; exact passesBridge_refused (targetExchange_error hx)
      · exact passesBridge_andThen (ih _) fun _ _ => passesBridge_ok _ _

theorem select_passesBridge (s : State) : (select s).passesBridge := by
  unfold select
  split
  · split
    · split
      · exact passesBridge_ok _ _
      · exact passesBridge_raiseError _ _
      · exact passesBridge_stuck _
    · exact passesBridge_refused rfl
  · exact passesBridge_refused rfl

theorem exchange_passesBridge (tx : List Byte) (s : State) : (exchange tx s).passesBridge := by
  unfold exchange
  split
  · split
    · exact passesBridge_refused rfl
    · split
      · exact passesBridge_refused rfl
      · exact exchangeBytes_passesBridge tx s
  · exact passesBridge_refused rfl

theorem deselect_passesBridge (s : State) : (deselect s).passesBridge := by
  unfold deselect
  split
  · split
    · exact passesBridge_refused rfl
    · exact passesBridge_ok _ _
  · exact passesBridge_refused rfl

/-- Once the bridge has admitted it, no operation is refused for the bridge's reasons. -/
theorem operation_passesBridge (keep : Bool) (tx : List Byte) (s : State) : (operation keep tx s).passesBridge := by
  refine passesBridge_andThen ?_ fun rx t => ?_
  · refine passesBridge_andThen (select_passesBridge s) fun _ s1 => ?_
    refine passesBridge_andThen (exchange_passesBridge tx s1) fun rx s2 => ?_
    exact passesBridge_andThen (deselect_passesBridge _) fun _ s3 => passesBridge_ok rx s3
  · cases rx with
    | nil => exact passesBridge_refused rfl
    | cons st vs => exact passesBridge_ok _ _

/-! ### The admission table (R152) -/

/-- An operation behind an admission check is refused with the check's reason exactly where the check fails. -/
theorem admission_refused_iff {keep admits : Bool} {tx : List Byte} {s : State} {r : Refusal}
    (hr : admits = true → r.belowBridge = false) :
    (if admits then operation keep tx s else .refused r) = .refused r ↔ admits = false := by
  cases admits with
  | false => simp
  | true =>
    have notRefused : operation keep tx s ≠ .refused r := fun h => by
      have := operation_passesBridge keep tx s r h
      rw [hr rfl] at this
      cases this
    simpa using notRefused

theorem admitsSingle_iff (addr : Nat) : admitsSingle addr = true ↔ addr ≤ 0x2E ∨ addr = 0x3E ∨ addr = 0x3F := by
  simp [admitsSingle, isCfg, patableAddr, fifoAddr, or_assoc]

theorem admitsBurstRead_iff (p : Params) (addr n : Nat) : admitsBurstRead p addr n = true ↔
    1 ≤ n ∧ ((addr ≤ 0x2E ∧ addr + n - 1 ≤ 0x2E) ∨ (addr = 0x3F ∧ n ≤ p.fifoDepth) ∨
      (0x30 ≤ addr ∧ addr ≤ 0x3D ∧ n = 1)) := by
  simp [admitsBurstRead, isCfg, isStatus, fifoAddr, or_assoc, and_assoc]

theorem admitsBurstWrite_iff (s : State) (addr n : Nat) : admitsBurstWrite s addr n = true ↔
    1 ≤ n ∧ ((addr ≤ 0x2E ∧ addr + n - 1 ≤ 0x2E) ∨ (addr = 0x3F ∧ s.txfifo.length + n ≤ s.par.fifoDepth)) := by
  simp [admitsBurstWrite, isCfg, fifoAddr]

theorem admitsStrobe_iff (c : StrobeName) :
    admitsStrobe c = true ↔ c ∈ ([.sres, .scal, .srx, .stx, .sidle, .sfrx, .sftx, .snop] : List StrobeName) := by
  cases c <;> decide

theorem readSingle_refused_iff (addr : Nat) (s : State) :
    readSingle addr s = .refused .notAdmitted ↔ ¬ (addr ≤ 0x2E ∨ addr = 0x3E ∨ addr = 0x3F) := by
  rw [← admitsSingle_iff, Bool.not_eq_true]
  exact admission_refused_iff fun _ => rfl

theorem writeSingle_refused_iff (addr : Nat) (v : Byte) (s : State) :
    writeSingle addr v s = .refused .notAdmitted ↔ ¬ (addr ≤ 0x2E ∨ addr = 0x3E ∨ addr = 0x3F) := by
  rw [← admitsSingle_iff, Bool.not_eq_true]
  exact admission_refused_iff fun _ => rfl

theorem burstRead_refused_iff (addr n : Nat) (s : State) : burstRead addr n s = .refused .notAdmitted ↔
    ¬ (1 ≤ n ∧ ((addr ≤ 0x2E ∧ addr + n - 1 ≤ 0x2E) ∨ (addr = 0x3F ∧ n ≤ s.par.fifoDepth) ∨
      (0x30 ≤ addr ∧ addr ≤ 0x3D ∧ n = 1))) := by
  rw [← admitsBurstRead_iff, Bool.not_eq_true]
  exact admission_refused_iff fun _ => rfl

theorem burstWrite_refused_iff (addr : Nat) (vs : List Byte) (s : State) :
    burstWrite addr vs s = .refused .notAdmitted ↔ ¬ (1 ≤ vs.length ∧
      ((addr ≤ 0x2E ∧ addr + vs.length - 1 ≤ 0x2E) ∨ (addr = 0x3F ∧ s.txfifo.length + vs.length ≤ s.par.fifoDepth))) := by
  rw [← admitsBurstWrite_iff, Bool.not_eq_true]
  exact admission_refused_iff fun _ => rfl

theorem strobe_refused_iff (c : StrobeName) (s : State) : strobe c s = .refused (.unnamedStrobe c) ↔
    c ∉ ([.sres, .scal, .srx, .stx, .sidle, .sfrx, .sftx, .snop] : List StrobeName) := by
  rw [← admitsStrobe_iff, Bool.not_eq_true]
  exact admission_refused_iff fun h => by rw [Refusal.belowBridge, h]; rfl

/-- Settles O21: each operation is its admission check before a transaction, and no transaction is refused for the reasons of
the check. -/
theorem admissionFollowsTheTable : Obligations.AdmissionFollowsTheTable := by
  unfold Obligations.AdmissionFollowsTheTable
  exact fun s addr n v vs c => ⟨readSingle_refused_iff addr s, writeSingle_refused_iff addr v s,
    burstRead_refused_iff addr n s, burstWrite_refused_iff addr vs s, strobe_refused_iff c s⟩

/-! ### Ill-formed instructions -/

theorem finish_of_refused {x : OpResult Reply} {r : Refusal} (h : x = .refused r) : finish x = .refused r := by
  rw [h]; rfl

/-- The rows for configuration registers test the base address first, and then run their operation (R61, R152). -/
theorem cfgRow_refused {a : Addr} {x : OpResult Reply} (h : a.toNat ≤ 0x2E → x = .refused .notAdmitted) :
    (if isCfg a.toNat then finish x else .refused .notAdmitted) = .refused .notAdmitted := by
  split
  · rename_i hc
    exact finish_of_refused (h (by simpa [isCfg] using hc))
  · rfl

theorem not_cfgBurst_iff {a : Addr} {n : Nat} : cfgBurst a n = false ↔ ¬ (1 ≤ n ∧ a.toNat + n - 1 ≤ 0x2E) := by
  simp [cfgBurst]

/-- Settles O22: the operands that make a row ill-formed lie outside the row of the admission table (R152). -/
theorem illFormedInstructionsAreRefused : Obligations.IllFormedInstructionsAreRefused := by
  unfold Obligations.IllFormedInstructionsAreRefused
  intro i s
  refine ⟨fun hi hreserved => ?_, fun n hn => ?_⟩
  · cases i with
    | writeSingleCfg a v =>
      exact cfgRow_refused fun ha => absurd ha (of_decide_eq_false hi)
    | readSingleCfg a =>
      exact cfgRow_refused fun ha => absurd ha (of_decide_eq_false hi)
    | burstWriteCfg a vs =>
      have hburst := not_cfgBurst_iff.mp hi
      exact cfgRow_refused fun ha => (burstWrite_refused_iff _ _ _).mpr (by omega)
    | burstReadCfg a n =>
      have hburst := not_cfgBurst_iff.mp hi
      exact cfgRow_refused fun ha => (burstRead_refused_iff _ _ _).mpr (by omega)
    | burstWriteFifo vs =>
      have hempty : ¬ 1 ≤ vs.length := of_decide_eq_false hi
      exact finish_of_refused ((burstWrite_refused_iff _ _ _).mpr fun h => hempty h.1)
    | burstReadFifo n =>
      have hempty : ¬ 1 ≤ n := of_decide_eq_false hi
      exact finish_of_refused ((burstRead_refused_iff _ _ _).mpr fun h => hempty h.1)
    | statusRead a => exact finish_of_refused (if_neg (Bool.eq_false_iff.mp hi))
    | reservedBurstWriteStatus a => exact absurd rfl (hreserved a)
    | _ => cases hi
  · exact finish_of_refused ((burstRead_refused_iff _ _ _).mpr (by simp only [fifoAddr]; omega))

end Sys2Proof.Machine
end

section
/-! PROOFS of the statements about register accesses, seventh part: what no byte of a register access changes (R149). -/

namespace Sys2Proof.Machine

/-- What R149 says that a register access leaves: the chip's own state, the direction flag, the detector and the phase. -/
structure SameChip (s t : State) : Prop where
  chipState : t.chipState = s.chipState
  goal : t.goal = s.goal
  ready : t.ready = s.ready
  dir : t.dir = s.dir
  armed : t.armed = s.armed
  wakeSlot : t.wakeSlot = s.wakeSlot
  phase : t.phase = s.phase

theorem SameChip.refl (s : State) : SameChip s s := ⟨rfl, rfl, rfl, rfl, rfl, rfl, rfl⟩

theorem SameChip.withTdec {s t : State} (h : SameChip s t) (d : Tdec) : SameChip s (t.withTdec d) := { h with }

theorem SameChip.bumpDraws {s t : State} (h : SameChip s t) (n : Nat) : SameChip s (t.bumpDraws n) := { h with }

theorem readByte_sameChip (a : Nat) (s : State) : SameChip s (readByte a s).2 := by
  unfold readByte
  split
  · split
    · exact (SameChip.refl s).bumpDraws 1
    · exact { SameChip.refl s with }
  · split
    · exact .refl s
    · exact (SameChip.refl s).bumpDraws 1

theorem statusReg_sameChip (a : Nat) (s : State) : SameChip s (statusReg a s).2 := by
  unfold statusReg
  split
  · exact .refl s
  · exact (SameChip.refl s).bumpDraws 1

theorem writeByte_sameChip {a : Nat} {b : Byte} {s t : State} (h : writeByte a b s = .ok t) : SameChip s t := by
  obtain ⟨_, _, rfl⟩ | ⟨_, rfl⟩ := writeByte_cases h
  · exact { SameChip.refl s with }
  · exact { SameChip.refl s with }

/-- A data byte of an access (R127, R144, R145, R147). -/
theorem exchangeData_sameChip {k : TxnKind} {a n : Nat} {b v : Byte} {s t : State}
    (h : exchangeData k a n b s = .ok (v, t)) : SameChip s t := by
  cases k with
  | rs | rb => cases h; exact (readByte_sameChip a s).withTdec _
  | sr => cases h; exact (statusReg_sameChip a s).withTdec _
  | ws | wb =>
    simp only [exchangeData] at h
    split at h
    · rename_i hw
      cases h
      exact ((writeByte_sameChip hw).bumpDraws 1).withTdec _
    · cases h

/-- A header that is no strobe's uses a draw and moves the decoder (R31, R127). -/
theorem exchangeHeader_sameChip {b v : Byte} {s t : State} (hn : ∀ n r, decodeHeader s.par.strobeCode b ≠ .strobe n r)
    (h : exchangeHeader b s = .ok (v, t)) : SameChip s t := by
  unfold exchangeHeader at h
  split at h
  · cases h
  · rename_i n r hd; exact absurd hd (hn n r)
  · cases h; exact ((SameChip.refl s).bumpDraws 1).withTdec _
  · cases h; exact ((SameChip.refl s).bumpDraws 1).withTdec _

/-- Settles O29: by the place of the target's decoder, the byte is the header or a data byte. -/
theorem registerAccessChangesNoChipState : Obligations.RegisterAccessChangesNoChipState := by
  unfold Obligations.RegisterAccessChangesNoChipState
  intro b v s t h hn
  have same : SameChip s t := by
    unfold targetExchange at h
    split at h
    · cases h
    · rename_i ht; exact exchangeHeader_sameChip (hn ht) h
    · exact exchangeData_sameChip h
    · cases h
    · cases h
  exact ⟨same.chipState, same.goal, same.ready, same.dir, same.armed, same.wakeSlot, same.phase⟩

end Sys2Proof.Machine
end

section
/-! PROOFS of the statements about register accesses, eighth part: the whole next state of each register access on a ready
target while no other agent acts (R140 to R145, R147). -/

namespace Sys2Proof.Machine

/-! ### The address classes of a single access -/

theorem ne_fifoAddr_of_cfg {a : Nat} (h : a ≤ 0x2E) : a ≠ fifoAddr := by simp only [fifoAddr]; omega

theorem admitsSingle_of_cfg {a : Nat} (h : a ≤ 0x2E) : admitsSingle a = true := (admitsSingle_iff a).mpr (.inl h)

/-- A row for configuration registers is its operation where the base address is one (R61). -/
theorem cfgRow_admitted {a : Addr} (h : a.toNat ≤ 0x2E) (x : OpResult Reply) :
    (if isCfg a.toNat then finish x else .refused .notAdmitted) = finish x :=
  if_pos (decide_eq_true h)

/-! ### Writes -/

/-- `write_single` by an instruction, from the target's write of the byte (R142, R145). -/
theorem finish_writeSingle_quiet {a : Nat} {v : Byte} {s t : State} (hb : s.busReady = true) (he : s.env = [])
    (ha : admitsSingle a = true) (hd : decodeHeader s.par.strobeCode (header a kWriteSingle) = .access .ws a)
    (hw : writeByte a v s = .ok t) :
    let h := header a kWriteSingle
    finish (writeSingle a v s) = .next
      { t with
        wireLog := s.wireLog ++ [.select, .byte h (statusByte h s), .byte v (Config.drawByte (s.draws + 1)), .deselect],
        lastStatus := Datum.of (statusByte h s), draws := s.draws + 2, returned := [] } := by
  rw [writeSingle_quiet hb he ha hd hw]
  rfl

/-- Settles O5: the target's write of a byte below the FIFO address is a write of memory. -/
theorem writeSingleStoresTheByte : Obligations.WriteSingleStoresTheByte := by
  unfold Obligations.WriteSingleStoresTheByte
  intro v s hb he hp
  refine ⟨fun a ha => ⟨?_, Memory.read_write_same _ _ _, fun b => Memory.read_write_other _ _ _ _⟩,
    ?_, Memory.read_write_same _ _ _, fun b => Memory.read_write_other _ _ _ _⟩
  · exact (cfgRow_admitted ha _).trans (finish_writeSingle_quiet hb he (admitsSingle_of_cfg ha)
      (decodeHeader_write_cfg _ _ ha) (writeByte_mem (ne_fifoAddr_of_cfg ha)))
  · exact finish_writeSingle_quiet hb he rfl (decodeHeader_write_patable _) (writeByte_mem (by decide))

/-- The data byte of a single write to a full TX FIFO is refused at the target (R79, R145). -/
theorem targetExchange_writeFifo_full {v : Byte} {n : Nat} {s : State} (hd : s.tdec = .data .ws (.at fifoAddr) n)
    (hfull : s.par.fifoDepth ≤ s.txfifo.length) : targetExchange v s = .error .txFifoFull := by
  rw [targetExchange_data hd, exchangeData, writeByte_full hfull]

/-- A single write to a full TX FIFO is admitted by the bridge and refused by the target, at its data byte (R79, R152). -/
theorem writeSingle_fifo_full {v : Byte} {s : State} (hb : s.busReady = true) (he : s.env = [])
    (hfull : s.par.fifoDepth ≤ s.txfifo.length) : writeSingle fifoAddr v s = .refused .txFifoFull := by
  have opened := targetExchange_access (s := s.openBus.logWire .select) rfl (decodeHeader_write_fifo s.par.strobeCode)
  have refused : exchangeBytes [header fifoAddr kWriteSingle, v] (s.openBus.logWire .select) = .refused .txFifoFull := by
    rw [exchangeBytes_quiet (by exact he) opened, exchangeBytes_refused (by exact he)
      (targetExchange_writeFifo_full rfl (by exact hfull))]
    rfl
  exact operation_refused hb (List.cons_ne_nil _ _) refused

/-- Settles O6: the bridge admits every single write to the FIFO address, and the target takes it where there is room. -/
theorem writeSingleFifoAppendsOrIsRefused : Obligations.WriteSingleFifoAppendsOrIsRefused := by
  unfold Obligations.WriteSingleFifoAppendsOrIsRefused
  intro v s hb he h
  exact ⟨fun hroom => finish_writeSingle_quiet hb he rfl (decodeHeader_write_fifo _) (writeByte_fifo hroom),
    fun hfull => finish_of_refused (writeSingle_fifo_full hb he hfull)⟩

/-- Settles O7: the burst is admitted, and its memory is the model's `Memory.writeList`. -/
theorem burstWriteCfgStoresEachByte : Obligations.BurstWriteCfgStoresEachByte := by
  unfold Obligations.BurstWriteCfgStoresEachByte
  intro a vs s hb he hburst h
  obtain ⟨hn, hl⟩ := cfgBurst_iff.mp hburst
  refine ⟨?_, Memory.read_writeList vs s.mem a.toNat, Memory.read_writeList_other vs s.mem a.toNat⟩
  exact (cfgRow_admitted (by omega) _).trans (congrArg finish (burstWrite_cfg_quiet hb he hn hl))

/-- Settles O8: the admission check looks at the room for all the bytes, in every state (R152). -/
theorem burstWriteFifoAppendsOrIsRefused : Obligations.BurstWriteFifoAppendsOrIsRefused := by
  unfold Obligations.BurstWriteFifoAppendsOrIsRefused
  intro vs s hn h
  refine ⟨fun hb he hroom => ?_, fun hfull => ?_⟩
  · exact congrArg finish (burstWrite_fifo_quiet hb he hn hroom)
  · exact finish_of_refused ((burstWrite_refused_iff _ _ _).mpr (by simp only [fifoAddr]; omega))

/-! ### What the target reads (R144, R147) -/

theorem readByte_stored {a : Nat} {v : Byte} {s : State} (ha : a ≠ fifoAddr) (h : s.mem.read a = some v) :
    readByte a s = (v, s) := by
  simp only [readByte, if_neg ha, h]

theorem readByte_unwritten {a : Nat} {s : State} (ha : a ≠ fifoAddr) (h : s.mem.read a = none) :
    readByte a s = (Config.drawByte s.draws, s.bumpDraws 1) := by
  simp only [readByte, if_neg ha, h]

theorem readByte_fifo_cons {v : Byte} {q : List Byte} {s : State} (h : s.rxfifo = v :: q) :
    readByte fifoAddr s = (v, { s with rxfifo := q }) := by
  simp only [readByte, if_pos, h]

theorem readByte_fifo_nil {s : State} (h : s.rxfifo = []) :
    readByte fifoAddr s = (Config.drawByte s.draws, s.bumpDraws 1) := by
  simp only [readByte, if_pos, h]

theorem statusReg_rxbytes {a : Nat} {s : State} (h : a = s.par.rxbytesAddr) :
    statusReg a s = (BitVec.ofNat 8 s.rxfifo.length, s) := if_pos h

theorem statusReg_other {a : Nat} {s : State} (h : a ≠ s.par.rxbytesAddr) :
    statusReg a s = (Config.drawByte s.draws, s.bumpDraws 1) := if_neg h

/-! ### Reads -/

/-- `read_single` by an instruction, from what the target reads after the draw of the status byte (R140, R144). -/
theorem finish_readSingle_quiet {a : Nat} {v : Byte} {s t : State} (hb : s.busReady = true) (he : s.env = [])
    (ha : admitsSingle a = true) (hd : decodeHeader s.par.strobeCode (header a kReadSingle) = .access .rs a)
    (hr : readByte a (s.bumpDraws 1) = (v, t)) :
    let h := header a kReadSingle
    finish (readSingle a s) = .next
      { t with
        wireLog := s.wireLog ++ [.select, .byte h (statusByte h s), .byte s.par.dummy v, .deselect],
        lastStatus := Datum.of (statusByte h s), returned := [v] } := by
  rw [readSingle_quiet hb he ha hd, hr]
  rfl

/-- Settles O9: both rows are a single read at an address below the FIFO address. -/
theorem readSingleReturnsTheByte : Obligations.ReadSingleReturnsTheByte := by
  unfold Obligations.ReadSingleReturnsTheByte
  intro i a s hb he hrow h
  obtain ⟨hexec, hadmits, hdecode, hmem⟩ : exec i s = finish (readSingle a s) ∧ admitsSingle a = true ∧
      decodeHeader s.par.strobeCode h = .access .rs a ∧ a ≠ fifoAddr := by
    obtain ⟨b, rfl, rfl, hcfg⟩ | ⟨rfl, rfl⟩ := hrow
    · exact ⟨cfgRow_admitted hcfg _, admitsSingle_of_cfg hcfg, decodeHeader_read_cfg _ _ hcfg, ne_fifoAddr_of_cfg hcfg⟩
    · exact ⟨rfl, rfl, decodeHeader_read_patable _, by decide⟩
  rw [hexec]
  exact ⟨fun v hv => finish_readSingle_quiet hb he hadmits hdecode (readByte_stored hmem hv),
    fun hv => finish_readSingle_quiet hb he hadmits hdecode (readByte_unwritten hmem hv)⟩

/-- Settles O10: the row is a single read at the FIFO address. -/
theorem readSingleFifoPopsTheHead : Obligations.ReadSingleFifoPopsTheHead := by
  unfold Obligations.ReadSingleFifoPopsTheHead
  intro s hb he h
  exact ⟨fun v q hq => finish_readSingle_quiet hb he rfl (decodeHeader_read_fifo _) (readByte_fifo_cons hq),
    fun hq => finish_readSingle_quiet hb he rfl (decodeHeader_read_fifo _) (readByte_fifo_nil hq)⟩

/-- Settles O11: the burst is admitted, and what it returns is the model's `burstReadBytes`. -/
theorem burstReadCfgReturnsEachByte : Obligations.BurstReadCfgReturnsEachByte := by
  unfold Obligations.BurstReadCfgReturnsEachByte
  intro a n s hb he hburst h vs
  obtain ⟨hn, hl⟩ := cfgBurst_iff.mp hburst
  exact (cfgRow_admitted (by omega) _).trans (congrArg finish (burstRead_cfg_quiet hb he hn hl))

/-- Settles O12: within `FIFO_DEPTH` the burst is admitted, whatever the queue holds (R65 (b), R79). -/
theorem burstReadFifoPopsInOrder : Obligations.BurstReadFifoPopsInOrder := by
  unfold Obligations.BurstReadFifoPopsInOrder
  intro n s hb he hn hl h vs
  exact congrArg finish (burstRead_fifo_quiet hb he hn hl)

/-- `read_status_reg` by an instruction, from the status register after the draw of the status byte (R147). -/
theorem exec_statusRead_quiet {a : Addr} {v : Byte} {s t : State} (hb : s.busReady = true) (he : s.env = [])
    (ha : statusAddr a = true) (hr : statusReg a.toNat (s.bumpDraws 1) = (v, t)) :
    let h := header a.toNat kBurstRead
    exec (.statusRead a) s = .next
      { t with
        wireLog := s.wireLog ++ [.select, .byte h (statusByte h s), .byte s.par.dummy v, .deselect],
        lastStatus := Datum.of (statusByte h s), returned := [v] } := by
  have admitted : readStatusReg a.toNat s = burstRead a.toNat 1 s := if_pos ha
  refine (congrArg finish admitted).trans ?_
  rw [readStatusReg_quiet hb he ha, hr]
  rfl

/-- Settles O13: the register is the length of the RX FIFO at `RXBYTES_ADDR` and a draw elsewhere (R23, R24). -/
theorem statusReadReturnsTheRegister : Obligations.StatusReadReturnsTheRegister := by
  unfold Obligations.StatusReadReturnsTheRegister
  intro a s hb he ha h
  exact ⟨fun hrx => exec_statusRead_quiet hb he ha (statusReg_rxbytes hrx),
    fun hne => exec_statusRead_quiet hb he ha (statusReg_other hne)⟩

end Sys2Proof.Machine
end

section
/-! PROOFS of the statements about strobes and status: the whole next state of each named strobe on a ready target while no
other agent acts (R170 to R180, R184). No strobe's effect looks at the wire, so the next state is the model's `applyStrobe` on
the state `afterStrobe` that the transaction leaves apart from the effect. -/

namespace Sys2Proof.Machine

/-! ### A strobe's effect and the wire (R170, R182) -/

/-- The state with other values in what a transaction writes and no strobe looks at: the bus, the log and the reply. -/
def State.withWire (s : State) (csn : Bool) (tdec : Tdec) (log : List WireEvent) (status : Datum Byte)
    (returned : List Byte) : State :=
  { s with csn := csn, tdec := tdec, wireLog := log, lastStatus := status, returned := returned }

/-- No strobe's effect, and no refusal, depends on the wire. -/
theorem applyStrobe_withWire (n : StrobeName) (s : State) (c : Bool) (td : Tdec) (w : List WireEvent) (st : Datum Byte)
    (vs : List Byte) :
    applyStrobe n (s.withWire c td w st vs) = (applyStrobe n s).map fun t => t.withWire c td w st vs := by
  cases n with
  | sres | sfrx | sftx | snop | sfstxon | sxoff | swor | spwd | sworrst => rfl
  | scal =>
    by_cases idle : s.chipState = .idle <;>
      simp only [applyStrobe, strobeScal, State.withWire, Except.map, idle, if_true, if_false]
  | sidle =>
    by_cases still : s.chipState = .idle ∨ isErrorState s.chipState = true <;>
      simp only [applyStrobe, strobeSidle, State.withWire, Except.map, still, if_true, if_false]
  | srx | stx =>
    cases hc : s.chipState with
    | calibrate | settling =>
      simp only [applyStrobe, strobeSrx, strobeStx, State.withWire, hc]
      split <;> rfl
    | idle | rx | tx | fstxon | rxOverflow | txUnderflow =>
      simp only [applyStrobe, strobeSrx, strobeStx, State.withWire, hc, Except.map]

/-- A strobe's effect leaves the wire as it is (R182). -/
theorem withWire_of_applyStrobe {n : StrobeName} {s t : State} (hs : applyStrobe n s = .ok t) :
    t.withWire s.csn s.tdec s.wireLog s.lastStatus s.returned = t := by
  have same := applyStrobe_withWire n s s.csn s.tdec s.wireLog s.lastStatus s.returned
  rw [show s.withWire s.csn s.tdec s.wireLog s.lastStatus s.returned = s from rfl, hs] at same
  exact (Except.ok.inj same).symm

/-- The state in which the header takes effect is `afterStrobe` but for the wire, which stands as `select` left it (R121,
R127). -/
theorem applyStrobe_opened (n : StrobeName) (r : Bool) (s : State) :
    applyStrobe n ((s.openBus.logWire .select).bumpDraws 1) = (applyStrobe n (afterStrobe n r s)).map fun t =>
      t.withWire false .awaitHeader (s.wireLog ++ [.select]) s.lastStatus s.returned :=
  applyStrobe_withWire n (afterStrobe n r s) _ _ _ _ _

@[simp] theorem afterStrobe_chipState (n : StrobeName) (r : Bool) (s : State) :
    (afterStrobe n r s).chipState = s.chipState := rfl

/-! ### A strobe by an instruction (R170) -/

theorem exec_ofStrobe (n : StrobeName) (r : Bool) (s : State) :
    exec (Instr.ofStrobe n r) s = finish (strobeFramed n r s) := by cases n <;> rfl

/-- The header of a strobe that the target refuses (R127, R175, R176). -/
theorem targetExchange_strobe_refused {s : State} {n : StrobeName} {r : Bool} {e : Refusal}
    (hc : s.par.strobeCode.wf = true) (ht : s.tdec = .awaitHeader) (hs : applyStrobe n (s.bumpDraws 1) = .error e) :
    targetExchange (strobeByte s.par.strobeCode n r) s = .error e := by
  simp only [targetExchange, ht, exchangeHeader, decodeHeader_strobe hc, hs]

section
variable {n : StrobeName} {r : Bool} {s : State} (hc : s.par.strobeCode.wf = true) (hb : s.busReady = true)
  (he : s.env = []) (hn : admitsStrobe n = true)
include hc hb he hn

/-- A strobe that the target carries out: the next state is the one its effect makes of `afterStrobe`. -/
theorem exec_strobe_taken {t : State} (hs : applyStrobe n (afterStrobe n r s) = .ok t) :
    exec (Instr.ofStrobe n r) s = .next t := by
  obtain ⟨_, hcsn, htdec, _⟩ := (busReady_iff s).mp hb
  have opened := applyStrobe_opened n r s
  rw [hs] at opened
  rw [exec_ofStrobe, strobeFramed_quiet hc hb he hn opened, ← withWire_of_applyStrobe hs]
  simp [finish, afterStrobe, State.afterOk, State.withWire, State.withTdec, State.logWire, State.closeBus, hcsn, htdec]

/-- A strobe that the target refuses: so is the instruction, for the same reason. -/
theorem exec_strobe_refused {e : Refusal} (hs : applyStrobe n (afterStrobe n r s) = .error e) :
    exec (Instr.ofStrobe n r) s = .refused e := by
  have opened := applyStrobe_opened n r s
  rw [hs] at opened
  rw [exec_ofStrobe, strobeFramed, if_pos hn]
  exact finish_of_refused (operation_refused hb (List.cons_ne_nil _ _)
    (exchangeBytes_refused he (targetExchange_strobe_refused (s := s.openBus.logWire .select) hc rfl opened)))

end

/-! ### The memory of a reset strobe (R173) -/

theorem Memory.read_append (m m' : Memory) (a : Nat) : Memory.read (m ++ m') a = (m.read a).or (m'.read a) := by
  induction m with
  | nil => rfl
  | cons c m ih =>
    obtain ⟨k, v⟩ := c
    rw [List.cons_append, Memory.read_cons, Memory.read_cons, ih]
    split <;> rfl

/-- A memory that lists the first `k` addresses. -/
theorem Memory.read_map_range (f : Nat → Byte) (k a : Nat) :
    Memory.read ((List.range k).map fun i => (i, f i)) a = if a < k then some (f a) else none := by
  induction k with
  | zero => rfl
  | succ k ih =>
    rw [List.range_succ, List.map_append, Memory.read_append, ih]
    rcases Nat.lt_trichotomy a k with below | rfl | above
    · rw [if_pos below, if_pos (by omega)]; rfl
    · simp [Memory.read_cons]
    · simp [Memory.read_cons, above.ne, above.not_gt, show ¬ a < k + 1 by omega]

/-- Configuration register `a` is the draw number `a` of the 48 fresh ones (R173, D25). -/
theorem Memory.read_drawn_cfg (n : Nat) {a : Nat} (h : a ≤ 0x2E) :
    (Memory.drawn n).read a = some (Config.drawByte (n + a)) := by
  rw [Memory.drawn, Memory.read_append, Memory.read_map_range, if_pos (by simp only [Config.cfgLen]; omega)]
  rfl

/-- PATABLE is the last of the 48 fresh draws (R173, D25). -/
theorem Memory.read_drawn_patable (n : Nat) : (Memory.drawn n).read patableAddr = some (Config.drawByte (n + 47)) := by
  rw [Memory.drawn, Memory.read_append, Memory.read_map_range, if_neg (by decide)]
  rfl

/-- Settles O14: the strobe resets every chip state, and its memory is the model's `Memory.drawn`. -/
theorem resetStrobeResetsTheTarget : Obligations.ResetStrobeResetsTheTarget := by
  unfold Obligations.ResetStrobeResetsTheTarget
  intro r s hc hb he
  exact ⟨exec_strobe_taken (n := .sres) hc hb he rfl rfl, fun a => Memory.read_drawn_cfg (s.draws + 1),
    Memory.read_drawn_patable (s.draws + 1)⟩

/-! ### The rows of the enter strobes (R175, R176, R184) -/

theorem strobeSrx_transitional {s : State} (h : isTransitional s.chipState = true) :
    strobeSrx s =
      if s.goal = .toTx then .error .concurrentStrobe else .ok { s with goal := .toRx, swapUsed := false } := by
  obtain hc | hc := isTransitional_cases h <;> simp only [strobeSrx, hc]

theorem strobeStx_transitional {s : State} (h : isTransitional s.chipState = true) :
    strobeStx s =
      if s.goal = .toRx then .error .concurrentStrobe else .ok { s with goal := .toTx, swapUsed := false } := by
  obtain hc | hc := isTransitional_cases h <;> simp only [strobeStx, hc]

theorem strobeSrx_error {s : State} (h : isErrorState s.chipState = true) : strobeSrx s = .ok s := by
  obtain hc | hc := isErrorState_cases h <;> simp only [strobeSrx, hc]

theorem strobeStx_error {s : State} (h : isErrorState s.chipState = true) : strobeStx s = .ok s := by
  obtain hc | hc := isErrorState_cases h <;> simp only [strobeStx, hc]

/-- Settles O15: by the chip state, and in the transitional states by the goal, both of which `afterStrobe` leaves alone. -/
theorem enterStrobesFollowTheMatrix : Obligations.EnterStrobesFollowTheMatrix := by
  unfold Obligations.EnterStrobesFollowTheMatrix
  intro r s hc hb he
  have srxTaken {t : State} : strobeSrx (afterStrobe .srx r s) = .ok t → exec (.srx r) s = .next t :=
    exec_strobe_taken (n := .srx) hc hb he rfl
  have stxTaken {t : State} : strobeStx (afterStrobe .stx r s) = .ok t → exec (.stx r) s = .next t :=
    exec_strobe_taken (n := .stx) hc hb he rfl
  have srxRefused {e : Refusal} : strobeSrx (afterStrobe .srx r s) = .error e → exec (.srx r) s = .refused e :=
    exec_strobe_refused (n := .srx) hc hb he rfl
  have stxRefused {e : Refusal} : strobeStx (afterStrobe .stx r s) = .error e → exec (.stx r) s = .refused e :=
    exec_strobe_refused (n := .stx) hc hb he rfl
  refine ⟨fun idle => ⟨srxTaken ?_, stxTaken ?_⟩, fun moving => ?transitional,
    fun rx => ⟨srxTaken ?_, stxRefused ?_⟩, fun tx => ⟨srxRefused ?_, stxTaken ?_⟩,
    fun fstxon => ⟨srxRefused ?_, stxRefused ?_⟩, fun error => ?error⟩
  case transitional =>
    have srxRow := strobeSrx_transitional (s := afterStrobe .srx r s) moving
    have stxRow := strobeStx_transitional (s := afterStrobe .stx r s) moving
    exact ⟨fun goal => srxTaken (srxRow.trans (if_neg goal)), fun goal => srxRefused (srxRow.trans (if_pos goal)),
      fun goal => stxTaken (stxRow.trans (if_neg goal)), fun goal => stxRefused (stxRow.trans (if_pos goal))⟩
  case error => exact ⟨srxTaken (strobeSrx_error (by exact error)), stxTaken (strobeStx_error (by exact error))⟩
  -- the rows that the chip state alone decides
  all_goals simp only [strobeSrx, strobeStx, afterStrobe_chipState, *]

/-! ### The other strobes -/

/-- Settles O16: each of the two effects is one test of the chip state. -/
theorem calibrateAndIdleStrobes : Obligations.CalibrateAndIdleStrobes := by
  unfold Obligations.CalibrateAndIdleStrobes
  intro r s hc hb he
  have scal {t : State} (effect : strobeScal (afterStrobe .scal r s) = t) : exec (.scal r) s = .next t :=
    exec_strobe_taken (n := .scal) hc hb he rfl (congrArg _ effect)
  have sidle {t : State} (effect : strobeSidle (afterStrobe .sidle r s) = t) : exec (.sidle r) s = .next t :=
    exec_strobe_taken (n := .sidle) hc hb he rfl (congrArg _ effect)
  exact ⟨fun idle => scal (if_pos idle), fun busy => scal (if_neg busy),
    fun busy good => sidle (if_neg (by simp [busy, good])), fun still => sidle (if_pos still)⟩

/-- Settles O17: the two flush strobes act in every chip state. -/
theorem flushStrobesEmptyTheirQueue : Obligations.FlushStrobesEmptyTheirQueue := by
  unfold Obligations.FlushStrobesEmptyTheirQueue
  intro r s hc hb he
  exact ⟨exec_strobe_taken (n := .sfrx) hc hb he rfl rfl, exec_strobe_taken (n := .sftx) hc hb he rfl rfl⟩

/-! ### The FIFO counts of the two status framings (R32, R171, R172) -/

theorem toNat_saturate4 (n : Nat) : (saturate4 n).toNat = min n 15 := by
  rw [saturate4, BitVec.toNat_ofNat, Nat.mod_eq_of_lt (by omega)]

/-- Bit 7 tells the two framings of a strobe apart (R93, R94). -/
theorem strobeByte_clear_ne_set (c : StrobeCodes) (n : StrobeName) : strobeByte c n false ≠ strobeByte c n true := by
  intro same
  have bit7 := congrArg headerRead same
  simp only [strobeByte_eq_strobeHeader, strobeHeader, headerRead_headerOf, Bool.false_eq_true] at bit7

theorem fifoField_readStatus (s : State) :
    fifoField (strobeByte s.par.strobeCode .snop true) s = saturate4 s.rxfifo.length := if_pos rfl

theorem fifoField_writeStatus (s : State) :
    fifoField (strobeByte s.par.strobeCode .snop false) s = saturate4 (s.par.fifoDepth - s.txfifo.length) :=
  (if_neg (strobeByte_clear_ne_set _ _)).trans (if_pos rfl)

/-- Settles O18: the framings are the no-op strobe's two headers, and the count field of each is the low part of the byte. -/
theorem noOpFramingsReturnTheCounts : Obligations.NoOpFramingsReturnTheCounts := by
  unfold Obligations.NoOpFramingsReturnTheCounts
  intro s hc hb he
  have snop (r : Bool) : exec (.snop r) s = .next (afterStrobe .snop r s) :=
    exec_strobe_taken (n := .snop) hc hb he rfl rfl
  refine ⟨snop, snop true, snop false, ?_, ?_, rfl, rfl⟩
  · rw [statusByte_toNat_mod, fifoField_readStatus, toNat_saturate4]
  · rw [statusByte_toNat_mod, fifoField_writeStatus, toNat_saturate4]

end Sys2Proof.Machine
end

section
/-! PROOFS of the statements about the profile loader: what its operations do on the wire and to the target (R210 to R214), and
the four boot phases one after the other (R215, R354). -/

namespace Sys2Proof.Machine

/-! ### Ids and levels (R211, R212) -/

theorem profileOf_natCast (p : Params) (n : Nat) : profileOf p (n : Int) = p.profiles[n]? := rfl

theorem profileOf_negSucc (p : Params) (n : Nat) : profileOf p (Int.negSucc n) = none := rfl

/-- The ids of the table (R211). -/
theorem profileOf_isSome_iff (p : Params) (id : Int) :
    (profileOf p id).isSome = true ↔ 0 ≤ id ∧ id < p.profiles.length := by
  cases id with
  | ofNat n => simp [profileOf_natCast]
  | negSucc n => simp [profileOf_negSucc]

/-- What the conditions on the parameters give the profile loader and boot (R7, R95, R101). -/
theorem params_wf_parts {p : Params} (hw : p.wf = true) :
    (∀ t ∈ p.profiles, t.length = 47) ∧ (∀ w ∈ p.pktModeWrites, w.1 ≤ 0x2E) ∧ p.strobeCode.wf = true := by
  simp only [Params.wf, Bool.and_eq_true, List.all_eq_true, beq_iff_eq, decide_eq_true_eq, Config.cfgLen] at hw
  tauto

/-- A profile of admitted parameters has a byte for each configuration register (R101). -/
theorem length_of_profileOf {p : Params} {id : Int} {table : List Byte} (hw : p.wf = true)
    (h : profileOf p id = some table) : table.length = 47 := by
  obtain ⟨profiles, _, _⟩ := params_wf_parts hw
  cases id with
  | ofNat n => exact profiles table (List.mem_of_getElem? h)
  | negSucc n => cases h

/-- A level that the enumerated set does not name has no calibration byte (R212). -/
theorem paByte_eq_none {p : Params} {level : Nat} (h : ∀ b, (level, b) ∉ p.paLevels) : paByte p level = none := by
  rw [paByte, Option.map_eq_none_iff, List.find?_eq_none]
  rintro ⟨l, b⟩ mem same
  obtain rfl : l = level := beq_iff_eq.mp same
  exact h b mem

/-- With chip select deasserted the abort actions do nothing (R308). -/
theorem raiseError_deselected {α : Type} (e : OpError) {s : State} (h : s.csn = true) :
    (raiseError e s : OpResult α) = .err e s := by
  rw [raiseError, State.abort, if_pos h]

/-- Settles O49: both operations look their argument up before their first transaction. -/
theorem invalidInputsAreRejectedBeforeTheWire : Obligations.InvalidInputsAreRejectedBeforeTheWire := by
  unfold Obligations.InvalidInputsAreRejectedBeforeTheWire
  intro id level s hcsn
  refine ⟨profileOf_isSome_iff s.par id, fun outside => ?_, fun outside => ?_⟩
  · have unknown : profileOf s.par id = none := by
      rwa [← profileOf_isSome_iff, Option.not_isSome_iff_eq_none] at outside
    rw [loadProfile, unknown]
    exact raiseError_deselected _ hcsn
  · rw [setTxPower, paByte_eq_none outside]
    exact raiseError_deselected _ hcsn

/-! ### Single writes below the FIFO address (R142, R212, R213) -/

theorem backed_iff (a : Nat) : Memory.backed a = true ↔ a ≤ 0x2E ∨ a = patableAddr := by
  simp [Memory.backed, patableAddr]

/-- The wire events of the bytes of one single write `w`: the bytes `r` are the ones received (R91, R142). -/
def writeSingleBytes (w : Nat × Byte) (r : Byte × Byte) : List WireEvent :=
  [.byte (header w.1 kWriteSingle) r.1, .byte w.2 r.2]

/-- What a single write receives at `s`: the status byte and a draw (R31, R127). -/
def writeSingleReceives (w : Nat × Byte) (s : State) : Byte × Byte :=
  (statusByte (header w.1 kWriteSingle) s, Config.drawByte (s.draws + 1))

/-- The state after the single write `w` to an address that holds a byte, while no other agent acts (R142, R145). -/
def State.afterWrite (s : State) (w : Nat × Byte) : State :=
  { s.afterTxn (writeSingleReceives w s).1 (writeSingleBytes w (writeSingleReceives w s)) with
    mem := s.mem.write w.1 w.2, draws := s.draws + 2 }

/-- `write_single` to a configuration register or to PATABLE (R25, R142). -/
theorem writeSingle_backed_quiet {a : Nat} (ha : Memory.backed a = true) (v : Byte) {s : State}
    (hb : s.busReady = true) (he : s.env = []) :
    writeSingle a v s = .ok { status := statusByte (header a kWriteSingle) s, values := [] } (s.afterWrite (a, v)) := by
  obtain cfg | rfl := (backed_iff a).mp ha
  · exact writeSingle_quiet hb he (admitsSingle_of_cfg cfg) (decodeHeader_write_cfg _ a cfg)
      (writeByte_mem (ne_fifoAddr_of_cfg cfg))
  · exact writeSingle_quiet hb he rfl (decodeHeader_write_patable _) (writeByte_mem (by decide))

/-- A list of single writes to configuration registers is one transaction per pair, in list order (R213). -/
theorem writeSingles_quiet : ∀ (ws : List (Nat × Byte)) (s : State), (∀ w ∈ ws, w.1 ≤ 0x2E) → s.busReady = true →
    s.env = [] → ∃ (rs : List (Byte × Byte)) (status : Datum Byte) (draws : Nat), rs.length = ws.length ∧
      writeSingles ws s = .ok ()
        { s with
          mem := ws.foldl (fun m w => m.write w.1 w.2) s.mem, draws := draws, lastStatus := status,
          wireLog := s.wireLog ++
            (List.zipWith (fun w r => .select :: writeSingleBytes w r ++ [.deselect]) ws rs).flatten } := by
  intro ws
  induction ws with
  | nil => exact fun s _ _ _ => ⟨[], s.lastStatus, s.draws, rfl, by simp [writeSingles]⟩
  | cons w ws ih =>
    intro s hcfg hb he
    obtain ⟨hw, hws⟩ := List.forall_mem_cons.mp hcfg
    have first := writeSingle_backed_quiet ((backed_iff w.1).mpr (.inl hw)) w.2 hb he
    obtain ⟨rs, status, draws, hlen, rest⟩ := ih (s.afterWrite w) hws hb he
    refine ⟨writeSingleReceives w s :: rs, status, draws, congrArg (· + 1) hlen, ?_⟩
    rw [writeSingles, first, OpResult.andThen, rest]
    simp [State.afterWrite, State.afterTxn]

/-- Settles O51: the operation is the list of writes of the parameters. -/
theorem setupPacketModeWritesInOrder : Obligations.SetupPacketModeWritesInOrder := by
  unfold Obligations.SetupPacketModeWritesInOrder
  intro s hb he hw
  obtain ⟨_, cfg, _⟩ := params_wf_parts hw
  obtain ⟨rs, status, draws, hlen, run⟩ := writeSingles_quiet _ s cfg hb he
  exact ⟨_, rs, run, hb, hlen, rfl, rfl, rfl, rfl, rfl, rfl⟩

/-! ### The profile (R210, R214) -/

/-- An operation of one byte, with the environment's choices made for its wait and for the time up to `deselect` (R66,
R123). -/
theorem operation_byte_go {keep : Bool} {b v : Byte} {s t : State} {es : List Event} (hb : s.busReady = true)
    (he : s.env = .go :: .go :: es)
    (hx : targetExchange b ((s.openBus.logWire .select).withEnv (.go :: es)) = .ok (v, t)) :
    operation keep [b] s = .ok { status := v, values := [] }
      { (((t.logWire (.byte b v)).withEnv es).closeBus.logWire .deselect) with lastStatus := Datum.of v } := by
  obtain ⟨hinit, _, _, _⟩ := (busReady_iff s).mp hb
  obtain ⟨m, rx, tx, cs, g, rd, td, sw, dr, _, rfl⟩ := targetExchange_shape hx
  have exchanged := exchangeBytes_go (bs := []) (s := s.openBus.logWire .select) he hx
  simp only [exchangeBytes_nil, OpResult.andThen] at exchanged
  simp [operation, transact, select_ready hb, OpResult.andThen, exchange, hinit, exchanged, agentsAct, deselect]

/-- The state after the sequencer's reset strobe at `s`, with `es` left of the environment's choices (R173). -/
def State.afterReset (s : State) (es : List Event) : State :=
  let h := strobeByte s.par.strobeCode .sres true
  { s.afterTxn (statusByte h s) [.byte h (statusByte h s)] with
    mem := Memory.drawn (s.draws + 1), rxfifo := [], txfifo := [], chipState := .idle, goal := .none, ready := false,
    swapUsed := false, draws := s.draws + 49, env := es }

/-- The reset strobe, with the environment's choices made for its byte and for the time up to `deselect` (R66, R173). -/
theorem strobe_sres_go {s : State} {es : List Event} (hc : s.par.strobeCode.wf = true) (hb : s.busReady = true)
    (he : s.env = .go :: .go :: es) :
    strobe .sres s =
      .ok { status := statusByte (strobeByte s.par.strobeCode .sres true) s, values := [] } (s.afterReset es) := by
  obtain ⟨_, hcsn, htdec, _⟩ := (busReady_iff s).mp hb
  have admitted : admitsStrobe .sres = true := rfl
  have taken : targetExchange (strobeByte s.par.strobeCode .sres true)
      ((s.openBus.logWire .select).withEnv (.go :: es)) =
      .ok (statusByte (strobeByte s.par.strobeCode .sres true) s, _) :=
    targetExchange_strobe (c := s.par.strobeCode) rfl hc rfl rfl
  rw [strobe, strobeFramed, if_pos admitted, operation_byte_go hb he taken]
  simp [State.afterReset, State.afterTxn, strobeSres, State.openBus, State.closeBus, State.logWire, State.withEnv,
    State.withTdec, State.bumpDraws, hcsn, htdec, Config.cfgLen]

/-- A burst write whose ready wait ends with `become_ready` (R121, R214): the admission check does not look at the line. -/
theorem burstWrite_becomeReady (a : Nat) (vs : List Byte) {s : State} {es : List Event} (hb : s.busIdle = true)
    (hr : s.ready = false) (he : s.env = .becomeReady :: es) :
    burstWrite a vs s = burstWrite a vs (becomeReady (s.withEnv es)) := by
  rw [burstWrite, operation_of_select_eq (select_becomeReady hb hr he)]
  rfl

/-- The draws that a burst write receives stand beside its bytes (R127). -/
theorem burstWriteEvents_eq_zipWith (n : Nat) (vs : List Byte) :
    burstWriteEvents n vs = List.zipWith .byte vs ((List.range' n vs.length).map Config.drawByte) := by
  rw [burstWriteEvents, List.zipIdx_eq_zip_range', List.zipWith_map_right, List.zip, List.map_zipWith]

/-- What `load_profile` leaves, and what it puts on the wire: the reset strobe's transaction, then one burst write of the
table from address 0 on (R210, R214). -/
theorem loadProfile_of_ready {id : Int} {table : List Byte} {s : State} (hc : s.par.strobeCode.wf = true)
    (hb : s.busReady = true) (he : s.env = [.go, .go, .becomeReady]) (hp : profileOf s.par id = some table)
    (hl : table.length = 47) :
    ∃ (status : Byte) (received : List Byte) (draws : Nat), received.length = 47 ∧ loadProfile id s = .ok ()
      { s.afterReset [] with
        mem := (Memory.drawn (s.draws + 1)).writeList 0 table, ready := true, lastStatus := Datum.of status,
        draws := draws,
        wireLog := (s.afterReset []).wireLog ++
          (.select :: .byte 0x40 status :: List.zipWith .byte table received ++ [.deselect]) } := by
  obtain ⟨hinit, hcsn, htdec, _⟩ := (busReady_iff s).mp hb
  have idle : (s.afterReset [.becomeReady]).busIdle = true := (busIdle_iff _).mpr ⟨hinit, hcsn, htdec⟩
  have ready : (becomeReady (s.afterReset [])).busReady = true := (busReady_iff _).mpr ⟨hinit, hcsn, htdec, rfl⟩
  have burst := (burstWrite_becomeReady 0x00 table idle rfl rfl).trans
    (burstWrite_cfg_quiet (s := becomeReady (s.afterReset [])) ready rfl (by omega) (by omega))
  refine ⟨statusByte 0x40 (becomeReady (s.afterReset [])), (List.range' (s.draws + 50) table.length).map Config.drawByte,
    s.draws + 50 + table.length, by simp [hl], ?_⟩
  rw [← burstWriteEvents_eq_zipWith, loadProfile, hp]
  simp only [strobe_sres_go hc hb he, OpResult.andThen, burst]
  rfl

/-- Settles O50: the burst covers every configuration register, and PATABLE keeps the draw of the reset strobe. -/
theorem loadProfileWritesTheProfile : Obligations.LoadProfileWritesTheProfile := by
  unfold Obligations.LoadProfileWritesTheProfile
  intro id table s hc hb he hp hl
  obtain ⟨hinit, hcsn, htdec, _⟩ := (busReady_iff s).mp hb
  obtain ⟨status, received, draws, hlen, run⟩ := loadProfile_of_ready hc hb he hp hl
  refine ⟨_, statusByte (strobeByte s.par.strobeCode .sres true) s, status, received, run, hlen, ?_, fun i hi => ?_, ?_,
    rfl, rfl, rfl, (busReady_iff _).mpr ⟨hinit, hcsn, htdec, rfl⟩, rfl⟩
  · simp [State.afterReset, State.afterTxn]
  · simpa using Memory.read_writeList table (Memory.drawn (s.draws + 1)) 0 i hi
  · rw [Memory.read_writeList_other _ _ _ _ (by omega)]
    exact Memory.read_drawn _ _ rfl

end Sys2Proof.Machine
end

section
/-! PROOFS of the statements about boot: the four boot phases one after the other, from power-on to the first phase of the
role (R215, R354). -/

namespace Sys2Proof.Machine

/-! ### What holds between two boot phases -/

/-- The sequencer at the phase `ph` of a boot so far without error, on an idle bus, with `env` left of the environment's
choices: awake, the detector not armed and no event in the slot, no transaction of a caller placed (R52, R215). -/
structure Booting (p : Params) (ph : Phase) (env : List Event) (s : State) : Prop where
  par : s.par = p
  phase : s.phase = ph
  env : s.env = env
  request : s.request = []
  sleeping : s.sleeping = false
  armed : s.armed = false
  wakeSlot : s.wakeSlot = false
  err : s.err = none
  csn : s.csn = true
  tdec : s.tdec = .closed

/-- And the target has been reset and configured: it is ready in IDLE, its queues are empty, and its memory is `m` (R210,
R214). -/
structure Configured (p : Params) (ph : Phase) (m : Memory) (s : State) : Prop extends Booting p ph [] s where
  mem : s.mem = m
  spiInited : s.spiInited = true
  ready : s.ready = true
  chipState : s.chipState = .idle
  rxfifo : s.rxfifo = []
  txfifo : s.txfifo = []

theorem resetWith_booting (p : Params) (c : ChipState) (es : List Event) :
    Booting p .bootInit es { State.resetWith p with chipState := c, env := es } :=
  ⟨rfl, rfl, rfl, rfl, rfl, rfl, rfl, rfl, rfl, rfl⟩

theorem Configured.quietAt {p : Params} {ph : Phase} {m : Memory} {s : State} (h : Configured p ph m s) : s.quietAt ph :=
  ⟨h.phase, (busReady_iff s).mpr ⟨h.spiInited, h.csn, h.tdec, h.ready⟩, h.sleeping, h.request, h.env⟩

/-! ### The four boot phases (R215) -/

/-- A phase that is one action and then control to the phase `ph` (R42, R231). -/
theorem phaseStep_of_goto {α : Type} {x : OpResult α} {a : α} {s t : State} {ph : Phase}
    (run : runPhase s = x.andThen fun _ => goto ph) (hx : x = .ok a t) : phaseStep s = .next { t with phase := ph } := by
  rw [phaseStep, run, hx]
  rfl

/-- A turn that the environment gives to the sequencer is its phase's (R72, R231). -/
theorem Booting.step_go {p : Params} {ph : Phase} {es : List Event} {s : State} (h : Booting p ph (.go :: es) s)
    (running : ph ≠ .halt) : step s = phaseStep (s.withEnv es) := by
  have turn : nextTurn s = .phase (s.withEnv es) := by
    rw [nextTurn, h.env]
    simp [sequencerTurn, h.sleeping, h.phase, running, h.request]
  rw [step, turn]

/-- BOOT_INIT initialises the transport and puts nothing on the wire (R120, R215). -/
theorem step_bootInit {p : Params} {es : List Event} {s : State} (h : Booting p .bootInit (.go :: es) s) :
    ∃ t, step s = .next t ∧ Booting p .bootProfile es t ∧ t.spiInited = true ∧ t.ready = s.ready ∧
      t.wireLog = s.wireLog := by
  have run : runPhase (s.withEnv es) = (spiInit (s.withEnv es)).andThen fun _ => goto .bootProfile := by
    simp only [runPhase, State.withEnv_phase, h.phase, phaseBootInit]
  have init : spiInit (s.withEnv es) = .ok () { s.withEnv es with spiInited := true, csn := true } := by
    simp [spiInit, h.csn]
  exact ⟨_, (h.step_go nofun).trans (phaseStep_of_goto run init), { h with phase := rfl, env := rfl, csn := rfl }, rfl,
    rfl, rfl⟩

theorem strobe_becomeReady (n : StrobeName) {s : State} {es : List Event} (hb : s.busIdle = true) (hr : s.ready = false)
    (he : s.env = .becomeReady :: es) : strobe n s = strobe n (becomeReady (s.withEnv es)) := by
  rw [strobe, strobeFramed, operation_of_select_eq (select_becomeReady hb hr he)]
  rfl

/-- A known profile on a target that becomes ready in the first `select` (R121, R210). -/
theorem loadProfile_becomeReady {id : Int} {table : List Byte} {s : State} {es : List Event}
    (hp : profileOf s.par id = some table) (hb : s.busIdle = true) (hr : s.ready = false)
    (he : s.env = .becomeReady :: es) : loadProfile id s = loadProfile id (becomeReady (s.withEnv es)) := by
  have hp' : profileOf (becomeReady (s.withEnv es)).par id = some table := hp
  simp only [loadProfile, hp, hp', strobe_becomeReady .sres hb hr he]

/-- BOOT_PROFILE, with the target becoming ready in each of the two waits (R210, R214, R215). -/
theorem step_bootProfile {p : Params} {table : List Byte} {s : State} (hw : p.wf = true)
    (hp : profileOf p p.profileId = some table)
    (h : Booting p .bootProfile [.go, .becomeReady, .go, .go, .becomeReady] s) (hinit : s.spiInited = true)
    (hr : s.ready = false) :
    ∃ t n, step s = .next t ∧ Configured p .bootPktMode ((Memory.drawn n).writeList 0x00 table) t := by
  obtain rfl := h.par
  let u := s.withEnv [.becomeReady, .go, .go, .becomeReady]
  have idle : u.busIdle = true := (busIdle_iff u).mpr ⟨hinit, h.csn, h.tdec⟩
  have ready : (becomeReady (u.withEnv [.go, .go, .becomeReady])).busReady = true :=
    (busReady_iff _).mpr ⟨hinit, h.csn, h.tdec, rfl⟩
  obtain ⟨_, _, codes⟩ := params_wf_parts hw
  obtain ⟨status, received, draws, -, loaded⟩ :=
    loadProfile_of_ready (s := becomeReady (u.withEnv [.go, .go, .becomeReady])) codes ready rfl hp
      (length_of_profileOf hw hp)
  have waits : loadProfile s.par.profileId u = loadProfile s.par.profileId _ :=
    loadProfile_becomeReady (s := u) hp idle hr rfl
  have run : runPhase u = (loadProfile s.par.profileId u).andThen fun _ => goto .bootPktMode := by
    simp only [runPhase, show u.phase = .bootProfile from h.phase, phaseBootProfile]
    rfl
  exact ⟨_, _, (h.step_go nofun).trans (phaseStep_of_goto run (waits.trans loaded)),
    { h with phase := rfl, env := rfl, mem := rfl, spiInited := hinit, ready := rfl, chipState := rfl, rxfifo := rfl,
             txfifo := rfl }⟩

/-- BOOT_PKT_MODE overrides the profile's bytes by the packet-mode writes (R213, R215). -/
theorem step_bootPktMode {p : Params} {m : Memory} {s : State} (hw : p.wf = true)
    (h : Configured p .bootPktMode m s) :
    ∃ t, step s = .next t ∧ Configured p .bootTxPower (p.pktModeWrites.foldl (fun m w => m.write w.1 w.2) m) t := by
  obtain rfl := h.par
  obtain rfl := h.mem
  obtain ⟨_, hb, _, _, he⟩ := h.quietAt
  obtain ⟨_, cfg, _⟩ := params_wf_parts hw
  obtain ⟨rs, status, draws, -, written⟩ := writeSingles_quiet _ s cfg hb he
  have run : runPhase s = (setupPacketMode s).andThen fun _ => goto .bootTxPower := by
    simp only [runPhase, h.phase, phaseBootPktMode]
  exact ⟨_, (step_quietAt h.quietAt nofun).trans (phaseStep_of_goto run written), { h with phase := rfl, mem := rfl }⟩

/-- A known level is one single write to PATABLE (R25, R212). -/
theorem setTxPower_quiet {level : Nat} {power : Byte} {s : State} (hp : paByte s.par level = some power)
    (hb : s.busReady = true) (he : s.env = []) : setTxPower level s = .ok () (s.afterWrite (patableAddr, power)) := by
  rw [setTxPower, hp]
  simp only [writeSingle_backed_quiet (a := patableAddr) rfl power hb he, OpResult.andThen]

/-- BOOT_TX_POWER writes the level's calibration byte to PATABLE and hands over to the role's loop (R212, R215, R230). -/
theorem step_bootTxPower {p : Params} {power : Byte} {m : Memory} {s : State} (hp : paByte p p.txPowerLevel = some power)
    (h : Configured p .bootTxPower m s) :
    ∃ t, step s = .next t ∧ Configured p (firstPhase p.role) (m.write patableAddr power) t := by
  obtain rfl := h.par
  obtain rfl := h.mem
  obtain ⟨_, hb, _, _, he⟩ := h.quietAt
  have run : runPhase s = (setTxPower s.par.txPowerLevel s).andThen fun _ => goto (firstPhase s.par.role) := by
    simp only [runPhase, h.phase, phaseBootTxPower]
  exact ⟨_, (step_quietAt h.quietAt nofun).trans (phaseStep_of_goto run (setTxPower_quiet hp hb he)),
    { h with phase := rfl, mem := rfl }⟩

/-! ### The configuration after boot (R354) -/

/-- The same write to two memories that agree at `a` leaves them agreeing at `a`. -/
theorem Memory.read_write_agree {m m' : Memory} {a : Nat} (h : m.read a = m'.read a) (b : Nat) (v : Byte) :
    (m.write b v).read a = (m'.write b v).read a := by
  by_cases same : a = b
  · subst same; rw [Memory.read_write_same, Memory.read_write_same]
  · rw [Memory.read_write_other _ _ _ _ same, Memory.read_write_other _ _ _ _ same, h]

theorem Memory.read_foldl_write_agree (ws : List (Nat × Byte)) : ∀ {m m' : Memory} {a : Nat}, m.read a = m'.read a →
    (ws.foldl (fun m w => m.write w.1 w.2) m).read a = (ws.foldl (fun m w => m.write w.1 w.2) m').read a := by
  induction ws with
  | nil => exact fun h => h
  | cons w ws ih => exact fun h => ih (Memory.read_write_agree h w.1 w.2)

/-- Boot writes every configuration register and PATABLE, so nothing of the memory before it is left. -/
theorem read_bootMemory (p : Params) {table : List Byte} (hl : table.length = 47) (power : Byte) (m m' : Memory) {a : Nat}
    (ha : Memory.backed a = true) : (bootMemory p table power m).read a = (bootMemory p table power m').read a := by
  obtain cfg | rfl := (backed_iff a).mp ha
  · refine Memory.read_write_agree (Memory.read_foldl_write_agree _ ?_) _ _
    have stored (k : Memory) := Memory.read_writeList table k 0 a (by omega)
    rw [Nat.zero_add] at stored
    rw [stored, stored]
  · rw [bootMemory, bootMemory, Memory.read_write_same, Memory.read_write_same]

theorem firstPhase_inLoop (r : Role) : (firstPhase r).inLoop = true := by cases r <;> rfl

/-- A configured node at the first phase of its role has completed boot (R354). -/
theorem Configured.bootCompleted {p : Params} {table : List Byte} {power : Byte} {m : Memory} {s : State}
    (hw : p.wf = true) (hp : profileOf p p.profileId = some table) (hpa : paByte p p.txPowerLevel = some power)
    (h : Configured p (firstPhase p.role) (bootMemory p table power m) s) : s.bootCompleted := by
  obtain rfl := h.par
  exact ⟨h.phase ▸ firstPhase_inLoop _, h.err, h.ready, h.chipState, h.rxfifo, h.txfifo, h.armed, h.wakeSlot, h.sleeping,
    h.csn, table, power, hp, hpa,
    fun a ha => h.mem ▸ read_bootMemory s.par (length_of_profileOf hw hp) power m [] ha⟩

/-- Settles O52: each boot phase begins where the one before it ends. -/
theorem bootReachesTheLoop : Obligations.BootReachesTheLoop := by
  unfold Obligations.BootReachesTheLoop
  intro p c table power hw hp hpa
  obtain ⟨s1, step1, boot1, hinit, hready, hlog⟩ := step_bootInit (resetWith_booting p c _)
  obtain ⟨s2, n, step2, boot2⟩ := step_bootProfile hw hp boot1 hinit hready
  obtain ⟨s3, step3, boot3⟩ := step_bootPktMode hw boot2
  obtain ⟨s4, step4, boot4⟩ := step_bootTxPower hpa boot3
  exact ⟨s1, s2, s3, s4, step1, boot1.phase, hinit, hlog, step2, boot2.phase, step3, boot3.phase, step4, boot4.phase,
    boot4.bootCompleted hw hp hpa⟩

end Sys2Proof.Machine
end

section
/-! PROOFS of the statements about the link state machine, first part: the sequencer's turn as the phase it is in, the phases
without SPI traffic, interrupt entry and the dispatch of an error (R236, R238, R239, R245 to R248, R251, R309). -/

namespace Sys2Proof.Machine

/-! ### The sequencer's turn (R231) -/

/-- A phase that ends with `Ok` (R231). -/
theorem phaseStep_ok {s t : State} (run : runPhase s = .ok () t) : phaseStep s = .next t := by
  rw [phaseStep, run]

/-- A phase that ends with an error (R251). -/
theorem phaseStep_err {s t : State} {e : OpError} (run : runPhase s = .err e t) :
    phaseStep s = .next (dispatchError e t) := by
  rw [phaseStep, run]

/-- A phase that is refused (R11). -/
theorem phaseStep_refused {s : State} {r : Refusal} (run : runPhase s = .refused r) : phaseStep s = .refused r := by
  rw [phaseStep, run]

/-- A turn that the environment gives to the sequencer is its phase's, whatever the environment will still do (R72, R231). -/
theorem step_quietAt_go {s : State} {ph : Phase} (h : s.quietAt ph) (running : ph ≠ .halt) (es : List Event) :
    step (s.withEnv (.go :: es)) = phaseStep (s.withEnv es) := by
  obtain ⟨rfl, _, awake, noRequest, _⟩ := h
  have turn : nextTurn (s.withEnv (.go :: es)) = .phase (s.withEnv es) := by
    show sequencerTurn (s.withEnv es) = _
    rw [sequencerTurn_awake (s := s.withEnv es) awake running, State.withEnv_request, noRequest]
    rfl
  rw [step, turn]

/-- The environment's choice of an agent's step is that step (R10, R72). -/
theorem step_agent {s : State} {e : Event} {es : List Event} (he : s.env = e :: es) (hgo : e ≠ .go)
    (hexpire : e ≠ .expire) : step s = .next (agentStep e (s.withEnv es)) := by
  simp only [step, nextTurn, he, hgo, hexpire, if_false]

/-- The environment's choice that the wait in progress expires (R301). -/
theorem step_expire {s : State} {es : List Event} (he : s.env = .expire :: es) :
    step s = .next (waitExpires (s.withEnv es)) := by
  simp only [step, nextTurn, he, reduceCtorEq, if_false, if_true]

/-! ### Interrupt entry and error dispatch (R246, R251) -/

/-- An event that finds the detector not armed is discarded (R306). -/
theorem completionEvent_disarmed {s : State} (h : s.armed = false) : completionEvent s = s := by
  simp [completionEvent, completionHandler, h]

/-- `s` woken by the completion event, the direction copied (R245, R246). -/
def State.woken (s : State) : State := { s with armed := false, wakeDir := wakeOfDir s.dir, sleeping := false }

/-- An event wakes a sleeping sequencer (R245, R246). -/
theorem completionEvent_woken {s : State} (running : s.phase.booting = false) (armed : s.armed = true)
    (asleep : s.sleeping = true) :
    completionEvent s = s.woken := by
  simp [completionEvent, completionHandler, running, armed, asleep, State.woken]

/-- `s` with the completion event in the slot and the direction copied (R246). -/
def State.latched (s : State) : State := { s with armed := false, wakeDir := wakeOfDir s.dir, wakeSlot := true }

/-- An event waits in the slot for a sequencer that runs (R246). -/
theorem completionEvent_latched {s : State} (running : s.phase.booting = false) (armed : s.armed = true)
    (awake : s.sleeping = false) :
    completionEvent s = s.latched := by
  simp [completionEvent, completionHandler, running, armed, awake, State.latched]

/-- Settles O45: the cases of the handler, and the copy of each direction. -/
theorem completionEventWakesOrLatches : Obligations.CompletionEventWakesOrLatches := by
  unfold Obligations.CompletionEventWakesOrLatches
  intro s
  refine ⟨fun booting => if_pos booting, fun running => ⟨completionEvent_disarmed, fun w hw => ?_⟩⟩
  have copied : wakeOfDir s.dir = w := by obtain ⟨hd, rfl⟩ | ⟨hd, rfl⟩ | ⟨hd, rfl⟩ := hw <;> rw [hd] <;> rfl
  subst copied
  exact ⟨completionEvent_woken running, completionEvent_latched running⟩

theorem errorTarget_booting {p : Params} {ph : Phase} (h : ph.booting = true) (e : OpError) :
    errorTarget p ph e = .halt := if_pos h

/-- After boot and outside RESYNC the policy of the error's kind decides (R251, R309). -/
theorem errorTarget_policy {p : Params} {ph : Phase} {e : OpError} (running : ph.booting = false) (loop : ph ≠ .resync) :
    (policyOf p.errPolicy e = .restart → errorTarget p ph e = firstPhase p.role) ∧
    (policyOf p.errPolicy e = .resync → errorTarget p ph e = .resync) ∧
    (policyOf p.errPolicy e = .halt → errorTarget p ph e = .halt) := by
  simp only [errorTarget, running, loop, Bool.false_eq_true, if_false]
  exact ⟨fun policy => by rw [policy], fun policy => by rw [policy], fun policy => by rw [policy]⟩

/-- Settles O47: the phase control goes to is `errorTarget`, by the phase the error came from and the policy of its kind. -/
theorem errorDispatchFollowsThePolicy : Obligations.ErrorDispatchFollowsThePolicy := by
  unfold Obligations.ErrorDispatchFollowsThePolicy
  intro e s
  refine ⟨⟨errorTarget s.par s.phase e, rfl, fun booting => errorTarget_booting booting e, fun resync => ?_,
    fun running loop => errorTarget_policy running loop⟩, rfl, rfl, fun _ => rfl, fun _ _ => rfl, fun _ _ => rfl⟩
  rw [resync]
  rfl

/-! ### Suspension (R245) -/

theorem runPhase_waiting {s : State} {ph next : Phase} (hp : s.phase = ph)
    (h : (ph = .sleepWaitRx ∧ next = .drainFifo) ∨ (ph = .sleepWaitTx ∧ next = .sample)) :
    runPhase s = .ok () (suspendCompletion next s) := by
  obtain ⟨rfl, rfl⟩ | ⟨rfl, rfl⟩ := h <;> rw [runPhase, hp] <;> rfl

/-- Settles O48: the two waiting phases are one suspension with different continuations. -/
theorem suspendWakeOrExpire : Obligations.SuspendWakeOrExpire := by
  unfold Obligations.SuspendWakeOrExpire
  intro s
  refine ⟨fun ph next quiet waiting => ?_, fun es he => ?_⟩
  · have running : ph ≠ .halt := by obtain ⟨rfl, _⟩ | ⟨rfl, _⟩ := waiting <;> nofun
    rw [step_quietAt quiet running, phaseStep_ok (runPhase_waiting quiet.1 waiting)]
    refine ⟨fun fresh latched => ?_, fun fresh empty => ?_, fun woken => ?_⟩
    · simp [suspendCompletion, fresh, latched, resumeAt]
    · simp [suspendCompletion, fresh, empty, sleepOn]
    · simp [suspendCompletion, woken, resumeAt]
  · rw [step_expire he]
    refine ⟨fun asleep waiting empty finite => ?_, fun blocked => ?_⟩
    · simp only [waitExpires, State.withEnv, asleep, waiting, empty, finite]; rfl
    · have never : (s.sleeping && decide (s.waitOn = .completion) && !s.wakeSlot && s.par.tWait.isSome) = false := by
        obtain h | h | h | h := blocked <;> simp [h]
      exact congrArg _ (if_neg (Bool.eq_false_iff.mp never))

/-! ### FORWARD, ENCODE and SAMPLE (R236, R238, R239) -/

/-- Settles O56: each phase is one test of the register it reads. -/
theorem forwardAndEncode : Obligations.ForwardAndEncode := by
  unfold Obligations.ForwardAndEncode
  intro s
  refine ⟨fun quiet => ?_, fun quiet => ?_⟩
  · have run : runPhase s = phaseForward s := by rw [runPhase, quiet.1]
    rw [step_quietAt quiet nofun]
    exact ⟨fun written => phaseStep_ok (run.trans (if_pos written)),
      fun unwritten => phaseStep_refused (run.trans (if_neg (by simp [unwritten])))⟩
  · have run : runPhase s = phaseEncode s := by rw [runPhase, quiet.1]
    rw [step_quietAt quiet nofun]
    exact ⟨fun written => ⟨_, _, phaseStep_ok (run.trans (if_pos written)), encodePayload_high_toNat _,
        encodePayload_low_toNat _⟩,
      fun unwritten => phaseStep_refused (run.trans (if_neg (by simp [unwritten])))⟩

theorem tickHandler_eq (s : State) :
    tickHandler s = { s with tickSlot := true, sleeping := if s.waitOn = .tick then false else s.sleeping } := by
  by_cases h : s.waitOn = .tick <;> simp [tickHandler, h]

theorem conversionHandler_eq (s : State) :
    conversionHandler s = { s with sleeping := if s.waitOn = .conversion then false else s.sleeping } := by
  by_cases h : s.waitOn = .conversion <;> simp [conversionHandler, h]

/-- Settles O57: SAMPLE by the wait that has been done and the tick slot, each handler by the wait in progress. -/
theorem sampleWaitsForTickAndConversion : Obligations.SampleWaitsForTickAndConversion := by
  unfold Obligations.SampleWaitsForTickAndConversion
  intro s
  refine ⟨fun quiet => ?_, fun es => ⟨fun he => ?_, fun he => ?_⟩⟩
  · have run : runPhase s = phaseSample s := by rw [runPhase, quiet.1]
    have turn {t : State} (h : phaseSample s = .ok () t) : step s = .next t :=
      (step_quietAt quiet nofun).trans (phaseStep_ok (run.trans h))
    refine ⟨fun fresh noTick => turn ?_, fun fresh tick => turn ?_, fun converted => turn (if_pos converted)⟩
    · simp [phaseSample, fresh, noTick, sleepOn]
    · simp [phaseSample, fresh, tick, sleepOn]
  · rw [step_agent he nofun nofun, agentStep, tickHandler_eq]
    exact ⟨fun waiting => by simp [State.withEnv, waiting], fun other => by simp [State.withEnv, other]⟩
  · rw [step_agent he nofun nofun, agentStep, conversionHandler_eq]
    exact ⟨fun waiting => by simp [State.withEnv, waiting], fun other => by simp [State.withEnv, other]⟩

end Sys2Proof.Machine
end

section
/-! PROOFS of the statements about the link state machine, second part: the checked operations of the sequencer, and the phases
that strobe or read the receive queue while no other agent acts (R232, R233, R235, R240, R249, R252). -/

namespace Sys2Proof.Machine

/-! ### A strobe of the sequencer and the check of its status byte (R170, R252) -/

/-- The sequencer's strobe `n` on the wire at `s`, before its effect at the target (R31, R170): `afterStrobe`, with nothing
returned to a caller. -/
def State.strobed (n : StrobeName) (s : State) : State :=
  let h := strobeByte s.par.strobeCode n true
  { s.afterTxn (statusByte h s) [.byte h (statusByte h s)] with draws := s.draws + 1 }

/-- The header takes effect in `strobed`, but for the wire, which stands as `select` left it (R121, R127). -/
theorem applyStrobe_strobed (n : StrobeName) (s : State) :
    applyStrobe n ((s.openBus.logWire .select).bumpDraws 1) = (applyStrobe n (s.strobed n)).map fun t =>
      t.withWire false .awaitHeader (s.wireLog ++ [.select]) s.lastStatus s.returned :=
  applyStrobe_withWire n (s.strobed n) _ _ _ _ _

/-- After a strobe that the target carries out, `deselect` leaves what its effect makes of `strobed`. -/
theorem strobeEnd_of_strobed {n : StrobeName} {s t : State} (hb : s.busReady = true)
    (hs : applyStrobe n (s.strobed n) = .ok t) :
    ∃ u, applyStrobe n ((s.openBus.logWire .select).bumpDraws 1) = .ok u ∧ strobeEnd n s u = t := by
  obtain ⟨_, hcsn, htdec, _⟩ := (busReady_iff s).mp hb
  have wire := withWire_of_applyStrobe hs
  rw [show (s.strobed n).csn = true from hcsn, show (s.strobed n).tdec = .closed from htdec] at wire
  exact ⟨t.withWire false .awaitHeader (s.wireLog ++ [.select]) s.lastStatus s.returned,
    by rw [applyStrobe_strobed, hs]; rfl, wire⟩

/-- The check of a status byte that shows no error state passes (R252). -/
theorem checked_status_good {h : Byte} {vs : List Byte} {s t : State} (hp : t.par = s.par)
    (hc : isErrorState s.chipState = false) : checked (.ok ⟨statusByte h s, vs⟩ t) = .ok vs t :=
  checked_good (isErrorState_statusByte _ _ _ _ hp hc)

/-- The check of a status byte that shows an error state is ProtocolViolation(STATE) (R252, R303). -/
theorem checked_status_bad {h : Byte} {vs : List Byte} {s t : State} (hp : t.par = s.par) (hcsn : t.csn = true)
    (hc : isErrorState s.chipState = true) :
    checked (.ok ⟨statusByte h s, vs⟩ t) = .err (.protocolViolation .state (statusByte h s)) t :=
  checked_bad hcsn (isErrorState_statusByte _ _ _ _ hp hc)

section
variable {n : StrobeName} {s : State} (hw : s.par.strobeCode.wf = true) (hb : s.busReady = true) (he : s.env = [])
  (hn : admitsStrobe n = true)
include hw hb he hn

/-- A strobe in no error state passes the check of its status byte (R252). -/
theorem checked_strobe_good {t : State} (hs : applyStrobe n (s.strobed n) = .ok t)
    (hc : isErrorState s.chipState = false) : checked (strobe n s) = .ok [] t := by
  obtain ⟨u, opened, closed⟩ := strobeEnd_of_strobed hb hs
  exact checked_strobe_ok hw hb he hn opened hc closed

/-- A strobe in an error state has its effect, and then fails the check of its status byte (R252). -/
theorem checked_strobe_violates {t : State} (hs : applyStrobe n (s.strobed n) = .ok t)
    (hc : isErrorState s.chipState = true) :
    checked (strobe n s) = .err (.protocolViolation .state (statusByte (strobeByte s.par.strobeCode n true) s)) t := by
  obtain ⟨u, opened, closed⟩ := strobeEnd_of_strobed hb hs
  exact checked_strobe_bad hw hb he hn opened hc closed

/-- A strobe that the target refuses (R175, R176). -/
theorem checked_strobe_refused {e : Refusal} (hs : applyStrobe n (s.strobed n) = .error e) :
    checked (strobe n s) = .refused e := by
  have opened := applyStrobe_strobed n s
  rw [hs] at opened
  rw [strobe_quiet_refused hw hb he hn opened]
  rfl

end

/-! ### The flush phases (R232, R240) -/

/-- A phase that is one checked strobe, and then control to the phase `next` (R232, R240). -/
theorem step_strobePhase {n : StrobeName} {ph next : Phase} {s t : State} (quiet : s.quietAt ph) (running : ph ≠ .halt)
    (hw : s.par.strobeCode.wf = true) (hn : admitsStrobe n = true)
    (run : runPhase s = (checked (strobe n s)).andThen fun _ => goto next) (hs : applyStrobe n (s.strobed n) = .ok t) :
    (isErrorState s.chipState = false → step s = .next { t with phase := next }) ∧
    (isErrorState s.chipState = true → step s =
      .next (dispatchError (.protocolViolation .state (statusByte (strobeByte s.par.strobeCode n true) s)) t)) := by
  obtain ⟨_, hb, _, _, he⟩ := id quiet
  rw [step_quietAt quiet running]
  refine ⟨fun good => phaseStep_of_goto run (checked_strobe_good hw hb he hn hs good), fun bad => phaseStep_err ?_⟩
  rw [run, checked_strobe_violates hw hb he hn hs bad]
  rfl

/-- Settles O53: each flush phase is one checked strobe that no chip state refuses. -/
theorem flushPhases : Obligations.FlushPhases := by
  unfold Obligations.FlushPhases
  intro s hw
  exact ⟨fun quiet => step_strobePhase (n := .sfrx) quiet nofun hw rfl (by rw [runPhase, quiet.1]; rfl) rfl,
    fun quiet => step_strobePhase (n := .sftx) quiet nofun hw rfl (by rw [runPhase, quiet.1]; rfl) rfl⟩

/-! ### The flag, the detector and the enter strobe, in that order (R233, R241, R249) -/

/-- The direction flag written, then the detector armed (R244, R249). -/
def State.armedFor (s : State) (d : Dir) : State := armDetector { s with dir := d }

/-- What ARM_RX does, and TRANSMIT once the payload is written: the flag is written and the detector armed, then the strobe
enters the direction (R249). -/
def enter (n : StrobeName) (d : Dir) (next : Phase) (s : State) : OpResult Unit :=
  (checked (strobe n (s.armedFor d))).andThen fun _ => goto next

theorem phaseArmRx_eq_enter (s : State) : phaseArmRx s = enter .srx .rx .sleepWaitRx s := rfl

section
variable {n : StrobeName} {d : Dir} {next : Phase} {s : State}

/-- The bounded wait for the strobe's byte expires: the flag is written and a stale event dropped already (R249, R301). -/
theorem enter_expires {es : List Event} (hn : admitsStrobe n = true) (hb : s.busReady = true)
    (he : s.env = .expire :: es) (ht : s.par.tByte.isSome = true) :
    enter n d next s = .err (.hardwareTimeout .byte)
      { s.armedFor d with wireLog := s.wireLog ++ [.select, .deselect], env := es } := by
  rw [enter, checked_strobe_expires (s := s.armedFor d) hn hb he ht]
  rfl

variable (hw : s.par.strobeCode.wf = true) (hb : s.busReady = true) (hn : admitsStrobe n = true)
include hw hb hn

theorem enter_good {t : State} (he : s.env = [])
    (hs : applyStrobe n ((s.armedFor d).strobed n) = .ok t) (hc : isErrorState s.chipState = false) :
    enter n d next s = .ok () { t with phase := next } := by
  rw [enter, checked_strobe_good (s := s.armedFor d) hw hb he hn hs hc]
  rfl

theorem enter_violates {t : State} (he : s.env = [])
    (hs : applyStrobe n ((s.armedFor d).strobed n) = .ok t) (hc : isErrorState s.chipState = true) :
    enter n d next s = .err (.protocolViolation .state (statusByte (strobeByte s.par.strobeCode n true) s)) t := by
  rw [enter, checked_strobe_violates (s := s.armedFor d) hw hb he hn hs hc]
  rfl

theorem enter_refused {e : Refusal} (he : s.env = [])
    (hs : applyStrobe n ((s.armedFor d).strobed n) = .error e) :
    enter n d next s = .refused e := by
  rw [enter, checked_strobe_refused (s := s.armedFor d) hw hb he hn hs]
  rfl

/-- One step of another agent while the strobe's byte is awaited, which finds the detector armed: the strobe acts on what that
step left (R66, R249). -/
theorem enter_event {e : Event} {t u : State} (he : s.env = [e]) (hgo : e ≠ .go) (hexpire : e ≠ .expire)
    (hstall : e ≠ .stall) (hu : agentStep e ((s.withEnv []).armedFor d) = u)
    (hs : applyStrobe n (u.strobed n) = .ok t) (hc : isErrorState u.chipState = false) :
    enter n d next s = .ok () { t with phase := next } := by
  have ready : u.busReady = true := by rw [← hu]; exact agentStep_busReady hb
  obtain ⟨v, opened, closed⟩ := strobeEnd_of_strobed ready hs
  rw [enter, checked_strobe_event (s := s.armedFor d) hw hb he hgo hexpire hstall hn hu opened hc,
    closed]
  rfl

end

/-! ### The rows of the enter strobes (R175, R176, R184) -/

section
variable {s : State}

theorem applyStrobe_srx_idle (h : s.chipState = .idle) :
    applyStrobe .srx s = .ok { s with chipState := .settling, goal := .toRx, swapUsed := false } := by
  simp only [applyStrobe, strobeSrx, h]

theorem applyStrobe_stx_idle (h : s.chipState = .idle) :
    applyStrobe .stx s = .ok { s with chipState := .settling, goal := .toTx, swapUsed := false } := by
  simp only [applyStrobe, strobeStx, h]

theorem applyStrobe_srx_moving (h : isTransitional s.chipState = true) (hg : s.goal ≠ .toTx) :
    applyStrobe .srx s = .ok { s with goal := .toRx, swapUsed := false } :=
  (strobeSrx_transitional h).trans (if_neg hg)

theorem applyStrobe_stx_moving (h : isTransitional s.chipState = true) (hg : s.goal ≠ .toRx) :
    applyStrobe .stx s = .ok { s with goal := .toTx, swapUsed := false } :=
  (strobeStx_transitional h).trans (if_neg hg)

theorem applyStrobe_srx_rx (h : s.chipState = .rx) : applyStrobe .srx s = .ok s := by
  simp only [applyStrobe, strobeSrx, h]

theorem applyStrobe_stx_tx (h : s.chipState = .tx) : applyStrobe .stx s = .ok s := by
  simp only [applyStrobe, strobeStx, h]

theorem applyStrobe_srx_error (h : isErrorState s.chipState = true) : applyStrobe .srx s = .ok s := strobeSrx_error h

/-- SRX during a TX operation, or in FSTXON. -/
theorem applyStrobe_srx_refused
    (h : s.chipState = .tx ∨ s.chipState = .fstxon ∨ (isTransitional s.chipState = true ∧ s.goal = .toTx)) :
    applyStrobe .srx s = .error .concurrentStrobe := by
  obtain tx | fstxon | ⟨moving, goal⟩ := h
  · simp only [applyStrobe, strobeSrx, tx]
  · simp only [applyStrobe, strobeSrx, fstxon]
  · exact (strobeSrx_transitional moving).trans (if_pos goal)

/-- STX during an RX operation, or in FSTXON. -/
theorem applyStrobe_stx_refused
    (h : s.chipState = .rx ∨ s.chipState = .fstxon ∨ (isTransitional s.chipState = true ∧ s.goal = .toRx)) :
    applyStrobe .stx s = .error .concurrentStrobe := by
  obtain rx | fstxon | ⟨moving, goal⟩ := h
  · simp only [applyStrobe, strobeStx, rx]
  · simp only [applyStrobe, strobeStx, fstxon]
  · exact (strobeStx_transitional moving).trans (if_pos goal)

end

theorem isErrorState_of_transitional {c : ChipState} (h : isTransitional c = true) : isErrorState c = false := by
  obtain rfl | rfl := isTransitional_cases h <;> rfl

/-! ### The ends of an operation (R282, R283) -/

/-- `s` with the packet `p` received, before the completion event (R282). -/
def State.received (s : State) (p : List Byte) : State := { s with rxfifo := s.rxfifo ++ p, chipState := .idle }

/-- The end of an RX operation with a good packet that finds room. -/
theorem rxDone_taken {p : List Byte} {s : State} (rx : s.chipState = .rx) (len : p.length = Config.pktLen)
    (room : s.rxfifo.length + Config.pktLen ≤ s.par.fifoDepth) : rxDone p true s = completionEvent (s.received p) := by
  rw [rxDone, if_pos ⟨rx, len⟩, if_pos (Bool.true_or _), if_neg (by omega)]
  rfl

/-- Settles O54: ARM_RX is `enter` with the row of SRX for the chip state; the last two clauses are `enter` with the
environment's choice made while the strobe's byte is awaited. -/
theorem armRxArmsThenStrobes : Obligations.ArmRxArmsThenStrobes := by
  unfold Obligations.ArmRxArmsThenStrobes
  intro s hw quiet h t
  obtain ⟨hphase, hb, awake, _, he⟩ := id quiet
  have run (es : List Event) : runPhase (s.withEnv es) = enter .srx .rx .sleepWaitRx (s.withEnv es) := by
    rw [runPhase, State.withEnv_phase, hphase]; rfl
  have same : s.withEnv [] = s := State.withEnv_nil he
  have turn {x : OpResult Unit} (h : enter .srx .rx .sleepWaitRx s = x) : runPhase s = x := by
    rw [← h, ← same]; exact run []
  have taken {u v : State} (hs : applyStrobe .srx ((s.armedFor .rx).strobed .srx) = .ok u)
      (good : isErrorState s.chipState = false) (hv : { u with phase := .sleepWaitRx } = v) : phaseStep s = .next v := by
    rw [phaseStep_ok (turn (enter_good hw hb rfl he hs good)), hv]
  rw [step_quietAt quiet nofun]
  refine ⟨fun idle => taken (applyStrobe_srx_idle idle) (by rw [idle]; rfl) rfl,
    fun rx => taken (applyStrobe_srx_rx rx) (by rw [rx]; rfl) rfl,
    fun moving goal => taken (applyStrobe_srx_moving moving goal) (isErrorState_of_transitional moving) rfl,
    fun error => phaseStep_err (turn (enter_violates hw hb rfl he (applyStrobe_srx_error error) error)),
    fun other => phaseStep_refused (turn (enter_refused hw hb rfl he (applyStrobe_srx_refused other))),
    fun finite es => ?_, fun rx room b0 b1 => ?_⟩
  · rw [step_quietAt_go quiet nofun,
      phaseStep_err ((run _).trans (enter_expires (s := s.withEnv (.expire :: es)) rfl hb rfl finite))]
    rfl
  · have event : agentStep (.rxDone [b0, b1] true) (s.armedFor .rx) = ((s.armedFor .rx).received [b0, b1]).latched :=
      (rxDone_taken (s := s.armedFor .rx) rx rfl room).trans
        (completionEvent_latched (congrArg Phase.booting hphase) rfl awake)
    rw [← same] at event
    rw [step_quietAt_go quiet nofun, phaseStep_ok ((run _).trans (enter_event (s := s.withEnv [.rxDone [b0, b1] true])
      hw hb rfl rfl nofun nofun nofun event (applyStrobe_srx_idle rfl) rfl)), same]
    rfl

end Sys2Proof.Machine
end

section
/-! PROOFS of the statements about the link state machine, third part: a transaction in which the environment lets every byte
through (`go`) does what it does while no other agent acts (R66, R72, R123). -/

namespace Sys2Proof.Machine

/-! ### The target does not look at the environment's choices (R66) -/

theorem applyStrobe_withEnv (n : StrobeName) (s : State) (es : List Event) :
    applyStrobe n (s.withEnv es) = (applyStrobe n s).map fun t => t.withEnv es := by
  cases n with
  | sres | sfrx | sftx | snop | sfstxon | sxoff | swor | spwd | sworrst => rfl
  | scal =>
    by_cases idle : s.chipState = .idle <;>
      simp only [applyStrobe, strobeScal, State.withEnv, Except.map, idle, if_true, if_false]
  | sidle =>
    by_cases still : s.chipState = .idle ∨ isErrorState s.chipState = true <;>
      simp only [applyStrobe, strobeSidle, State.withEnv, Except.map, still, if_true, if_false]
  | srx | stx =>
    cases hc : s.chipState with
    | calibrate | settling =>
      simp only [applyStrobe, strobeSrx, strobeStx, State.withEnv, hc]
      split <;> rfl
    | idle | rx | tx | fstxon | rxOverflow | txUnderflow =>
      simp only [applyStrobe, strobeSrx, strobeStx, State.withEnv, hc, Except.map]

theorem readByte_withEnv (a : Nat) (s : State) (es : List Event) :
    readByte a (s.withEnv es) = ((readByte a s).1, (readByte a s).2.withEnv es) := by
  by_cases ha : a = fifoAddr
  · subst ha
    cases h : s.rxfifo with
    | nil => rw [readByte_fifo_nil h, readByte_fifo_nil (s := s.withEnv es) h]; rfl
    | cons v q => rw [readByte_fifo_cons h, readByte_fifo_cons (s := s.withEnv es) h]; rfl
  · cases h : s.mem.read a with
    | none => rw [readByte_unwritten ha h, readByte_unwritten (s := s.withEnv es) ha h]; rfl
    | some v => rw [readByte_stored ha h, readByte_stored (s := s.withEnv es) ha h]

theorem statusReg_withEnv (a : Nat) (s : State) (es : List Event) :
    statusReg a (s.withEnv es) = ((statusReg a s).1, (statusReg a s).2.withEnv es) := by
  by_cases ha : a = s.par.rxbytesAddr
  · rw [statusReg_rxbytes ha, statusReg_rxbytes (s := s.withEnv es) ha]; rfl
  · rw [statusReg_other ha, statusReg_other (s := s.withEnv es) ha]; rfl

theorem writeByte_withEnv (a : Nat) (b : Byte) (s : State) (es : List Event) :
    writeByte a b (s.withEnv es) = (writeByte a b s).map fun t => t.withEnv es := by
  by_cases ha : a = fifoAddr
  · subst ha
    by_cases room : s.txfifo.length < s.par.fifoDepth
    · rw [writeByte_fifo room, writeByte_fifo (s := s.withEnv es) room]; rfl
    · have full := Nat.not_lt.mp room
      rw [writeByte_full full, writeByte_full (s := s.withEnv es) full]; rfl
  · rw [writeByte_mem ha, writeByte_mem ha]; rfl

theorem exchangeHeader_withEnv (b : Byte) (s : State) (es : List Event) :
    exchangeHeader b (s.withEnv es) = (exchangeHeader b s).map fun p => (p.1, p.2.withEnv es) := by
  have bumped : (s.withEnv es).bumpDraws 1 = (s.bumpDraws 1).withEnv es := rfl
  simp only [exchangeHeader, State.withEnv_par, bumped, applyStrobe_withEnv]
  cases decodeHeader s.par.strobeCode b with
  | reserved | statusRead a | access k a => rfl
  | strobe n r => dsimp only; cases applyStrobe n (s.bumpDraws 1) <;> rfl

theorem exchangeData_withEnv (k : TxnKind) (a n : Nat) (b : Byte) (s : State) (es : List Event) :
    exchangeData k a n b (s.withEnv es) = (exchangeData k a n b s).map fun p => (p.1, p.2.withEnv es) := by
  cases k with
  | rs | rb => simp only [exchangeData, readByte_withEnv]; rfl
  | sr => simp only [exchangeData, statusReg_withEnv]; rfl
  | ws | wb => simp only [exchangeData, writeByte_withEnv]; cases writeByte a b s <;> rfl

theorem targetExchange_withEnv (b : Byte) (s : State) (es : List Event) :
    targetExchange b (s.withEnv es) = (targetExchange b s).map fun p => (p.1, p.2.withEnv es) := by
  simp only [targetExchange, State.withEnv_tdec]
  cases s.tdec with
  | closed | done => rfl
  | awaitHeader => exact exchangeHeader_withEnv b s es
  | data k c n =>
    match c with
    | .at a => exact exchangeData_withEnv k a n b s es
    | .pastEnd => rfl

/-! ### A transaction whose bytes are let through (R123, R125) -/

/-- The choices that let `n` bytes through, before the choices `es`. -/
def gos (n : Nat) (es : List Event) : List Event := List.replicate n .go ++ es

/-- Each byte's wait is ended by a `go`. -/
theorem exchangeBytes_gos (es : List Event) : ∀ (bs vs : List Byte) (s t : State), s.env = [] →
    exchangeBytes bs s = .ok vs t →
    t.env = [] ∧ exchangeBytes bs (s.withEnv (gos bs.length es)) = .ok vs (t.withEnv es) := by
  intro bs
  induction bs with
  | nil =>
    intro vs s t he h
    cases h
    exact ⟨he, rfl⟩
  | cons b bs ih =>
    intro vs s t he h
    cases hx : targetExchange b s with
    | error r => rw [exchangeBytes_refused he hx] at h; cases h
    | ok p =>
      obtain ⟨v, u⟩ := p
      have hx' : targetExchange b ((s.withEnv (gos (b :: bs).length es)).withEnv (gos bs.length es)) =
          .ok (v, u.withEnv (gos bs.length es)) := by
        show targetExchange b (s.withEnv _) = _
        rw [targetExchange_withEnv, hx]
        rfl
      rw [exchangeBytes_quiet he hx] at h
      rw [exchangeBytes_go rfl hx']
      cases hr : exchangeBytes bs (u.logWire (.byte b v)) with
      | ok ws w =>
        rw [hr] at h
        cases h
        obtain ⟨hte, rest⟩ := ih ws (u.logWire (.byte b v)) t ((targetExchange_bus hx).2.trans he) hr
        exact ⟨hte, congrArg (·.andThen fun vs w => .ok (v :: vs) w) rest⟩
      | err e w => rw [hr] at h; cases h
      | refused r => rw [hr] at h; cases h
      | stuck f => rw [hr] at h; cases h

theorem deselect_withEnv {s t : State} (h : deselect s = .ok () t) (es : List Event) :
    deselect (s.withEnv es) = .ok () (t.withEnv es) := by
  unfold deselect at h
  split at h
  · split at h
    · cases h
    · rename_i hi hc
      cases h
      exact (if_pos hi).trans (if_neg hc)
  · cases h

/-- An operation that returns `Ok` while no other agent acts returns the same when the environment lets every byte through, and
then the `deselect`; what it would do later is left (R66, R72). -/
theorem operation_gos {keep : Bool} {tx : List Byte} {s t : State} {r : Reply} (es : List Event) (hb : s.busReady = true)
    (he : s.env = []) (h : operation keep tx s = .ok r t) :
    operation keep tx (s.withEnv (gos tx.length (.go :: es))) = .ok r (t.withEnv es) := by
  have hb' : (s.withEnv (gos tx.length (.go :: es))).busReady = true := hb
  obtain ⟨hi, _, _, _⟩ := (busReady_iff s).mp hb
  have htx : tx ≠ [] := by
    rintro rfl
    simp [operation, transact, select_ready hb, OpResult.andThen, exchange, hi] at h
  have opened : exchange tx (s.openBus.logWire .select) = exchangeBytes tx (s.openBus.logWire .select) := by
    simp [exchange, hi, htx]
  have opened' : exchange tx ((s.withEnv (gos tx.length (.go :: es))).openBus.logWire .select) =
      exchangeBytes tx ((s.openBus.logWire .select).withEnv (gos tx.length (.go :: es))) := by
    simp [exchange, hi, htx]
    rfl
  simp only [operation, transact, select_ready hb, OpResult.andThen, opened] at h
  simp only [operation, transact, select_ready hb', OpResult.andThen, opened']
  cases hx : exchangeBytes tx (s.openBus.logWire .select) with
  | ok vs u =>
    obtain ⟨hue, hx'⟩ := exchangeBytes_gos (.go :: es) tx vs (s.openBus.logWire .select) u he hx
    have hd : deselect (agentsAct u.env u) = deselect u := by rw [hue, agentsAct, State.withEnv_nil hue]
    have hd' : deselect (agentsAct (.go :: es) (u.withEnv (.go :: es))) = deselect (u.withEnv es) := rfl
    rw [hx] at h
    simp only [hd] at h
    simp only [hx', State.withEnv_env, hd']
    cases hdu : deselect u with
    | ok a w =>
      rw [hdu] at h
      rw [deselect_withEnv hdu]
      cases vs with
      | nil => cases h
      | cons st vs => cases h; rfl
    | err e w => rw [hdu] at h; cases h
    | refused r => rw [hdu] at h; cases h
    | stuck f => rw [hdu] at h; cases h
  | err e w => rw [hx] at h; cases h
  | refused r => rw [hx] at h; cases h
  | stuck f => rw [hx] at h; cases h

end Sys2Proof.Machine
end

section
/-! PROOFS of the statements about the link state machine, fourth part: DRAIN_FIFO and TRANSMIT (R235, R241). -/

namespace Sys2Proof.Machine

/-! ### DRAIN_FIFO (R235) -/

/-- What the conditions on the parameters say of the FIFO depth and of the RX byte count's address (R7). -/
theorem params_wf_fifo {p : Params} (hw : p.wf = true) :
    2 ≤ p.fifoDepth ∧ p.fifoDepth ≤ 255 ∧ 0x30 ≤ p.rxbytesAddr ∧ p.rxbytesAddr ≤ 0x3D := by
  simp only [Params.wf, Bool.and_eq_true, decide_eq_true_eq] at hw
  obtain ⟨⟨⟨⟨⟨⟨_, two⟩, depth⟩, _⟩, _⟩, low⟩, high⟩ := hw
  exact ⟨two, depth, low, high⟩

/-- The count read of DRAIN_FIFO on the wire (R24, R147). -/
def State.counted (s : State) : State :=
  let h := header s.par.rxbytesAddr kBurstRead
  { s.afterTxn (statusByte h s)
      [.byte h (statusByte h s), .byte s.par.dummy (BitVec.ofNat 8 s.rxfifo.length)] with draws := s.draws + 1 }

/-- The read of the RX byte count (R24, R147). -/
theorem burstRead_rxbytes_quiet {s : State} (hw : s.par.wf = true) (hb : s.busReady = true) (he : s.env = []) :
    burstRead s.par.rxbytesAddr 1 s =
      .ok ⟨statusByte (header s.par.rxbytesAddr kBurstRead) s, [BitVec.ofNat 8 s.rxfifo.length]⟩ s.counted := by
  obtain ⟨_, _, low, high⟩ := params_wf_fifo hw
  have register : statusReg s.par.rxbytesAddr (s.bumpDraws 1) = (BitVec.ofNat 8 s.rxfifo.length, s.bumpDraws 1) :=
    statusReg_rxbytes rfl
  rw [readStatusReg_quiet hb he (by simp [isStatus, low, high]), register]
  rfl

/-- DRAIN_FIFO in no error state goes on with the count (R235, R252). -/
theorem phaseDrainFifo_good {s : State} (hw : s.par.wf = true) (hb : s.busReady = true) (he : s.env = [])
    (hc : isErrorState s.chipState = false) :
    phaseDrainFifo s =
      drainCount (BitVec.ofNat 8 s.rxfifo.length)
        { s.counted with rxcount := Datum.of (BitVec.ofNat 8 s.rxfifo.length) } := by
  rw [phaseDrainFifo, burstRead_rxbytes_quiet hw hb he, checked_status_good (s := s) (t := s.counted) rfl hc]
  rfl

/-- DRAIN_FIFO in an error state ends before the count is looked at (R307 (b)). -/
theorem phaseDrainFifo_bad {s : State} (hw : s.par.wf = true) (hb : s.busReady = true) (he : s.env = [])
    (hc : isErrorState s.chipState = true) :
    phaseDrainFifo s =
      .err (.protocolViolation .state (statusByte (header s.par.rxbytesAddr kBurstRead) s)) s.counted := by
  obtain ⟨_, hcsn, _, _⟩ := (busReady_iff s).mp hb
  rw [phaseDrainFifo, burstRead_rxbytes_quiet hw hb he, checked_status_bad (s := s) (t := s.counted) rfl hcsn hc]
  rfl

/-- A count that `MAX_PKT_LEN` admits has the two bytes read, and handed to FORWARD as the payload: `s` is the state in which
the count is known, `t` the one after the read (R235). -/
theorem drainCount_fetch {c b0 b1 : Byte} {s t : State} (hm : c.toNat ≤ s.par.maxPktLen) (hz : c ≠ 0)
    (hc : isErrorState s.chipState = false)
    (hr : burstRead fifoAddr 2 s = .ok ⟨statusByte (header fifoAddr kBurstRead) s, [b0, b1]⟩ t) (hp : t.par = s.par) :
    drainCount c s = .ok () { t with payload := Datum.of (b0, b1), phase := .forward } := by
  rw [drainCount, if_neg (Nat.not_lt.mpr hm), if_neg hz, hr, checked_status_good hp hc]
  rfl

/-- Settles O55: the check of the count read's status byte, then the three ranges of the count. -/
theorem drainFifoReadsOnePacket : Obligations.DrainFifoReadsOnePacket := by
  unfold Obligations.DrainFifoReadsOnePacket
  intro s quiet hw hd h h2 c u t
  obtain ⟨hphase, hb, _, _, he⟩ := id quiet
  obtain ⟨two, depth, _, _⟩ := params_wf_fifo hw
  have run : runPhase s = phaseDrainFifo s := by rw [runPhase, hphase]
  rw [step_quietAt quiet nofun]
  refine ⟨fun bad => phaseStep_err (run.trans (phaseDrainFifo_bad hw hb he bad)), fun good => ?_⟩
  have count : c.toNat = s.rxfifo.length := by
    rw [BitVec.toNat_ofNat, Nat.mod_eq_of_lt (by omega)]
  have counted : runPhase s = drainCount c t := run.trans (phaseDrainFifo_good hw hb he good)
  have fetched := burstRead_fifo_quiet (s := t) (n := 2) hb he (by omega) two
  have nonzero (some : 0 < s.rxfifo.length) : c ≠ 0 := by
    intro zero
    rw [zero] at count
    exact absurd count some.ne
  refine ⟨fun large => phaseStep_err ?_, fun empty => phaseStep_ok ?_, fun b0 b1 q queue fits => phaseStep_ok ?_,
    fun b0 queue fits => phaseStep_ok ?_⟩
  · obtain ⟨_, hcsn, _, _⟩ := (busReady_iff s).mp hb
    rw [counted, drainCount, if_pos (by rw [count]; exact large)]
    exact raiseError_deselected _ hcsn
  · have zero : c = 0 := by rw [← BitVec.toNat_inj, count, empty]; rfl
    rw [counted, drainCount, if_neg (by rw [count, empty]; exact Nat.not_lt_zero _), if_pos zero]
    rfl
  · rw [show t.rxfifo = b0 :: b1 :: q from queue,
      show 2 - (b0 :: b1 :: q).length = 0 by simp only [List.length_cons]; omega] at fetched
    rw [counted, drainCount_fetch (s := t) (by rw [count]; exact fits) (nonzero (by simp [queue])) good fetched rfl]
    rfl
  · rw [show t.rxfifo = [b0] from queue] at fetched
    rw [counted, drainCount_fetch (s := t) (by rw [count, queue]; exact fits) (nonzero (by simp [queue])) good
      fetched rfl]
    rfl

/-! ### TRANSMIT (R241) -/

/-- The payload `hi`, `lo` written to the TX FIFO (R143, R241). -/
def State.appended (s : State) (hi lo : Byte) : State :=
  let h := header fifoAddr kBurstWrite
  { s.afterTxn (statusByte h s)
      [.byte h (statusByte h s), .byte hi (Config.drawByte (s.draws + 1)), .byte lo (Config.drawByte (s.draws + 2))] with
    txfifo := s.txfifo ++ [hi, lo], draws := s.draws + 3 }

/-- The payload's burst write finds room for its two bytes (R152). -/
theorem burstWrite_payload_quiet {hi lo : Byte} {s : State} (hb : s.busReady = true) (he : s.env = [])
    (room : s.txfifo.length + 2 ≤ s.par.fifoDepth) :
    burstWrite fifoAddr [hi, lo] s = .ok ⟨statusByte (header fifoAddr kBurstWrite) s, []⟩ (s.appended hi lo) :=
  burstWrite_fifo_quiet (vs := [hi, lo]) hb he (Nat.le_add_left 1 1) room

/-- The same with the environment's choices made for the header, the two bytes and the time up to `deselect` (R66). -/
theorem burstWrite_payload_gos {hi lo : Byte} {s : State} (hb : s.busReady = true) (he : s.env = [])
    (room : s.txfifo.length + 2 ≤ s.par.fifoDepth) (es : List Event) :
    burstWrite fifoAddr [hi, lo] (s.withEnv (.go :: .go :: .go :: .go :: es)) =
      .ok ⟨statusByte (header fifoAddr kBurstWrite) s, []⟩ ((s.appended hi lo).withEnv es) := by
  have admitted : admitsBurstWrite s fifoAddr [hi, lo].length = true := by
    simp [admitsBurstWrite, room]
  have quiet := burstWrite_payload_quiet (hi := hi) (lo := lo) hb he room
  rw [burstWrite, if_pos admitted] at quiet
  exact (if_pos admitted).trans (operation_gos es hb he quiet)

section
variable {s : State} {hi lo : Byte} (hp : s.payload = Datum.of (hi, lo))
include hp

/-- TRANSMIT with a payload: the burst write, its check, then `enter`. -/
theorem phaseTransmit_written : phaseTransmit s =
    (checked (burstWrite fifoAddr [hi, lo] s)).andThen fun _ => enter .stx .tx .sleepWaitTx := by
  rw [phaseTransmit, hp]
  rfl

theorem phaseTransmit_full (full : s.par.fifoDepth < s.txfifo.length + 2) :
    phaseTransmit s = .refused .notAdmitted := by
  have refused : burstWrite fifoAddr [hi, lo] s = .refused .notAdmitted :=
    if_neg (by simp [admitsBurstWrite, isCfg, fifoAddr, full])
  rw [phaseTransmit_written hp, refused]
  rfl

variable (hb : s.busReady = true) (he : s.env = []) (room : s.txfifo.length + 2 ≤ s.par.fifoDepth)
include hb he room

theorem phaseTransmit_good (hc : isErrorState s.chipState = false) :
    phaseTransmit s = enter .stx .tx .sleepWaitTx (s.appended hi lo) := by
  rw [phaseTransmit_written hp, burstWrite_payload_quiet hb he room,
    checked_status_good (s := s) (t := s.appended hi lo) rfl hc]
  rfl

/-- In an error state TRANSMIT ends before the flag is written (R252). -/
theorem phaseTransmit_bad (hc : isErrorState s.chipState = true) :
    phaseTransmit s =
      .err (.protocolViolation .state (statusByte (header fifoAddr kBurstWrite) s)) (s.appended hi lo) := by
  obtain ⟨_, hcsn, _, _⟩ := (busReady_iff s).mp hb
  rw [phaseTransmit_written hp, burstWrite_payload_quiet hb he room,
    checked_status_bad (s := s) (t := s.appended hi lo) rfl hcsn hc]
  rfl

/-- The environment lets the burst write through, and leaves the choices `es` to the strobe. -/
theorem phaseTransmit_gos (hc : isErrorState s.chipState = false) (es : List Event) :
    phaseTransmit (s.withEnv (.go :: .go :: .go :: .go :: es)) =
      enter .stx .tx .sleepWaitTx ((s.appended hi lo).withEnv es) := by
  rw [phaseTransmit_written (s := s.withEnv (.go :: .go :: .go :: .go :: es)) hp, burstWrite_payload_gos hb he room,
    checked_status_good (s := s) (t := (s.appended hi lo).withEnv es) rfl hc]
  rfl

end

/-- The end of a TX operation, before the completion event (R283). -/
def State.transmitted (s : State) : State :=
  { s with txfifo := s.txfifo.drop 2, chipState := .idle, airOut := s.airOut ++ [s.txfifo.take 2] }

theorem txDone_sent {s : State} (tx : s.chipState = .tx) (packet : 2 ≤ s.txfifo.length) :
    txDone s = completionEvent s.transmitted := by
  have enabled : txDoneEnabled s = true := by simp [txDoneEnabled, tx, Config.pktLen, packet]
  rw [txDone, if_pos enabled]
  rfl

/-- Settles O58: the payload's burst write, then `enter` with the row of STX for the chip state; the last two clauses let the
burst write through and make the environment's next choice while the strobe's byte is awaited. -/
theorem transmitWritesArmsThenStrobes : Obligations.TransmitWritesArmsThenStrobes := by
  unfold Obligations.TransmitWritesArmsThenStrobes
  intro s hw quiet
  obtain ⟨hphase, hb, awake, _, he⟩ := id quiet
  have run : runPhase s = phaseTransmit s := by rw [runPhase, hphase]
  rw [step_quietAt quiet nofun]
  refine ⟨fun unwritten => phaseStep_refused (run.trans (if_neg (by simp [unwritten]))),
    fun hi lo payload => ⟨fun full => phaseStep_refused (run.trans (phaseTransmit_full payload full)), fun room => ?_⟩⟩
  intro h h2 u t
  have hbu : (s.appended hi lo).busReady = true := hb
  have entered (good : isErrorState s.chipState = false) : runPhase s = enter .stx .tx .sleepWaitTx u :=
    run.trans (phaseTransmit_good payload hb he room good)
  have taken {v w : State} (hs : applyStrobe .stx ((u.armedFor .tx).strobed .stx) = .ok v)
      (good : isErrorState s.chipState = false) (hv : { v with phase := .sleepWaitTx } = w) : phaseStep s = .next w := by
    rw [phaseStep_ok ((entered good).trans (enter_good (s := u) hw hbu rfl he hs good)), hv]
  have later (good : isErrorState s.chipState = false) (es : List Event) :
      runPhase (s.withEnv (.go :: .go :: .go :: .go :: es)) = enter .stx .tx .sleepWaitTx (u.withEnv es) := by
    rw [runPhase, State.withEnv_phase, hphase]
    exact phaseTransmit_gos payload hb he room good es
  refine ⟨fun idle => taken (applyStrobe_stx_idle idle) (by rw [idle]; rfl) rfl,
    fun tx => taken (applyStrobe_stx_tx tx) (by rw [tx]; rfl) rfl,
    fun moving goal => taken (applyStrobe_stx_moving moving goal) (isErrorState_of_transitional moving) rfl,
    fun bad => phaseStep_err (run.trans (phaseTransmit_bad payload hb he room bad)), fun other => ?_,
    fun finite good es => ?_, fun tx => ?_⟩
  · have good : isErrorState s.chipState = false := by
      obtain rx | fstxon | ⟨moving, _⟩ := other
      · rw [rx]; rfl
      · rw [fstxon]; rfl
      · exact isErrorState_of_transitional moving
    exact phaseStep_refused ((entered good).trans (enter_refused (s := u) hw hbu rfl he (applyStrobe_stx_refused other)))
  · rw [step_quietAt_go quiet nofun, phaseStep_err ((later good _).trans
      (enter_expires (s := u.withEnv (.expire :: es)) rfl hbu rfl finite))]
    rfl
  · have good : isErrorState s.chipState = false := by rw [tx]; rfl
    have packet : 2 ≤ (u.armedFor .tx).txfifo.length := by
      show 2 ≤ (s.txfifo ++ [hi, lo]).length
      simp
    have event : agentStep .txDone (u.armedFor .tx) = ((u.armedFor .tx).transmitted).latched :=
      (txDone_sent (s := u.armedFor .tx) tx packet).trans
        (completionEvent_latched (congrArg Phase.booting hphase) rfl awake)
    rw [← State.withEnv_nil (s := u) he] at event
    intro v
    rw [step_quietAt_go quiet nofun, phaseStep_ok ((later good _).trans (enter_event (s := u.withEnv [.txDone])
      hw hbu rfl rfl nofun nofun nofun event (applyStrobe_stx_idle rfl) rfl)), State.withEnv_nil (s := u) he]
    rfl

end Sys2Proof.Machine
end

section
/-! PROOFS of the statements about the link state machine, fifth part: the loops put only their own headers on the wire, and as
long as they do, memory and the ready line are spared (R256). -/

namespace Sys2Proof.Machine

/-! ### The headers of a wire log (R49, R90) -/

/-- More of the log takes no header away. -/
theorem headersSent_append_subset (l m : List WireEvent) : headersSent l ⊆ headersSent (l ++ m) := by
  induction l using headersSent.induct with
  | case1 h r l ih => exact List.cons_subset_cons h ih
  | case2 e l other ih =>
    cases e with
    | deselect | byte b r => exact ih
    | select =>
      cases l with
      | nil => exact List.nil_subset _
      | cons f l =>
        cases f with
        | select | deselect => exact ih
        | byte b r => exact absurd rfl (other b r l rfl)
  | case3 => exact List.nil_subset _

/-- A `select` begins a new transaction, whatever the log ends with. -/
theorem headersSent_append_select (l m : List WireEvent) :
    headersSent (l ++ .select :: m) = headersSent l ++ headersSent (.select :: m) := by
  induction l using headersSent.induct with
  | case1 h r l ih => exact congrArg (h :: ·) ih
  | case2 e l other ih =>
    cases e with
    | deselect | byte b r => exact ih
    | select =>
      cases l with
      | nil => rfl
      | cons f l =>
        cases f with
        | select | deselect => exact ih
        | byte b r => exact absurd rfl (other b r l rfl)
  | case3 => rfl

/-- One transaction has one header, the first byte sent, if it has a byte at all. -/
theorem headersSent_transaction (l : List (Byte × Byte)) :
    headersSent (.select :: l.map (fun e => .byte e.1 e.2) ++ [.deselect]) = (l.map (·.1)).head?.toList := by
  have bytes : ∀ l : List (Byte × Byte), headersSent (l.map (fun e => .byte e.1 e.2) ++ [.deselect]) = [] := by
    intro l
    induction l with
    | nil => rfl
    | cons e l ih => exact ih
  cases l with
  | nil => rfl
  | cons e l => exact congrArg (e.1 :: ·) (bytes l)

/-! ### What a header of the loops does at the target (R256) -/

/-- What the headers of the loops select at the target (R256): the five strobes of the loops, a burst at the FIFO address, the
read of the RX byte count. -/
def loopKinds (p : Params) : List HeaderKind :=
  [.strobe .sfrx true, .strobe .srx true, .strobe .sftx true, .strobe .stx true, .strobe .sidle true, .access .rb 0x3F,
    .access .wb 0x3F, .statusRead p.rxbytesAddr]

/-- `h` is a header of the loops. -/
def LoopHeader (p : Params) (h : Byte) : Prop := decodeHeader p.strobeCode h ∈ loopKinds p

/-- Memory and a ready target are as they were in `s`, and the bytes still to come of an access that stores them go to the
transmit queue. -/
structure Spared (s t : State) : Prop where
  mem : t.mem = s.mem
  ready : s.ready = true → t.ready = true
  decoder : ∀ k a n, t.tdec = .data k (.at a) n → StoresBytes k → a = fifoAddr

/-- Every strobe but the reset strobe leaves memory and the ready line alone (R173 to R182). -/
theorem applyStrobe_spares {n : StrobeName} {s t : State} (hn : n ≠ .sres) (h : applyStrobe n s = .ok t) :
    t.mem = s.mem ∧ t.ready = s.ready := by
  cases n <;> simp only [applyStrobe, Except.ok.injEq, reduceCtorEq] at h
  case sres => exact absurd rfl hn
  case scal => subst h; unfold strobeScal; split <;> exact ⟨rfl, rfl⟩
  case sidle => subst h; unfold strobeSidle; split <;> exact ⟨rfl, rfl⟩
  case sfrx | sftx | snop => subst h; exact ⟨rfl, rfl⟩
  case srx =>
    unfold strobeSrx at h
    split at h <;> try split at h
    all_goals cases h
    all_goals exact ⟨rfl, rfl⟩
  case stx =>
    unfold strobeStx at h
    split at h <;> try split at h
    all_goals cases h
    all_goals exact ⟨rfl, rfl⟩

theorem exchangeHeader_strobe {n : StrobeName} {r : Bool} {b v : Byte} {s t : State}
    (hd : decodeHeader s.par.strobeCode b = .strobe n r) (h : exchangeHeader b s = .ok (v, t)) :
    ∃ u, applyStrobe n (s.bumpDraws 1) = .ok u ∧ t = u.withTdec .done := by
  simp only [exchangeHeader, hd] at h
  split at h
  · rename_i u hu; cases h; exact ⟨u, hu, rfl⟩
  · cases h

/-- A header of the loops spares memory and the ready line, and selects no access that stores bytes elsewhere than in the
transmit queue (R256). -/
theorem exchangeHeader_spares {b v : Byte} {s t u : State} (hp : t.par = s.par) (hb : LoopHeader s.par b)
    (h : Spared s t) (hx : exchangeHeader b t = .ok (v, u)) : Spared s u := by
  have strobe {n : StrobeName} (hd : decodeHeader s.par.strobeCode b = .strobe n true) (hn : n ≠ .sres) : Spared s u := by
    obtain ⟨w, hw, rfl⟩ := exchangeHeader_strobe (by rw [hp]; exact hd) hx
    obtain ⟨mem, ready⟩ := applyStrobe_spares hn hw
    exact ⟨mem.trans h.mem, fun hr => ready.trans (h.ready hr), nofun⟩
  have access {k : TxnKind} (hd : decodeHeader s.par.strobeCode b = .access k 0x3F) : Spared s u := by
    simp only [exchangeHeader, hp, hd] at hx
    cases hx
    exact ⟨h.mem, h.ready, fun _ _ _ same _ => by cases same; rfl⟩
  simp only [LoopHeader, loopKinds, List.mem_cons, List.not_mem_nil, or_false] at hb
  obtain hd | hd | hd | hd | hd | hd | hd | hd := hb
  · exact strobe hd nofun
  · exact strobe hd nofun
  · exact strobe hd nofun
  · exact strobe hd nofun
  · exact strobe hd nofun
  · exact access hd
  · exact access hd
  · simp only [exchangeHeader, hp, hd] at hx
    cases hx
    exact ⟨h.mem, h.ready, fun _ _ _ same stores => by cases same; simp [StoresBytes] at stores⟩

/-- A data byte of an access that stores bytes in the transmit queue only, or that reads, spares memory and the ready line. -/
theorem exchangeData_spares {k : TxnKind} {a n : Nat} {b v : Byte} {s t u : State} (ht : t.tdec = .data k (.at a) n)
    (h : Spared s t) (hx : exchangeData k a n b t = .ok (v, u)) : Spared s u := by
  have next (stores : StoresBytes k → a = fifoAddr) : ∀ k' a' n', afterData k a n = .data k' (.at a') n' →
      StoresBytes k' → a' = fifoAddr := by
    intro k' a' n' same hk
    cases k <;> simp only [afterData, reduceCtorEq, Tdec.data.injEq] at same
    · obtain ⟨rfl, _⟩ := same; simp [StoresBytes] at hk
    · obtain ⟨rfl, hn, _⟩ := same
      obtain rfl := stores hk
      cases hn
      rfl
  have fifo := h.decoder k a n ht
  have kind : ReadsBytes k ∨ StoresBytes k ∨ k = .sr := by cases k <;> simp [ReadsBytes, StoresBytes]
  obtain reads | stores | rfl := kind
  · obtain ⟨mem, _, _, ready, _⟩ := readByte_spec a t
    rw [exchangeData_reads reads] at hx
    cases hx
    exact ⟨mem.trans h.mem, fun hr => ready.trans (h.ready hr), next fifo⟩
  · obtain rfl := fifo stores
    by_cases room : t.txfifo.length < t.par.fifoDepth
    · rw [exchangeData_writes stores (writeByte_fifo room)] at hx
      cases hx
      exact ⟨h.mem, h.ready, next fifo⟩
    · have full := writeByte_full (b := b) (Nat.not_lt.mp room)
      obtain rfl | rfl := stores <;> simp only [exchangeData, full, reduceCtorEq] at hx
  · rw [exchangeData_sr] at hx
    cases hx
    unfold statusReg
    split <;> exact ⟨h.mem, h.ready, nofun⟩

/-- After a byte the decoder awaits no header (R34, R127). -/
theorem targetExchange_tdec {b v : Byte} {s t : State} (h : targetExchange b s = .ok (v, t)) : t.tdec ≠ .awaitHeader := by
  have after (k : TxnKind) (a n : Nat) : afterData k a n ≠ .awaitHeader := by cases k <;> nofun
  cases hd : s.tdec with
  | closed | done => simp only [targetExchange, hd, reduceCtorEq] at h
  | awaitHeader =>
    rw [targetExchange_header hd] at h
    cases kind : decodeHeader s.par.strobeCode b with
    | reserved => simp only [exchangeHeader, kind, reduceCtorEq] at h
    | strobe n r => obtain ⟨u, _, rfl⟩ := exchangeHeader_strobe kind h; nofun
    | statusRead a | access k a => simp only [exchangeHeader, kind] at h; cases h; nofun
  | data k c n =>
    match c with
    | .pastEnd => simp only [targetExchange, hd, reduceCtorEq] at h
    | .at a =>
      rw [targetExchange_data hd] at h
      cases k with
      | rs | rb | sr => cases h; rw [State.withTdec_tdec]; exact after _ a n
      | ws | wb =>
        simp only [exchangeData] at h
        split at h
        · cases h; rw [State.withTdec_tdec]; exact after _ a n
        · cases h

/-! ### A transaction of the loops (R256) -/

/-- What every atomic action keeps: the parameters, that the decoder awaits a header only just after a `select`, and, as long as
every header sent since `s` is one of the loops, memory and the ready line. -/
def LoopWire (s t : State) : Prop :=
  t.par = s.par ∧ ∃ l, t.wireLog = s.wireLog ++ l ∧ (t.tdec = .awaitHeader → ∃ l', l = l' ++ [.select]) ∧
    ((∀ h ∈ headersSent l, LoopHeader s.par h) → Spared s t)

/-- An action that touches neither memory nor the wire. -/
theorem LoopWire.offWire {s t u : State} (h : LoopWire s t) (par : u.par = t.par) (wireLog : u.wireLog = t.wireLog)
    (tdec : u.tdec = t.tdec) (mem : u.mem = t.mem) (ready : t.ready = true → u.ready = true) : LoopWire s u := by
  obtain ⟨hp, l, log, fresh, spared⟩ := h
  refine ⟨par.trans hp, l, wireLog.trans log, fun awaits => fresh (tdec ▸ awaits), fun only => ?_⟩
  have spared := spared only
  exact ⟨mem.trans spared.mem, ready ∘ spared.ready, tdec ▸ spared.decoder⟩

theorem loopWire_byte {s t u : State} {b v : Byte} (h : LoopWire s t) (hx : targetExchange b t = .ok (v, u)) :
    LoopWire s (u.logWire (.byte b v)) := by
  obtain ⟨hp, l, log, fresh, spared⟩ := h
  have w := (targetExchange_shape hx).within
  refine ⟨w.par.trans hp, l ++ [.byte b v], ?_, fun awaits => absurd awaits (show u.tdec ≠ _ from targetExchange_tdec hx), fun only => ?_⟩
  · obtain ⟨m, rx, tx, cs, g, rd, td, sw, dr, _, rfl⟩ := targetExchange_shape hx
    simp [log]
  have kept : Spared s t := spared fun h hh => only h (headersSent_append_subset l _ hh)
  have answered : Spared s u := by
    cases hd : t.tdec with
    | closed | done => simp only [targetExchange, hd, reduceCtorEq] at hx
    | awaitHeader =>
      obtain ⟨l', rfl⟩ := fresh hd
      have header : b ∈ headersSent (l' ++ [.select] ++ [.byte b v]) := by
        rw [List.append_assoc, List.singleton_append, headersSent_append_select]
        exact List.mem_append_right _ (List.mem_singleton_self b)
      rw [targetExchange_header hd] at hx
      exact exchangeHeader_spares hp (only b header) kept hx
    | data k c n =>
      match c with
      | .pastEnd => simp only [targetExchange, hd, reduceCtorEq] at hx
      | .at a =>
        rw [targetExchange_data hd] at hx
        exact exchangeData_spares hd kept hx
  exact ⟨answered.mem, answered.ready, answered.decoder⟩

theorem loopWire_kept (s : State) : KeptByActions (LoopWire s) where
  agent e t h := by
    obtain ⟨w, f⟩ := agentStep_frame e t
    exact h.offWire w.par f.wireLog f.tdec f.mem f.ready
  env es t h := h.offWire rfl rfl rfl rfl id
  select t := by
    rintro ⟨hp, l, log, fresh, spared⟩
    refine ⟨hp, l ++ [.select], by simp [log], fun _ => ⟨l, rfl⟩, fun only => ?_⟩
    have spared := spared fun h hh => only h (headersSent_append_subset l _ hh)
    exact ⟨spared.mem, spared.ready, nofun⟩
  deselect t := by
    rintro ⟨hp, l, log, fresh, spared⟩
    refine ⟨hp, l ++ [.deselect], by simp [log], nofun, fun only => ?_⟩
    have spared := spared fun h hh => only h (headersSent_append_subset l _ hh)
    exact ⟨spared.mem, spared.ready, nofun⟩
  byte b v t u h hx := loopWire_byte h hx

/-- Only headers of the loops have been sent since `s`. -/
def OnlyLoopHeaders (s t : State) : Prop :=
  ∃ l, t.wireLog = s.wireLog ++ l ∧ ∀ h ∈ headersSent l, LoopHeader s.par h

/-- A settled state that the loops have reached from `s` by their own transactions. -/
structure Looping (s t : State) : Prop where
  settled : Settled t
  wire : LoopWire s t
  headers : OnlyLoopHeaders s t

theorem Looping.spared {s t : State} (h : Looping s t) : Spared s t := by
  obtain ⟨_, l, log, _, spared⟩ := h.wire
  obtain ⟨l', log', only⟩ := h.headers
  obtain rfl : l = l' := List.append_cancel_left (log.symm.trans log')
  exact spared only

/-- The sequencer's own registers are neither memory nor on the wire. -/
theorem Looping.registers {s t u : State} (h : Looping s t) (settled : Settled u) (par : u.par = t.par)
    (wireLog : u.wireLog = t.wireLog) (mem : u.mem = t.mem) (ready : u.ready = t.ready) : Looping s u := by
  obtain ⟨hp, l, log, _, _⟩ := h.wire
  have spared := h.spared
  obtain ⟨l', log', only⟩ := h.headers
  have closed := settled.dec
  exact ⟨settled, ⟨par.trans hp, l, wireLog.trans log, by simp [closed],
    fun _ => ⟨mem.trans spared.mem, fun hr => ready.trans (spared.ready hr), by simp [closed]⟩⟩,
    l', wireLog.trans log', only⟩

theorem looping_refl {s : State} (h : Settled s) : Looping s s := by
  have closed := h.dec
  exact ⟨h, ⟨rfl, [], by simp, by simp [closed], fun _ => ⟨rfl, id, by simp [closed]⟩⟩, [], by simp, nofun⟩

/-- One more transaction, whose header is one of the loops (R125, R256). -/
theorem onlyLoopHeaders_transaction {s t u : State} {h : Byte} {bs : List Byte} (before : OnlyLoopHeaders s t)
    (hh : LoopHeader s.par h) (framed : AfterTxn t (h :: bs) u) : OnlyLoopHeaders s u := by
  obtain ⟨l, log, only⟩ := before
  obtain ⟨_, _, _, sent, pre, log'⟩ := framed
  refine ⟨l ++ (.select :: sent.map (fun e => .byte e.1 e.2) ++ [.deselect]), by rw [log', log, List.append_assoc], ?_⟩
  intro x hx
  rw [List.cons_append, headersSent_append_select, List.mem_append, ← List.cons_append, headersSent_transaction] at hx
  obtain hx | hx := hx
  · exact only x hx
  · obtain ⟨rest, whole⟩ := pre
    cases sent with
    | nil => cases hx
    | cons e sent =>
      obtain rfl : x = e.1 := by simpa using hx
      obtain rfl : e.1 = h := (List.cons.inj whole).1
      exact hh

/-- An operation of the loops, whatever the other agents do meanwhile (R256). -/
theorem operation_looping {keep : Bool} {h : Byte} {bs : List Byte} {s t : State} (loop : Looping s t)
    (hh : LoopHeader s.par h) : (operation keep (h :: bs) t).ended (Looping s) := by
  by_cases hi : t.spiInited = true
  · have settled := operation_settled keep (h :: bs) t loop.settled
    have wire := operation_preserves (LoopWire s) (loopWire_kept s) (fun _ _ w => w.offWire rfl rfl rfl rfl id) keep (h :: bs) t loop.wire
    have framed := operation_afterTxn keep (h :: bs) t ((busIdle_iff t).mpr ⟨hi, loop.settled.csn, loop.settled.dec⟩)
    revert settled wire framed
    cases operation keep (h :: bs) t with
    | ok r u => exact fun settled wire framed => ⟨settled.1, wire, onlyLoopHeaders_transaction loop.headers hh framed⟩
    | err e u => exact fun settled wire framed => ⟨settled.1, wire, onlyLoopHeaders_transaction loop.headers hh framed⟩
    | refused r => exact fun _ _ _ => trivial
    | stuck f => exact fun _ _ _ => trivial
  · rw [operation_not_initialised _ _ (by simpa using hi)]
    trivial

/-! ### The phases of the loops, and RESYNC -/

section
variable {s t : State} (loop : Looping s t)
include loop

theorem Looping.par : t.par = s.par := loop.wire.1

theorem Looping.strobe {n : StrobeName} (hn : .strobe n true ∈ loopKinds s.par) :
    (strobe n t).ended (Looping s) := by
  have wf : s.par.strobeCode.wf = true := loop.par ▸ (params_wf_parts loop.settled.par).2.2
  have header : LoopHeader s.par (strobeByte s.par.strobeCode n true) := by
    rw [LoopHeader, decodeHeader_strobe wf]
    exact hn
  unfold Machine.strobe strobeFramed
  split
  · rw [loop.par]; exact operation_looping loop header
  · trivial

theorem Looping.burstReadFifo (n : Nat) : (burstRead fifoAddr n t).ended (Looping s) := by
  have header : LoopHeader s.par (header fifoAddr kBurstRead) := by
    rw [LoopHeader, decodeHeader_burst_read_fifo]
    simp [loopKinds, fifoAddr]
  unfold burstRead
  split
  · exact operation_looping loop header
  · trivial

theorem Looping.burstWriteFifo (vs : List Byte) : (burstWrite fifoAddr vs t).ended (Looping s) := by
  have header : LoopHeader s.par (header fifoAddr kBurstWrite) := by
    rw [LoopHeader, decodeHeader_burst_write_fifo]
    simp [loopKinds, fifoAddr]
  unfold burstWrite
  split
  · exact operation_looping loop header
  · trivial

theorem Looping.countRead (n : Nat) : (burstRead t.par.rxbytesAddr n t).ended (Looping s) := by
  obtain ⟨_, _, low, high⟩ := params_wf_fifo loop.settled.par
  rw [loop.par] at low high
  have header : LoopHeader s.par (header s.par.rxbytesAddr kBurstRead) := by
    rw [LoopHeader, decodeHeader_status _ _ low high]
    simp [loopKinds]
  unfold burstRead
  split
  · rw [loop.par]; exact operation_looping loop header
  · trivial

theorem Looping.raise {α : Type} (e : OpError) : (raiseError e t : OpResult α).ended (Looping s) := by
  rw [raiseError_deselected e loop.settled.csn]
  exact loop

end

theorem checked_looping {s : State} {x : OpResult Reply} (h : x.ended (Looping s)) : (checked x).ended (Looping s) := by
  refine OpResult.ended_andThen _ _ _ h fun r t ht => OpResult.ended_andThen _ _ _ ?_ fun _ u hu => hu
  unfold checkStatus
  split
  · exact ht.raise _
  · exact ht

theorem settled_phase {t : State} (ph : Phase) (h : Settled t) : Settled { t with phase := ph } :=
  ⟨⟨h.target.memory, h.target.rxDepth, h.target.txDepth, h.target.goal, h.target.dec⟩, h.csn, h.dec, h.par, h.armed⟩

theorem goto_looping {s t : State} (ph : Phase) (h : Looping s t) : (goto ph t).ended (Looping s) :=
  h.registers (settled_phase ph h.settled) rfl rfl rfl rfl

theorem andThen_goto_looping {α : Type} {s : State} {x : OpResult α} (ph : Phase) (h : x.ended (Looping s)) :
    (x.andThen fun _ => goto ph).ended (Looping s) :=
  OpResult.ended_andThen _ _ _ h fun _ _ ht => goto_looping ph ht

theorem enter_looping {n : StrobeName} {d : Dir} {next : Phase} {s t : State} (h : Looping s t) (hd : d ≠ .unwritten)
    (hn : .strobe n true ∈ loopKinds s.par) : (enter n d next t).ended (Looping s) :=
  andThen_goto_looping next (checked_looping
    ((h.registers (u := t.armedFor d) (settled_arm h.settled hd) rfl rfl rfl rfl).strobe hn))

theorem sleepOn_looping {s t : State} (w : WaitOn) (h : Looping s t) : Looping s (sleepOn w t) :=
  h.registers ⟨⟨h.settled.target.memory, h.settled.target.rxDepth, h.settled.target.txDepth, h.settled.target.goal,
    h.settled.target.dec⟩, h.settled.csn, h.settled.dec, h.settled.par, h.settled.armed⟩ rfl rfl rfl rfl

theorem suspendCompletion_looping {s t : State} (next : Phase) (h : Looping s t) :
    Looping s (suspendCompletion next t) := by
  unfold suspendCompletion
  split
  · exact goto_looping next (h.registers (u := { t with waitOn := .none }) (settled_withData h.settled) rfl rfl rfl rfl)
  split
  · exact goto_looping next (h.registers (u := { t with wakeSlot := false, waitOn := .none })
      (settled_withData h.settled) rfl rfl rfl rfl)
  · exact sleepOn_looping _ h

theorem drainCount_looping {s t : State} (c : Byte) (h : Looping s t) : (drainCount c t).ended (Looping s) := by
  unfold drainCount
  split
  · exact h.raise _
  split
  · exact goto_looping _ h
  refine OpResult.ended_andThen _ _ _ (checked_looping (h.burstReadFifo 2)) fun vs u hu => ?_
  split
  · exact goto_looping _ (hu.registers (settled_withData hu.settled) rfl rfl rfl rfl)
  · trivial

theorem phaseDrainFifo_looping {s t : State} (h : Looping s t) : (phaseDrainFifo t).ended (Looping s) := by
  refine OpResult.ended_andThen _ _ _ (checked_looping (h.countRead 1)) fun vs u hu => ?_
  split
  · exact drainCount_looping _ (hu.registers (settled_withData hu.settled) rfl rfl rfl rfl)
  · trivial

theorem phaseForward_looping {s t : State} (h : Looping s t) : (phaseForward t).ended (Looping s) := by
  unfold phaseForward
  split
  · exact goto_looping _ (h.registers (settled_withData h.settled) rfl rfl rfl rfl)
  · trivial

theorem phaseSample_looping {s t : State} (h : Looping s t) : (phaseSample t).ended (Looping s) := by
  unfold phaseSample
  split
  · exact goto_looping _ (h.registers (settled_withData (s := t) h.settled) rfl rfl rfl rfl)
  split
  · exact sleepOn_looping _ (h.registers (u := { t with tickSlot := false }) (settled_withData h.settled) rfl rfl rfl rfl)
  · exact sleepOn_looping _ h

theorem phaseEncode_looping {s t : State} (h : Looping s t) : (phaseEncode t).ended (Looping s) := by
  unfold phaseEncode
  split
  · exact goto_looping _ (h.registers (settled_withData h.settled) rfl rfl rfl rfl)
  · trivial

theorem phaseTransmit_looping {s t : State} (h : Looping s t) : (phaseTransmit t).ended (Looping s) := by
  unfold phaseTransmit
  split
  · exact OpResult.ended_andThen _ _ _ (checked_looping (h.burstWriteFifo _)) fun _ _ hu =>
      enter_looping hu nofun (by simp [loopKinds])
  · trivial

theorem phaseResync_looping {s t : State} (h : Looping s t) : (phaseResync t).ended (Looping s) :=
  OpResult.ended_andThen _ _ _ (h.strobe (by simp [loopKinds])) fun _ _ h1 =>
    OpResult.ended_andThen _ _ _ (h1.strobe (by simp [loopKinds])) fun _ _ h2 =>
      andThen_goto_looping _ (h2.strobe (by simp [loopKinds]))

/-- A phase of the loops, or RESYNC, ends with its own transactions on the wire, with `Ok` and with `Err` (R256). -/
theorem runPhase_looping {s t : State} (h : Looping s t) (hp : t.phase.inLoop = true ∨ t.phase = .resync) :
    (runPhase t).ended (Looping s) := by
  cases ph : t.phase <;> simp only [runPhase, ph]
  case bootInit | bootProfile | bootPktMode | bootTxPower | halt =>
    simp [ph, Phase.inLoop, Phase.booting] at hp
  case flushRx => exact andThen_goto_looping _ (checked_looping (h.strobe (by simp [loopKinds])))
  case armRx => exact enter_looping h nofun (by simp [loopKinds])
  case sleepWaitRx => exact suspendCompletion_looping _ h
  case drainFifo => exact phaseDrainFifo_looping h
  case forward => exact phaseForward_looping h
  case sample => exact phaseSample_looping h
  case encode => exact phaseEncode_looping h
  case flushTx => exact andThen_goto_looping _ (checked_looping (h.strobe (by simp [loopKinds])))
  case transmit => exact phaseTransmit_looping h
  case sleepWaitTx => exact suspendCompletion_looping _ h
  case resync => exact phaseResync_looping h

/-! ### The step -/

/-- The cases of a step with no transaction of a caller placed (R10, R72). -/
theorem step_case_no_request {s t : State} (hr : s.request = []) (h : step s = .next t) :
    ∃ es, (∃ e, t = agentStep e (s.withEnv es)) ∨ t = waitExpires (s.withEnv es) ∨ t = s.withEnv es ∨
      phaseStep (s.withEnv es) = .next t := by
  have turn (es : List Event) (h : runTurn (sequencerTurn (s.withEnv es)) = .next t) :
      t = s.withEnv es ∨ phaseStep (s.withEnv es) = .next t := by
    by_cases hq : s.sleeping = true ∨ s.phase = .halt
    · rw [sequencerTurn_silent (s := s.withEnv es) hq] at h
      cases h
      exact .inl rfl
    · obtain ⟨awake, running⟩ : s.sleeping = false ∧ s.phase ≠ .halt := by simpa using hq
      rw [sequencerTurn_awake (s := s.withEnv es) awake running, State.withEnv_request, hr] at h
      exact .inr h
  rw [step_eq_runTurn] at h
  unfold nextTurn at h
  split at h
  · exact ⟨s.env, .inr (.inr (turn s.env h))⟩
  · rename_i e es _
    split at h
    · exact ⟨es, .inr (.inr (turn es h))⟩
    split at h <;> cases h
    · exact ⟨es, .inr (.inl rfl)⟩
    · exact ⟨es, .inl ⟨e, rfl⟩⟩

theorem dispatchError_looping {s t : State} (e : OpError) (h : Looping s t) : Looping s (dispatchError e t) :=
  h.registers (dispatchError_inv e h.settled).settled rfl rfl rfl rfl

/-- A step taken in a loop phase or in RESYNC, with no transaction of a caller placed. -/
theorem step_looping {s t : State} (hi : s.Inv) (hr : s.request = []) (hp : s.phase.inLoop = true ∨ s.phase = .resync)
    (h : step s = .next t) : Looping s t := by
  have start (es : List Event) : Looping s (s.withEnv es) :=
    (looping_refl hi.settled).registers (inv_withInputs hi).settled rfl rfl rfl rfl
  obtain ⟨es, ⟨e, rfl⟩ | rfl | rfl | h⟩ := step_case_no_request hr h
  · obtain ⟨w, f⟩ := agentStep_frame e (s.withEnv es)
    have loop := start es
    exact ⟨(agentStep_inv e _ (inv_withInputs hi)).settled, (loopWire_kept s).agent e _ loop.wire,
      by obtain ⟨l, log, only⟩ := loop.headers; exact ⟨l, f.wireLog.trans log, only⟩⟩
  · obtain k | ⟨_, k⟩ := waitExpires_cases (s.withEnv es) <;> rw [k]
    · exact start es
    · exact dispatchError_looping _ (start es)
  · exact start es
  · have ended := runPhase_looping (start es) hp
    unfold phaseStep at h
    split at h <;> cases h
    · rename_i run; rw [run] at ended; exact ended
    · rename_i run; rw [run] at ended; exact dispatchError_looping _ ended

/-- Settles O40: every step of the loops is `Looping`. -/
theorem loopsNeverWriteConfiguration : Obligations.LoopsNeverWriteConfiguration := by
  unfold Obligations.LoopsNeverWriteConfiguration
  intro s t hi hr hp h
  have loop := step_looping hi hr hp h
  exact ⟨loop.spared.mem, loop.spared.ready, fun _ => loop.settled.csn, loop.headers⟩

end Sys2Proof.Machine
end

section
/-! PROOFS of the statements about the link state machine, sixth part: both loops can run for ever (R253, R291). A loop passes
through its stations again and again; at each one the environment's next choice is given, and the step is one that an earlier
part describes. -/

namespace Sys2Proof.Machine

/-! ### A fair run from stations -/

/-- A run exists if at each station the environment can choose so that the step leads to the next one. -/
theorem exists_run {At : Nat → State → Prop} {s : State} (start : At 0 s)
    (next : ∀ n u, At n u → ∃ es t, step (u.supplied es) = .next t ∧ At (n + 1) t) :
    ∃ supply run, run 0 = s ∧ IsRun supply run ∧ ∀ n, At n (run n) := by
  choose supply after taken arrives using next
  let reach : (n : Nat) → { u // At n u } :=
    fun n => n.rec ⟨s, start⟩ fun n u => ⟨after n u.1 u.2, arrives n u.1 u.2⟩
  exact ⟨fun n => supply n (reach n).1 (reach n).2, fun n => (reach n).1, rfl,
    fun n => taken n (reach n).1 (reach n).2, fun n => (reach n).2⟩

/-- A ready target in IDLE, where no step that fairness speaks of is enabled (R291). -/
def State.resting (s : State) : Prop := s.chipState = .idle ∧ s.ready = true

/-- A run that rests again and again is fair. -/
theorem fairRun_of_resting {supply : Nat → List Event} {run : Nat → State} (hrun : IsRun supply run)
    (rests : ∀ n, ∃ m, n ≤ m ∧ (run m).resting) : FairRun supply run := by
  have fair (enabled : State → Bool) (act : Event) (still : ∀ u : State, u.resting → enabled u = false) :
      WeaklyFair enabled act supply run := by
    intro n
    obtain ⟨m, later, resting⟩ := rests n
    exact ⟨m, later, .inl (still _ resting)⟩
  refine ⟨hrun, fair _ _ ?_, fair _ _ ?_, fair _ _ ?_⟩
  · rintro u ⟨idle, _⟩; simp [settleEnabled, idle, isTransitional]
  · rintro u ⟨_, ready⟩; simp [becomeReadyEnabled, ready]
  · rintro u ⟨idle, _⟩; simp [txDoneEnabled, idle]

/-! ### What holds at every station -/

/-- The node between two steps of an undisturbed loop: the parameters `p`, the memory `m`, no error, the bus ready, no
transaction of a caller and none of the environment's choices left. -/
structure Cruising (p : Params) (m : Memory) (s : State) : Prop where
  par : s.par = p
  mem : s.mem = m
  err : s.err = none
  bus : s.busReady = true
  request : s.request = []
  env : s.env = []

/-- The sequencer is awake in the phase `ph`, suspended on nothing, and the chip state is `c`. -/
def State.awakeAt (s : State) (ph : Phase) (c : ChipState) : Prop :=
  s.phase = ph ∧ s.chipState = c ∧ s.sleeping = false ∧ s.waitOn = .none

section
variable {p : Params} {m : Memory} {s : State} (h : Cruising p m s)
include h

/-- A step of a loop moves none of what `Cruising` speaks of. -/
theorem Cruising.moved {rx tx : List Byte} {c : ChipState} {g : Goal} {d : Dir} {armed wakeSlot : Bool} {wd : WakeDir}
    {sleeping : Bool} {ph : Phase} {reading : Datum Reading} {payload : Datum (Byte × Byte)} {rxcount st : Datum Byte}
    {out : List Byte} {tick : Bool} {log : List WireEvent} {w : WaitOn} {swap : Bool} {air : List (List Byte)} {n : Nat} :
    Cruising p m { s with
      rxfifo := rx, txfifo := tx, chipState := c, goal := g, dir := d, armed := armed, wakeSlot := wakeSlot, wakeDir := wd,
      sleeping := sleeping, phase := ph, reading := reading, payload := payload, rxcount := rxcount, lastStatus := st,
      hostOut := out, tickSlot := tick, wireLog := log, waitOn := w, swapUsed := swap, airOut := air, draws := n } :=
  ⟨h.par, h.mem, h.err, h.bus, h.request, h.env⟩

theorem Cruising.codes (hw : p.wf = true) : s.par.strobeCode.wf = true := by
  rw [h.par]; exact (params_wf_parts hw).2.2

theorem Cruising.ready : s.ready = true := ((busReady_iff s).mp h.bus).2.2.2

theorem Cruising.quietAt {ph : Phase} (hp : s.phase = ph) (awake : s.sleeping = false) : s.quietAt ph :=
  ⟨hp, h.bus, awake, h.request, h.env⟩

/-- With no choice supplied it is the sequencer's turn. -/
theorem Cruising.supplied_nil : s.supplied [] = s := by
  rw [State.supplied, h.env]; exact State.withEnv_nil h.env

/-- With no choice supplied the sequencer's step is the node's. -/
theorem Cruising.step_turn {t : State} (turn : step s = .next t) : step (s.supplied []) = .next t := by
  rw [h.supplied_nil]; exact turn

/-- With one agent's step supplied it is that agent's turn. -/
theorem Cruising.step_agent {e : Event} (hgo : e ≠ .go) (hexpire : e ≠ .expire) :
    step (s.supplied [e]) = .next (agentStep e s) := by
  have only : (s.supplied [e]).env = [e] := by rw [State.supplied, h.env]; rfl
  rw [Machine.step_agent only hgo hexpire]
  exact congrArg (fun u => Host.Outcome.next (agentStep e u)) (State.withEnv_nil h.env)

end

theorem settleGoal_toRx {s : State} (moving : s.chipState = .settling) (goal : s.goal = .toRx) :
    settleGoal s = { s with chipState := .rx, goal := .none } := by
  simp only [settleGoal, moving, goal, isTransitional, if_true]

theorem settleGoal_toTx {s : State} (moving : s.chipState = .settling) (goal : s.goal = .toTx) :
    settleGoal s = { s with chipState := .tx, goal := .none } := by
  simp only [settleGoal, moving, goal, isTransitional, if_true]

/-! ### The loop of the BASE role (R232 to R236) -/

/-- The stations of the `k`-th passage of the BASE loop: the flush, the arming, then in SLEEP_WAIT_RX the settling, the
reception and the end of it, before the sequencer suspends, then the drain and the hand-over to the host. -/
inductive BaseStation : Nat → State → Prop
  | flush (k : Nat) (s : State) (here : s.awakeAt .flushRx .idle) (count : k ≤ s.hostOut.length) : BaseStation (7 * k) s
  | arm (k : Nat) (s : State) (here : s.awakeAt .armRx .idle) (count : k ≤ s.hostOut.length) (empty : s.rxfifo = []) :
      BaseStation (7 * k + 1) s
  | settling (k : Nat) (s : State) (here : s.awakeAt .sleepWaitRx .settling) (count : k ≤ s.hostOut.length)
      (empty : s.rxfifo = []) (armed : s.armed = true) (goal : s.goal = .toRx) : BaseStation (7 * k + 2) s
  | receiving (k : Nat) (s : State) (here : s.awakeAt .sleepWaitRx .rx) (count : k ≤ s.hostOut.length)
      (empty : s.rxfifo = []) (armed : s.armed = true) : BaseStation (7 * k + 3) s
  | received (k : Nat) (s : State) (here : s.awakeAt .sleepWaitRx .idle) (count : k ≤ s.hostOut.length)
      (packet : s.rxfifo = [0, 0]) (event : s.wakeSlot = true) : BaseStation (7 * k + 4) s
  | drain (k : Nat) (s : State) (here : s.awakeAt .drainFifo .idle) (count : k ≤ s.hostOut.length)
      (packet : s.rxfifo = [0, 0]) : BaseStation (7 * k + 5) s
  | forward (k : Nat) (s : State) (here : s.awakeAt .forward .idle) (count : k ≤ s.hostOut.length)
      (payload : s.payload.written = true) : BaseStation (7 * k + 6) s

/-- From each station of the BASE loop the step of the sequencer, or one step of an agent, leads to the next. -/
theorem baseStation_next {p : Params} {m : Memory} {n : Nat} {s : State} (hw : p.wf = true) (hm : 2 ≤ p.maxPktLen)
    (h : Cruising p m s) (station : BaseStation n s) :
    ∃ es t, step (s.supplied es) = .next t ∧ Cruising p m t ∧ BaseStation (n + 1) t := by
  have codes := h.codes hw
  obtain ⟨two, _, _, _⟩ := params_wf_fifo hw
  cases station with
  | flush k s here count =>
    obtain ⟨phase, idle, awake, fresh⟩ := here
    have good : isErrorState s.chipState = false := by rw [idle]; rfl
    have still : (if s.chipState = .rxOverflow then .idle else s.chipState) = ChipState.idle := by rw [idle]; rfl
    obtain ⟨flushRx, _⟩ := flushPhases s codes
    obtain ⟨flushed, _⟩ := flushRx (h.quietAt phase awake)
    have turned := h.step_turn (flushed good)
    exact ⟨_, _, turned, h.moved, .arm k _ ⟨rfl, still, awake, fresh⟩ count rfl⟩
  | arm k s here count empty =>
    obtain ⟨phase, idle, awake, fresh⟩ := here
    obtain ⟨entered, _⟩ := armRxArmsThenStrobes s codes (h.quietAt phase awake)
    have turned := h.step_turn (entered idle)
    exact ⟨_, _, turned, h.moved, .settling k _ ⟨rfl, rfl, awake, fresh⟩ count empty rfl rfl⟩
  | settling k s here count empty armed goal =>
    obtain ⟨phase, moving, awake, fresh⟩ := here
    have settled := h.step_agent (e := .settleGoal) nofun nofun
    rw [agentStep, settleGoal_toRx moving goal] at settled
    exact ⟨_, _, settled, h.moved, .receiving k _ ⟨phase, rfl, awake, fresh⟩ count empty armed⟩
  | receiving k s here count empty armed =>
    obtain ⟨phase, rx, awake, fresh⟩ := here
    have ended := h.step_agent (e := .rxDone [0, 0] true) nofun nofun
    have room : s.rxfifo.length + Config.pktLen ≤ s.par.fifoDepth := by rw [empty, h.par]; exact two
    have running : (s.received [0, 0]).phase.booting = false := congrArg Phase.booting phase
    rw [agentStep, rxDone_taken rx rfl room, completionEvent_latched running armed awake] at ended
    exact ⟨_, _, ended, h.moved, .received k _ ⟨phase, rfl, awake, fresh⟩ count (congrArg (· ++ [0, 0]) empty) rfl⟩
  | received k s here count packet event =>
    obtain ⟨phase, idle, awake, fresh⟩ := here
    obtain ⟨waiting, _⟩ := suspendWakeOrExpire s
    obtain ⟨resumed, _⟩ := waiting .sleepWaitRx .drainFifo (h.quietAt phase awake) (.inl ⟨rfl, rfl⟩)
    have turned := h.step_turn (resumed (by rw [fresh]; nofun) event)
    exact ⟨_, _, turned, h.moved, .drain k _ ⟨rfl, idle, awake, rfl⟩ count packet⟩
  | drain k s here count packet =>
    obtain ⟨phase, idle, awake, fresh⟩ := here
    have good : isErrorState s.chipState = false := by rw [idle]; rfl
    have depth : s.rxfifo.length ≤ s.par.fifoDepth := by rw [packet, h.par]; exact two
    have fits : s.rxfifo.length ≤ s.par.maxPktLen := by rw [packet, h.par]; exact hm
    obtain ⟨_, counted⟩ := drainFifoReadsOnePacket s (h.quietAt phase awake) (by rw [h.par]; exact hw) depth
    obtain ⟨_, _, fetched, _⟩ := counted good
    have turned := h.step_turn (fetched 0 0 [] packet fits)
    exact ⟨_, _, turned, h.moved, .forward k _ ⟨rfl, idle, awake, fresh⟩ count rfl⟩
  | forward k s here count payload =>
    obtain ⟨phase, idle, awake, fresh⟩ := here
    obtain ⟨forward, _⟩ := forwardAndEncode s
    obtain ⟨forwarded, _⟩ := forward (h.quietAt phase awake)
    have turned := h.step_turn (forwarded payload)
    exact ⟨_, _, turned, h.moved,
      .flush (k + 1) _ ⟨rfl, idle, awake, fresh⟩ (by simp; omega)⟩

/-- At the start of a passage a base node is in IDLE and has handed over a byte for each passage before. -/
theorem baseStation_start {k : Nat} {s : State} (station : BaseStation (7 * k) s) :
    s.chipState = .idle ∧ k ≤ s.hostOut.length := by
  generalize start : 7 * k = n at station
  cases station with
  | flush j s here count => exact ⟨here.2.1, by omega⟩
  | arm | settling | receiving | received | drain | forward => omega

/-! ### The loop of the REMOTE role (R238 to R242) -/

/-- The sequencer sleeps, or has been woken, in SAMPLE while it waits for the conversion (R238, R247). -/
def State.converting (s : State) (asleep : Bool) : Prop :=
  s.phase = .sample ∧ s.chipState = .idle ∧ s.sleeping = asleep ∧ s.waitOn = .conversion

/-- The stations of the `k`-th passage of the REMOTE loop: in SAMPLE the tick and the conversion, then the encoding, the
flush and the transmission, and in SLEEP_WAIT_TX, before the sequencer suspends, the settling, the transmission and the end
of it. -/
inductive RemoteStation : Nat → State → Prop
  | sample (k : Nat) (s : State) (here : s.awakeAt .sample .idle) (count : k ≤ s.airOut.length) : RemoteStation (10 * k) s
  | ticked (k : Nat) (s : State) (here : s.awakeAt .sample .idle) (count : k ≤ s.airOut.length)
      (tick : s.tickSlot = true) : RemoteStation (10 * k + 1) s
  | converting (k : Nat) (s : State) (here : s.converting true) (count : k ≤ s.airOut.length) :
      RemoteStation (10 * k + 2) s
  | converted (k : Nat) (s : State) (here : s.converting false) (count : k ≤ s.airOut.length) :
      RemoteStation (10 * k + 3) s
  | encode (k : Nat) (s : State) (here : s.awakeAt .encode .idle) (count : k ≤ s.airOut.length)
      (reading : s.reading.written = true) : RemoteStation (10 * k + 4) s
  | flush (k : Nat) (s : State) (here : s.awakeAt .flushTx .idle) (count : k ≤ s.airOut.length)
      (hi lo : Byte) (payload : s.payload = Datum.of (hi, lo)) : RemoteStation (10 * k + 5) s
  | transmit (k : Nat) (s : State) (here : s.awakeAt .transmit .idle) (count : k ≤ s.airOut.length)
      (hi lo : Byte) (payload : s.payload = Datum.of (hi, lo)) (empty : s.txfifo = []) : RemoteStation (10 * k + 6) s
  | settling (k : Nat) (s : State) (here : s.awakeAt .sleepWaitTx .settling) (count : k ≤ s.airOut.length)
      (packet : s.txfifo.length = 2) (armed : s.armed = true) (goal : s.goal = .toTx) : RemoteStation (10 * k + 7) s
  | transmitting (k : Nat) (s : State) (here : s.awakeAt .sleepWaitTx .tx) (count : k ≤ s.airOut.length)
      (packet : s.txfifo.length = 2) (armed : s.armed = true) : RemoteStation (10 * k + 8) s
  | transmitted (k : Nat) (s : State) (here : s.awakeAt .sleepWaitTx .idle) (count : k + 1 ≤ s.airOut.length)
      (event : s.wakeSlot = true) : RemoteStation (10 * k + 9) s

/-- From each station of the REMOTE loop the step of the sequencer, or one step of an agent, leads to the next. -/
theorem remoteStation_next {p : Params} {m : Memory} {n : Nat} {s : State} (hw : p.wf = true)
    (h : Cruising p m s) (station : RemoteStation n s) :
    ∃ es t, step (s.supplied es) = .next t ∧ Cruising p m t ∧ RemoteStation (n + 1) t := by
  have codes := h.codes hw
  obtain ⟨two, _, _, _⟩ := params_wf_fifo hw
  cases station with
  | sample k s here count =>
    obtain ⟨phase, idle, awake, fresh⟩ := here
    have ticked := h.step_agent (e := .tick) nofun nofun
    rw [agentStep, tickHandler_eq, if_neg (by rw [fresh]; nofun)] at ticked
    exact ⟨_, _, ticked, h.moved, .ticked k _ ⟨phase, idle, awake, fresh⟩ count rfl⟩
  | ticked k s here count tick =>
    obtain ⟨phase, idle, awake, fresh⟩ := here
    obtain ⟨sample, _⟩ := sampleWaitsForTickAndConversion s
    obtain ⟨_, consume, _⟩ := sample (h.quietAt phase awake)
    have turned := h.step_turn (consume (by rw [fresh]; nofun) tick)
    exact ⟨_, _, turned, h.moved, .converting k _ ⟨phase, idle, rfl, rfl⟩ count⟩
  | converting k s here count =>
    obtain ⟨phase, idle, _, waits⟩ := here
    have converted := h.step_agent (e := .conversionDone) nofun nofun
    rw [agentStep, conversionHandler_eq, if_pos waits] at converted
    exact ⟨_, _, converted, h.moved, .converted k _ ⟨phase, idle, rfl, waits⟩ count⟩
  | converted k s here count =>
    obtain ⟨phase, idle, awake, waits⟩ := here
    obtain ⟨sample, _⟩ := sampleWaitsForTickAndConversion s
    obtain ⟨_, _, take⟩ := sample (h.quietAt phase awake)
    have turned := h.step_turn (take waits)
    exact ⟨_, _, turned, h.moved, .encode k _ ⟨rfl, idle, awake, rfl⟩ count rfl⟩
  | encode k s here count reading =>
    obtain ⟨phase, idle, awake, fresh⟩ := here
    obtain ⟨_, encode⟩ := forwardAndEncode s
    obtain ⟨encoded, _⟩ := encode (h.quietAt phase awake)
    obtain ⟨hi, lo, made, _⟩ := encoded reading
    have turned := h.step_turn made
    exact ⟨_, _, turned, h.moved, .flush k _ ⟨rfl, idle, awake, fresh⟩ count hi lo rfl⟩
  | flush k s here count hi lo payload =>
    obtain ⟨phase, idle, awake, fresh⟩ := here
    have good : isErrorState s.chipState = false := by rw [idle]; rfl
    have still : (if s.chipState = .txUnderflow then .idle else s.chipState) = ChipState.idle := by rw [idle]; rfl
    obtain ⟨_, flushTx⟩ := flushPhases s codes
    obtain ⟨flushed, _⟩ := flushTx (h.quietAt phase awake)
    have turned := h.step_turn (flushed good)
    exact ⟨_, _, turned, h.moved, .transmit k _ ⟨rfl, still, awake, fresh⟩ count hi lo payload rfl⟩
  | transmit k s here count hi lo payload empty =>
    obtain ⟨phase, idle, awake, fresh⟩ := here
    have room : s.txfifo.length + 2 ≤ s.par.fifoDepth := by rw [empty, h.par]; exact two
    obtain ⟨_, sent⟩ := transmitWritesArmsThenStrobes s codes (h.quietAt phase awake)
    obtain ⟨_, admitted⟩ := sent hi lo payload
    obtain ⟨entered, _⟩ := admitted room
    have turned := h.step_turn (entered idle)
    have packet : (s.txfifo ++ [hi, lo]).length = 2 := by rw [empty]; rfl
    exact ⟨_, _, turned, h.moved, .settling k _ ⟨rfl, rfl, awake, fresh⟩ count packet rfl rfl⟩
  | settling k s here count packet armed goal =>
    obtain ⟨phase, moving, awake, fresh⟩ := here
    have settled := h.step_agent (e := .settleGoal) nofun nofun
    rw [agentStep, settleGoal_toTx moving goal] at settled
    exact ⟨_, _, settled, h.moved, .transmitting k _ ⟨phase, rfl, awake, fresh⟩ count packet armed⟩
  | transmitting k s here count packet armed =>
    obtain ⟨phase, tx, awake, fresh⟩ := here
    have ended := h.step_agent (e := .txDone) nofun nofun
    have running : s.transmitted.phase.booting = false := congrArg Phase.booting phase
    have grown : k + 1 ≤ (s.airOut ++ [s.txfifo.take 2]).length := by rw [List.length_append]; exact Nat.succ_le_succ count
    rw [agentStep, txDone_sent tx packet.ge, completionEvent_latched running armed awake] at ended
    exact ⟨_, _, ended, h.moved, .transmitted k _ ⟨phase, rfl, awake, fresh⟩ grown rfl⟩
  | transmitted k s here count event =>
    obtain ⟨phase, idle, awake, fresh⟩ := here
    obtain ⟨waiting, _⟩ := suspendWakeOrExpire s
    obtain ⟨resumed, _⟩ := waiting .sleepWaitTx .sample (h.quietAt phase awake) (.inr ⟨rfl, rfl⟩)
    have turned := h.step_turn (resumed (by rw [fresh]; nofun) event)
    exact ⟨_, _, turned, h.moved, .sample (k + 1) _ ⟨rfl, idle, awake, rfl⟩ count⟩

/-- At the start of a passage a remote node is in IDLE and has put a packet on the air for each passage before. -/
theorem remoteStation_start {k : Nat} {s : State} (station : RemoteStation (10 * k) s) :
    s.chipState = .idle ∧ k ≤ s.airOut.length := by
  generalize start : 10 * k = n at station
  cases station with
  | sample j s here count => exact ⟨here.2.1, by omega⟩
  | ticked | converting | converted | encode | flush | transmit | settling | transmitting | transmitted => omega

/-! ### Both loops -/

/-- A loop of `period` stations that a cruising node passes through, in IDLE at the start of each passage, gives a fair run
without an error. -/
theorem exists_fairRun {p : Params} {m : Memory} {s : State} {Station : Nat → State → Prop} {Passed : Nat → State → Prop}
    {period : Nat} (positive : 0 < period) (h : Cruising p m s) (start : Station 0 s)
    (next : ∀ {n u}, Cruising p m u → Station n u →
      ∃ es t, step (u.supplied es) = .next t ∧ Cruising p m t ∧ Station (n + 1) t)
    (passage : ∀ {k u}, Station (period * k) u → u.chipState = .idle ∧ Passed k u) :
    ∃ supply run, run 0 = s ∧ FairRun supply run ∧ (∀ n, (run n).err = none ∧ (run n).mem = m) ∧
      ∀ k, Passed k (run (period * k)) := by
  obtain ⟨supply, run, first, isRun, stations⟩ :=
    exists_run (At := fun n u => Cruising p m u ∧ Station n u) ⟨h, start⟩
      fun _ _ ⟨cruising, station⟩ => next cruising station
  refine ⟨supply, run, first, fairRun_of_resting isRun fun n => ⟨period * n, ?_, ?_⟩, fun n => ?_, fun k => ?_⟩
  · exact Nat.le_mul_of_pos_left n positive
  · obtain ⟨cruising, station⟩ := stations (period * n)
    exact ⟨(passage station).1, cruising.ready⟩
  · obtain ⟨cruising, _⟩ := stations n
    exact ⟨cruising.err, cruising.mem⟩
  · obtain ⟨_, station⟩ := stations (period * k)
    exact (passage station).2

/-- A node that has completed boot and has nothing in hand cruises. -/
theorem State.bootCompleted.cruising {s : State} (boot : s.bootCompleted) (inv : s.Inv) (inited : s.spiInited = true)
    (quiet : s.env = []) (free : s.request = []) : Cruising s.par s.mem s := by
  obtain ⟨_, noError, ready, _⟩ := boot
  obtain ⟨csn, closed⟩ := inv.bus
  exact ⟨rfl, rfl, noError, (busReady_iff s).mpr ⟨inited, csn, closed, ready⟩, free, quiet⟩

/-- Settles O60: the loop of the role, from its first station, passes through its stations for ever. -/
theorem loopsCanRunForEver : Obligations.LoopsCanRunForEver := by
  unfold Obligations.LoopsCanRunForEver
  intro s boot inv inited quiet free fresh first _ packet
  have cruising := boot.cruising inv inited quiet free
  obtain ⟨_, _, _, idle, _, _, _, _, awake, _⟩ := boot
  have here : s.awakeAt (firstPhase s.par.role) .idle := ⟨first, idle, awake, fresh⟩
  cases role : s.par.role with
  | base =>
    rw [role] at here
    obtain ⟨supply, run, start, fair, clean, passed⟩ :=
      exists_fairRun (Passed := fun k u => k ≤ u.hostOut.length) (period := 7) (by decide) cruising
        (.flush 0 s here (Nat.zero_le _)) (baseStation_next inv.params packet) baseStation_start
    exact ⟨supply, run, start, fair, clean, fun k => ⟨7 * k, fun _ => passed k, nofun⟩⟩
  | remote =>
    rw [role] at here
    obtain ⟨supply, run, start, fair, clean, passed⟩ :=
      exists_fairRun (Passed := fun k u => k ≤ u.airOut.length) (period := 10) (by decide) cruising
        (.sample 0 s here (Nat.zero_le _)) (remoteStation_next inv.params) remoteStation_start
    exact ⟨supply, run, start, fair, clean, fun k => ⟨10 * k, nofun, fun _ => passed k⟩⟩

end Sys2Proof.Machine
end

section
/-! PROOFS of the statements about the radio agent and the collaborators, first part: what each agent's step does where
it is enabled and where it is not (R281 to R285, R288), and the statements about these steps as steps of the node. -/

namespace Sys2Proof.Machine

/-! ### The end of an RX operation (R282, R285) -/

theorem rxDone_disabled {p : List Byte} {ok : Bool} {s : State}
    (h : ¬ (s.chipState = .rx ∧ p.length = Config.pktLen)) : rxDone p ok s = s := if_neg h

/-- `s` with the receive queue emptied for a bad packet, before the completion event (R282). -/
def State.autoflushed (s : State) : State := { s with rxfifo := [], chipState := .idle }

section
variable {p : List Byte} {ok : Bool} {s : State} (rx : s.chipState = .rx) (len : p.length = Config.pktLen)
include rx len

/-- A packet that is kept and finds room is appended (R282). -/
theorem rxDone_appended (kept : ok = true ∨ s.par.crcAutoflush = false) (room : s.rxfifo.length + 2 ≤ s.par.fifoDepth) :
    rxDone p ok s = completionEvent (s.received p) := by
  have fits : ¬ s.par.fifoDepth < s.rxfifo.length + p.length := by rw [len]; exact Nat.not_lt.mpr room
  rw [rxDone, if_pos ⟨rx, len⟩, if_pos (by simpa using kept), if_neg fits]
  rfl

/-- A packet that is kept and finds no room overflows the queue, with no completion event (R285). -/
theorem rxDone_overflows (kept : ok = true ∨ s.par.crcAutoflush = false) (full : s.par.fifoDepth < s.rxfifo.length + 2) :
    rxDone p ok s = { s with chipState := .rxOverflow } := by
  have exceeds : s.par.fifoDepth < s.rxfifo.length + p.length := by rw [len]; exact full
  rw [rxDone, if_pos ⟨rx, len⟩, if_pos (by simpa using kept), if_pos exceeds]

/-- A bad packet under `CRC_AUTOFLUSH` empties the receive queue (R282). -/
theorem rxDone_flushes (bad : ok = false) (autoflush : s.par.crcAutoflush = true) :
    rxDone p ok s = completionEvent s.autoflushed := by
  rw [rxDone, if_pos ⟨rx, len⟩, if_neg (by simp [bad, autoflush])]
  rfl

end

/-- Settles O42: by the chip state, then by whether the packet is kept and finds room. -/
theorem rxDoneFillsFlushesOrOverflows : Obligations.RxDoneFillsFlushesOrOverflows := by
  unfold Obligations.RxDoneFillsFlushesOrOverflows
  intro s b0 b1 ok es he
  rw [step_agent he nofun nofun]
  refine ⟨fun other => ?_, fun rx => ⟨fun kept => ⟨fun full => ?_, fun room => ?_⟩, fun bad autoflush => ?_⟩⟩
  · exact congrArg _ (rxDone_disabled (s := s.withEnv es) fun enabled => other enabled.1)
  · exact congrArg _ (rxDone_overflows (s := s.withEnv es) rx rfl kept full)
  · exact congrArg _ (rxDone_appended (s := s.withEnv es) rx rfl kept room)
  · exact congrArg _ (rxDone_flushes (s := s.withEnv es) rx rfl bad autoflush)

/-! ### The end of a TX operation and the underflow (R283, R284) -/

theorem txDoneEnabled_iff (s : State) : txDoneEnabled s = true ↔ s.chipState = .tx ∧ 2 ≤ s.txfifo.length :=
  Bool.and_eq_true_iff.trans (and_congr decide_eq_true_iff decide_eq_true_iff)

theorem txDone_disabled {s : State} (h : ¬ (s.chipState = .tx ∧ 2 ≤ s.txfifo.length)) : txDone s = s :=
  if_neg (mt (txDoneEnabled_iff s).mp h)

/-- The packet sent is the first two bytes of the transmit queue (R283). -/
theorem transmitted_packet {s : State} {b0 b1 : Byte} {q : List Byte} (packet : s.txfifo = b0 :: b1 :: q) :
    s.transmitted = { s with txfifo := q, chipState := .idle, airOut := s.airOut ++ [[b0, b1]] } := by
  simp [State.transmitted, packet]

theorem txDone_packet {s : State} {b0 b1 : Byte} {q : List Byte} (tx : s.chipState = .tx)
    (packet : s.txfifo = b0 :: b1 :: q) :
    txDone s = completionEvent
      { s with txfifo := q, chipState := .idle, airOut := s.airOut ++ [[b0, b1]] } := by
  rw [txDone_sent tx (by simp [packet]), transmitted_packet packet]

/-- The underflow, with a completion event or without one (R284). -/
theorem txUnderflow_enabled {raise : Bool} {s : State} (tx : s.chipState = .tx) (short : s.txfifo.length < 2) :
    txUnderflow raise s =
      if raise then completionEvent { s with chipState := .txUnderflow } else { s with chipState := .txUnderflow } :=
  if_pos ⟨tx, short⟩

theorem txUnderflow_disabled {raise : Bool} {s : State} (h : ¬ (s.chipState = .tx ∧ s.txfifo.length < 2)) :
    txUnderflow raise s = s := if_neg h

/-- Settles O43: each of the two steps where it is enabled and where it is not. -/
theorem txDoneAndTxUnderflow : Obligations.TxDoneAndTxUnderflow := by
  unfold Obligations.TxDoneAndTxUnderflow
  intro s es
  refine ⟨fun he => ?_, fun raise he => ?_⟩ <;> rw [step_agent he nofun nofun]
  · refine ⟨fun b0 b1 q tx packet => congrArg _ (txDone_packet (s := s.withEnv es) tx packet), fun h => ?_⟩
    exact congrArg _ (txDone_disabled (s := s.withEnv es) fun ⟨tx, packet⟩ => h.elim (· tx) (Nat.not_lt.mpr packet))
  · refine ⟨fun tx short => congrArg _ (txUnderflow_enabled (s := s.withEnv es) tx short), fun h => ?_⟩
    exact congrArg _ (txUnderflow_disabled (s := s.withEnv es) fun ⟨tx, short⟩ => h.elim (· tx) (Nat.not_le.mpr short))

/-! ### Settling and the ready line (R281, R288) -/

/-- The chip state a goal stands for (R30). -/
def Goal.chip : Goal → Option ChipState
  | .none => Option.none
  | .toIdle => some .idle
  | .toRx => some .rx
  | .toTx => some .tx

theorem Goal.eq_none_of_chip {g : Goal} (h : g.chip = Option.none) : g = .none := by
  cases g with
  | none => rfl
  | toIdle | toRx | toTx => cases h

/-- In a transitional state the goal is reached, and it is then none (R281). -/
theorem settleGoal_reaches {s : State} {c : ChipState} (moving : isTransitional s.chipState = true)
    (goal : s.goal.chip = some c) : settleGoal s = { s with chipState := c, goal := .none } := by
  rw [settleGoal, if_pos moving]
  cases h : s.goal <;> simp_all [Goal.chip]

theorem settleGoal_disabled {s : State} (h : isTransitional s.chipState = false ∨ s.goal = .none) : settleGoal s = s := by
  obtain still | none := h
  · simp [settleGoal, still]
  · simp [settleGoal, none]

/-- The passage to the other transitional state, once per strobe (R281). -/
theorem settleOther_swaps {s : State} (moving : isTransitional s.chipState = true) (goal : s.goal ≠ .none)
    (unused : s.swapUsed = false) :
    settleOther s = { s with
      chipState := if s.chipState = .calibrate then .settling else .calibrate, swapUsed := true } := by
  simp [settleOther, moving, goal, unused]

theorem settleOther_disabled {s : State}
    (h : ¬ (isTransitional s.chipState = true ∧ s.goal ≠ .none ∧ s.swapUsed = false)) : settleOther s = s :=
  if_neg (by simpa [and_assoc] using h)

/-- Settles O44: the goals one by one, and the passage by the transitional state and by the bit that allows it. -/
theorem settleAndBecomeReady : Obligations.SettleAndBecomeReady := by
  unfold Obligations.SettleAndBecomeReady
  intro s es
  refine ⟨fun he => ?_, fun he goal => ?_, fun he => ?_⟩ <;> rw [step_agent he nofun nofun]
  · have reaches {c : ChipState} (moving : isTransitional s.chipState = true) (goal : s.goal.chip = some c) :
        settleGoal (s.withEnv es) = { s.withEnv es with chipState := c, goal := .none } :=
      settleGoal_reaches (s := s.withEnv es) moving goal
    exact ⟨fun moving goal => congrArg _ (reaches moving (congrArg Goal.chip goal)),
      fun moving goal => congrArg _ (reaches moving (congrArg Goal.chip goal)),
      fun moving goal => congrArg _ (reaches moving (congrArg Goal.chip goal)),
      fun still => congrArg _ (settleGoal_disabled (s := s.withEnv es) still)⟩
  · have swaps {c : ChipState} (start : s.chipState = c) (moving : isTransitional c = true)
        (unused : s.swapUsed = false) :
        settleOther (s.withEnv es) = { s.withEnv es with
          chipState := if c = .calibrate then .settling else .calibrate, swapUsed := true } := by
      subst start; exact settleOther_swaps (s := s.withEnv es) moving goal unused
    refine ⟨fun calibrate unused => congrArg _ (swaps calibrate rfl unused),
      fun settling unused => congrArg _ (swaps settling rfl unused), fun used => ?_⟩
    exact congrArg _ (settleOther_disabled (s := s.withEnv es) fun ⟨_, _, unused⟩ =>
      Bool.false_ne_true (unused.symm.trans used))
  · rfl

/-! ### The air (R287) -/

/-- The joint step with one other node (R287). -/
theorem airStep_packet {t n : State} {b0 b1 : Byte} {q : List Byte} (tx : t.chipState = .tx)
    (packet : t.txfifo = b0 :: b1 :: q) (c : AirChoice) :
    airStep t [n] [c] = (txDone t, [airReceive [b0, b1] c n]) := by
  rw [airStep, if_pos ((txDoneEnabled_iff t).mpr ⟨tx, by simp [packet]⟩), packet]
  rfl

/-- A node that is not in RX receives nothing, whatever the air does (R287). -/
theorem airReceive_notRx {n : State} (h : n.chipState ≠ .rx) (p : List Byte) (c : AirChoice) : airReceive p c n = n := by
  cases c with
  | deliver | corrupt => exact rxDone_disabled fun enabled => h enabled.1
  | drop => rfl

/-- Settles O46: the sender by `txDone_packet`, the receiver by the air's choice; a corrupted packet is kept or flushed. -/
theorem airDeliversCorruptsOrDrops : Obligations.AirDeliversCorruptsOrDrops := by
  unfold Obligations.AirDeliversCorruptsOrDrops
  intro t n b0 b1 c0 c1 q tx packet
  simp only [airStep_packet tx packet]
  refine ⟨fun _ => txDone_packet tx packet, fun c notRx => by rw [airReceive_notRx notRx], rfl,
    fun rx room => ⟨?_, ?_⟩⟩
  · exact congrArg (fun u => [u]) (rxDone_appended rx rfl (.inl rfl) room)
  · cases autoflush : n.par.crcAutoflush with
    | false => exact congrArg (fun u => [u]) (rxDone_appended rx rfl (.inr autoflush) room)
    | true => exact congrArg (fun u => [u]) (rxDone_flushes rx rfl rfl autoflush)

end Sys2Proof.Machine
end

section
/-! PROOFS of the statements about the radio agent and the collaborators, second part: what one step of another agent can
be, said once (`AgentCase`), from it what no such step changes (R54, R286), and the sequencer's turn with a transaction
placed (R284). -/

namespace Sys2Proof.Machine

/-! ### What a step of another agent can be (R54, R286) -/

/-- What the event `e` has done to `s`, each step of an agent by the case it was enabled in, or nothing. -/
inductive AgentCase (s : State) : Event → State → Prop
  | still (e : Event) : AgentCase s e s
  | swapped (moving : isTransitional s.chipState = true) (goal : s.goal ≠ .none)
      (unused : s.swapUsed = false) : AgentCase s .settleOther
        { s with chipState := if s.chipState = .calibrate then .settling else .calibrate, swapUsed := true }
  | settled (c : ChipState) (moving : isTransitional s.chipState = true) (goal : s.goal.chip = some c) :
      AgentCase s .settleGoal { s with chipState := c, goal := .none }
  | received (p : List Byte) (ok : Bool) (rx : s.chipState = .rx) (len : p.length = Config.pktLen)
      (kept : ok = true ∨ s.par.crcAutoflush = false)
      (room : s.rxfifo.length + 2 ≤ s.par.fifoDepth) : AgentCase s (.rxDone p ok) (completionEvent (s.received p))
  | overflowed (p : List Byte) (ok : Bool) (rx : s.chipState = .rx) (len : p.length = Config.pktLen)
      (kept : ok = true ∨ s.par.crcAutoflush = false)
      (full : s.par.fifoDepth < s.rxfifo.length + 2) : AgentCase s (.rxDone p ok) { s with chipState := .rxOverflow }
  | flushed (p : List Byte) (rx : s.chipState = .rx) (len : p.length = Config.pktLen)
      (autoflush : s.par.crcAutoflush = true) : AgentCase s (.rxDone p false) (completionEvent s.autoflushed)
  | sent (tx : s.chipState = .tx) (packet : 2 ≤ s.txfifo.length) : AgentCase s .txDone (completionEvent s.transmitted)
  | underflowRaised (tx : s.chipState = .tx) (short : s.txfifo.length < 2) :
      AgentCase s (.txUnderflow true) (completionEvent { s with chipState := .txUnderflow })
  | underflowSilent (tx : s.chipState = .tx) (short : s.txfifo.length < 2) :
      AgentCase s (.txUnderflow false) { s with chipState := .txUnderflow }
  | ready : AgentCase s .becomeReady { s with ready := true }
  | ticked : AgentCase s .tick (tickHandler s)
  | converted : AgentCase s .conversionDone (conversionHandler s)

theorem agentCase_of_eq {s t : State} {e : Event} (h : t = s) : AgentCase s e t := h ▸ .still e

theorem rxDone_case (p : List Byte) (ok : Bool) (s : State) : AgentCase s (.rxDone p ok) (rxDone p ok s) := by
  by_cases enabled : s.chipState = .rx ∧ p.length = Config.pktLen
  · obtain ⟨rx, len⟩ := enabled
    by_cases kept : ok = true ∨ s.par.crcAutoflush = false
    · rcases Nat.lt_or_ge s.par.fifoDepth (s.rxfifo.length + 2) with full | room
      · rw [rxDone_overflows rx len kept full]; exact .overflowed p ok rx len kept full
      · rw [rxDone_appended rx len kept room]; exact .received p ok rx len kept room
    · obtain ⟨rfl, autoflush⟩ : ok = false ∧ s.par.crcAutoflush = true := by simpa using kept
      rw [rxDone_flushes rx len rfl autoflush]; exact .flushed p rx len autoflush
  · exact agentCase_of_eq (rxDone_disabled enabled)

theorem txDone_case (s : State) : AgentCase s .txDone (txDone s) := by
  by_cases enabled : s.chipState = .tx ∧ 2 ≤ s.txfifo.length
  · rw [txDone_sent enabled.1 enabled.2]; exact .sent enabled.1 enabled.2
  · exact agentCase_of_eq (txDone_disabled enabled)

theorem txUnderflow_case (raise : Bool) (s : State) : AgentCase s (.txUnderflow raise) (txUnderflow raise s) := by
  by_cases enabled : s.chipState = .tx ∧ s.txfifo.length < 2
  · rw [txUnderflow_enabled enabled.1 enabled.2]
    cases raise with
    | true => exact .underflowRaised enabled.1 enabled.2
    | false => exact .underflowSilent enabled.1 enabled.2
  · exact agentCase_of_eq (txUnderflow_disabled enabled)

theorem settleOther_case (s : State) : AgentCase s .settleOther (settleOther s) := by
  by_cases enabled : isTransitional s.chipState = true ∧ s.goal ≠ .none ∧ s.swapUsed = false
  · obtain ⟨moving, goal, unused⟩ := enabled
    rw [settleOther_swaps moving goal unused]; exact .swapped moving goal unused
  · exact agentCase_of_eq (settleOther_disabled enabled)

theorem settleGoal_case (s : State) : AgentCase s .settleGoal (settleGoal s) := by
  cases moving : isTransitional s.chipState with
  | false => exact agentCase_of_eq (settleGoal_disabled (.inl moving))
  | true =>
    cases goal : s.goal.chip with
    | none => exact agentCase_of_eq (settleGoal_disabled (.inr (Goal.eq_none_of_chip goal)))
    | some c => rw [settleGoal_reaches moving goal]; exact .settled c moving goal

theorem agentStep_case (e : Event) (s : State) : AgentCase s e (agentStep e s) := by
  cases e with
  | settleOther => exact settleOther_case s
  | settleGoal => exact settleGoal_case s
  | rxDone p ok => exact rxDone_case p ok s
  | txDone => exact txDone_case s
  | txUnderflow raise => exact txUnderflow_case raise s
  | becomeReady => exact .ready
  | tick => exact .ticked
  | conversionDone => exact .converted
  | expire | stall | go => exact .still _

theorem completionEvent_rxfifo (s : State) : (completionEvent s).rxfifo = s.rxfifo := by
  obtain ⟨_, _, rxfifo, _⟩ := completionEvent_target s
  exact rxfifo

theorem completionEvent_txfifo (s : State) : (completionEvent s).txfifo = s.txfifo := by
  obtain ⟨_, _, _, txfifo, _⟩ := completionEvent_target s
  exact txfifo

/-- The receive queue grows by a packet or is flushed, and both only at the end of an RX operation (R282). -/
theorem AgentCase.rxfifo {s t : State} {e : Event} (h : AgentCase s e t) :
    t.rxfifo = s.rxfifo ∨ (∃ p ok, e = .rxDone p ok ∧ t.rxfifo = s.rxfifo ++ p) ∨
      (∃ p, e = .rxDone p false ∧ s.par.crcAutoflush = true ∧ t.rxfifo = []) := by
  cases h with
  | received p ok => exact .inr (.inl ⟨p, ok, rfl, completionEvent_rxfifo _⟩)
  | flushed p _ _ autoflush => exact .inr (.inr ⟨p, rfl, autoflush, completionEvent_rxfifo _⟩)
  | sent | underflowRaised => exact .inl (completionEvent_rxfifo _)
  | still | swapped | settled | overflowed | underflowSilent | ready | ticked | converted => exact .inl rfl

/-- Only the end of a TX operation takes bytes from the transmit queue (R283). -/
theorem AgentCase.txfifo {s t : State} {e : Event} (h : AgentCase s e t) :
    t.txfifo = s.txfifo ∨ (e = .txDone ∧ t.txfifo = s.txfifo.drop 2) := by
  cases h with
  | sent => exact .inr ⟨rfl, completionEvent_txfifo _⟩
  | received | flushed | underflowRaised => exact .inl (completionEvent_txfifo _)
  | still | swapped | settled | overflowed | underflowSilent | ready | ticked | converted => exact .inl rfl

/-- The detector moves only by a completion event, which three events can raise (R282 to R284, R289). -/
theorem AgentCase.detector {s t : State} {e : Event} (h : AgentCase s e t) (noRx : ∀ p ok, e ≠ .rxDone p ok)
    (noTx : e ≠ .txDone) (noUnderflow : e ≠ .txUnderflow true) :
    t.armed = s.armed ∧ t.wakeSlot = s.wakeSlot ∧ t.wakeDir = s.wakeDir := by
  cases h with
  | received p ok => exact absurd rfl (noRx p ok)
  | flushed p => exact absurd rfl (noRx p false)
  | sent => exact absurd rfl noTx
  | underflowRaised => exact absurd rfl noUnderflow
  | still | swapped | settled | overflowed | underflowSilent | ready | ticked | converted => exact ⟨rfl, rfl, rfl⟩

/-- Settles O41: the frame of an agent's step, then the queues and the detector by the cases of the step. -/
theorem agentsTouchOnlyTheirState : Obligations.AgentsTouchOnlyTheirState := by
  unfold Obligations.AgentsTouchOnlyTheirState
  intro e s
  obtain ⟨w, f⟩ := agentStep_frame e s
  have taken := agentStep_case e s
  exact ⟨f.mem, f.tdec, f.csn, w.spiInited, w.dir, w.phase, w.reading, w.payload, w.rxcount, f.lastStatus, w.err,
    w.hostOut, f.wireLog, f.ready, taken.rxfifo, taken.txfifo, taken.detector⟩

/-! ### A transaction placed by a caller (R102, R284) -/

/-- With no choice left, or with the next one `go`, it is the sequencer's turn (R72). -/
theorem nextTurn_sequencer {s : State} (turn : s.env = [] ∨ ∃ es, s.env = .go :: es) :
    nextTurn s = sequencerTurn (s.withEnv s.env.tail) := by
  obtain he | ⟨es, he⟩ := turn
  · rw [nextTurn, he]; exact congrArg sequencerTurn (State.withEnv_nil he).symm
  · rw [nextTurn, he]; rfl

/-- An awake sequencer fetches the transaction placed (R284). -/
theorem nextTurn_fetch {s : State} (turn : s.env = [] ∨ ∃ es, s.env = .go :: es) (awake : s.sleeping = false)
    (running : s.phase ≠ .halt) (placed : s.request ≠ []) :
    nextTurn s = .fetch s.request { s with request := [], env := s.env.tail } := by
  rw [nextTurn_sequencer turn, sequencerTurn_awake (s := s.withEnv s.env.tail) awake running,
    if_neg (by simpa using placed)]
  rfl

/-- Settles O34: the turn fetches the transaction, and the step is what its bytes decode to. -/
theorem stepRunsTheDecodedInstruction : Obligations.StepRunsTheDecodedInstruction := by
  unfold Obligations.StepRunsTheDecodedInstruction
  intro s turn awake running placed
  have fetched := (step_eq_runTurn s).trans (congrArg runTurn (nextTurn_fetch turn awake running placed))
  refine ⟨fun i decoded => ?_, fun e rejected => ?_⟩
  · rw [fetched]; simp only [runTurn, decoded]
  · rw [fetched]; simp only [runTurn, rejected]

end Sys2Proof.Machine
end

section
/-! PROOFS of the statements about exceptions: RESYNC, three strobes whose status bytes nothing checks (R310). -/

namespace Sys2Proof.Machine

/-! ### The idle strobe under the invariants (R30, R177) -/

/-- Where the idle strobe leaves the chip: an error state stays, every other state becomes IDLE (R177). -/
def ChipState.idled (c : ChipState) : ChipState := if isErrorState c then c else .idle

/-- A chip that is not in transit has no goal, so the idle strobe leaves none even where it has no effect. -/
theorem strobeSidle_idled {s : State} (transit : s.goal ≠ .none → isTransitional s.chipState = true) :
    strobeSidle s = { s with chipState := s.chipState.idled, goal := .none } := by
  have noGoal (settled : isTransitional s.chipState = false) : s.goal = .none := by
    by_contra moving
    exact absurd (transit moving) (by simp [settled])
  cases hc : s.chipState with
  | idle | rxOverflow | txUnderflow =>
    have goal : s.goal = .none := noGoal (by rw [hc]; rfl)
    rw [strobeSidle, if_pos (by simp [hc, isErrorState])]
    cases s
    simp_all [ChipState.idled, isErrorState]
  | rx | tx | fstxon | calibrate | settling =>
    rw [strobeSidle, if_neg (by simp [hc, isErrorState])]
    rfl

/-! ### The three strobes of RESYNC (R310) -/

/-- The status byte that the sequencer's strobe `n` returns at `s` (R31, R170). -/
def State.strobeStatus (n : StrobeName) (s : State) : Byte := statusByte (strobeByte s.par.strobeCode n true) s

/-- What a strobe of the sequencer needs to complete: admitted codes, a ready bus and no other agent acting. -/
structure State.Strobable (s : State) : Prop where
  codes : s.par.strobeCode.wf = true
  bus : s.busReady = true
  still : s.env = []

/-- A strobe's transaction leaves the bus as it found it (R125). -/
theorem State.Strobable.strobed {s : State} (h : s.Strobable) (n : StrobeName) : (s.strobed n).Strobable where
  codes := h.codes
  bus := by
    have ready := h.bus
    unfold State.busReady State.busIdle at ready ⊢
    exact ready
  still := h.still

/-- A strobe of the sequencer whose status byte is not checked, from its effect at the target (R170). -/
theorem strobe_strobed {n : StrobeName} {s t : State} (h : s.Strobable) (hn : admitsStrobe n = true)
    (hs : applyStrobe n (s.strobed n) = .ok t) : strobe n s = .ok ⟨s.strobeStatus n, []⟩ t := by
  obtain ⟨u, opened, rfl⟩ := strobeEnd_of_strobed h.bus hs
  exact strobe_quiet h.codes h.bus h.still hn opened

/-- `s` after the idle strobe of RESYNC: the chip in IDLE or in an error state, with no goal. -/
def State.resyncIdled (s : State) : State :=
  { s.strobed .sidle with chipState := s.chipState.idled, goal := .none }

/-- `s` after the first two strobes of RESYNC: the flush of the receive queue also ends RXFIFO_OVERFLOW (R178). -/
def State.resyncRxFlushed (s : State) : State := strobeSfrx (s.resyncIdled.strobed .sfrx)

/-- `s` after the three strobes of RESYNC: the flush of the transmit queue also ends TXFIFO_UNDERFLOW (R179). -/
def State.resynced (s : State) : State := strobeSftx (s.resyncRxFlushed.strobed .sftx)

theorem State.Strobable.resyncIdled {s : State} (h : s.Strobable) : s.resyncIdled.Strobable :=
  ⟨h.codes, (h.strobed .sidle).bus, h.still⟩

theorem State.Strobable.resyncRxFlushed {s : State} (h : s.Strobable) : s.resyncRxFlushed.Strobable :=
  have before := h.resyncIdled
  ⟨before.codes, (before.strobed .sfrx).bus, before.still⟩

theorem phaseResync_quiet {s : State} (h : s.Strobable)
    (transit : s.goal ≠ .none → isTransitional s.chipState = true) :
    phaseResync s = .ok () { s.resynced with phase := firstPhase s.par.role } := by
  have idle : applyStrobe .sidle (s.strobed .sidle) = .ok s.resyncIdled :=
    congrArg Except.ok (strobeSidle_idled (s := s.strobed .sidle) transit)
  have flushRx : strobe .sfrx s.resyncIdled = .ok ⟨_, []⟩ s.resyncRxFlushed := strobe_strobed h.resyncIdled rfl rfl
  have flushTx : strobe .sftx s.resyncRxFlushed = .ok ⟨_, []⟩ s.resynced := strobe_strobed h.resyncRxFlushed rfl rfl
  simp only [phaseResync, strobe_strobed h rfl idle, flushRx, flushTx, OpResult.andThen, goto]

/-- The error states that the idle strobe leaves are the two that the flush strobes end (R177 to R179). -/
theorem resynced_chipState (s : State) : s.resynced.chipState = .idle := by
  show (if (if s.chipState.idled = .rxOverflow then ChipState.idle else s.chipState.idled) = .txUnderflow then .idle
    else if s.chipState.idled = .rxOverflow then ChipState.idle else s.chipState.idled) = .idle
  cases s.chipState <;> rfl

/-- Each strobe of RESYNC is one transaction in the log, its status byte the one of the state it finds (R31, R49). -/
theorem resynced_wireLog (s : State) :
    s.resynced.wireLog = s.wireLog ++ ([
      .select, .byte (strobeByte s.par.strobeCode .sidle true) (s.strobeStatus .sidle), .deselect,
      .select, .byte (strobeByte s.par.strobeCode .sfrx true) (s.resyncIdled.strobeStatus .sfrx), .deselect,
      .select, .byte (strobeByte s.par.strobeCode .sftx true) (s.resyncRxFlushed.strobeStatus .sftx), .deselect] :
      List WireEvent) := by
  show ((s.wireLog ++ _) ++ _) ++ _ = _
  simp only [List.append_assoc]
  rfl

/-- What RESYNC leaves unchanged: the strobes touch the log, the last status byte, the draws, the chip and the queues. -/
theorem resynced_eq (s : State) :
    s.resynced =
      { s with
        wireLog := s.resynced.wireLog, lastStatus := Datum.of (s.resyncRxFlushed.strobeStatus .sftx),
        draws := s.draws + 3, chipState := s.resynced.chipState, goal := .none, rxfifo := [], txfifo := [] } := by
  simp only [State.resynced, State.resyncRxFlushed, State.resyncIdled, State.strobed, State.strobeStatus, State.afterTxn,
    strobeSfrx, strobeSftx]

/-- Settles O59: the three strobes leave IDLE, no goal and empty queues, and control goes to the first phase; the status
byte of the first one shows the chip state that RESYNC began in. -/
theorem resyncRestoresIdle : Obligations.ResyncRestoresIdle := by
  unfold Obligations.ResyncRestoresIdle
  intro s quiet inv
  obtain ⟨hphase, hb, _, _, he⟩ := id quiet
  obtain ⟨_, _, codes⟩ := params_wf_parts inv.params
  have run : runPhase s = .ok () { s.resynced with phase := firstPhase s.par.role } := by
    rw [runPhase, hphase]
    exact phaseResync_quiet ⟨codes, hb, he⟩ inv.goalOnlyInTransit
  refine ⟨s.strobeStatus .sidle, s.resyncIdled.strobeStatus .sfrx, s.resyncRxFlushed.strobeStatus .sftx, ?_,
    stateOf_statusByte (strobeByte s.par.strobeCode .sidle true) s⟩
  rw [step_quietAt quiet nofun, phaseStep_ok run, resynced_eq, resynced_wireLog s, resynced_chipState s]

end Sys2Proof.Machine
end
